-- ==== Sys2Proof/Word.lean ====
section
/-! DEFINITION. The value types of the block (spec/00_scope.md §6: "All values are unsigned bit vectors or
naturals; nothing in this block is signed"). -/

namespace Sys2Proof

/-- `DATA_W` (R4): the width of the data lane (R13, R40).  The four widths of R4 have one value each in every rule, so
they are names of numbers and not parameters of a board (log entry 1). -/
abbrev dataW : Nat := 8
/-- `ADDR_W` (R4): the width of the address the block drives (R41). -/
abbrev addrW : Nat := 16
/-- `PORT_W` (R4): the width of each port register (R10, R13). -/
abbrev portW : Nat := 16
/-- `T_CNT_W` (R4): the width of the timer's countdown register (R21). -/
abbrev tCntW : Nat := 16

/-- `u8`: one byte of the data lane, of a flash cell, of a serial stream (R40). -/
abbrev Byte := BitVec 8

/-- `u16`: an address, a port register, a tick count. -/
abbrev U16 := BitVec 16

/-- Model time in ms-equivalent ticks (R26): a rational.  That `now` is not negative is an invariant of the
model, not a property of the type. -/
abbrev Time := Rat

end Sys2Proof
end

