-- ==== Sys2Proof/Config.lean ====
section
/-! DEFINITION. The named parameters of the block (R4), the constraints between them (R5), and the free values
the spec leaves to the environment (`draw`, `MEM0`).  A run's parameters stand in `State.cfg`, which no step
changes, so that a statement about every state is a statement about every choice of parameters. -/

namespace Sys2Proof

/-- What a malformed WRIT operand does (R4 `DECODE_FAIL_POLICY`, R159, decision D21). -/
inductive DecodeFailPolicy where
  | halt
  | replyAndResume
  deriving DecidableEq, Repr

/-- What an unknown 4-byte token does (R4 `UNRECOG_POLICY`, R158, decision D22). -/
inductive UnrecogPolicy where
  | ignore
  | replyUnrecog
  deriving DecidableEq, Repr

/-- A length of time that is not negative: the type R4 gives the chip times. -/
structure Span where
  ticks : Time
  nonneg : 0 ≤ ticks
  deriving DecidableEq, Repr

/-- The three fields of port C lie inside the register and have no bit in common (R10, R11). -/
def placementOk (ahLsb reBit weBit : Nat) : Bool :=
  decide (ahLsb + dataW ≤ portW) && decide (reBit < portW) && decide (weBit < portW) && decide (reBit ≠ weBit)
    && (decide (reBit < ahLsb) || decide (ahLsb + dataW ≤ reBit))
    && (decide (weBit < ahLsb) || decide (ahLsb + dataW ≤ weBit))

/-- Where port C carries address-high, Read-Enable and Write-Enable (R4, decision D2).  A placement whose fields
overlap or leave the register is no placement (R117), so the check is part of the type (log entry 1). -/
structure Placement where
  /-- `AH_LSB` -/
  ahLsb : Nat
  /-- `RE_BIT` -/
  reBit : Nat
  /-- `WE_BIT` -/
  weBit : Nat
  valid : placementOk ahLsb reBit weBit = true
  deriving DecidableEq, Repr

/-- The placement of R11: `AH = OUT_C[7:0]`, `RE_N = OUT_C[8]`, `WE_N = OUT_C[9]`. -/
def Placement.reference : Placement where
  ahLsb := 0
  reBit := 8
  weBit := 9
  valid := by decide

/-- `OUT_C` with both control lines idle and every other bit 0. -/
def Placement.idle (p : Placement) : U16 := BitVec.twoPow 16 p.reBit ||| BitVec.twoPow 16 p.weBit

/-- The parameters of R4 that may differ from board to board. -/
structure Config where
  /-- `T_READ_SETTLE` -/
  tReadSettle : U16
  /-- `T_WE_HOLD` -/
  tWeHold : U16
  /-- `T_PROG_SETTLE` -/
  tProgSettle : U16
  /-- `T_ERASE_WAIT` -/
  tEraseWait : U16
  /-- `FIXED_ADDR` -/
  fixedAddr : U16
  /-- `HEXBUF_LEN`, in bytes -/
  hexbufLen : Nat
  /-- `AH_LSB`, `RE_BIT`, `WE_BIT` -/
  place : Placement
  /-- `TICKS_PER_MS` (decision D7) -/
  ticksPerMs : Nat
  /-- `T_ACC`, the chip's access time -/
  accSpan : Span
  /-- `T_WP`, the chip's minimum WE# low time -/
  wpSpan : Span
  /-- `T_BP`, the chip's byte-program time -/
  bpSpan : Span
  /-- `T_SCE`, the chip's chip-erase time -/
  sceSpan : Span
  decodeFailPolicy : DecodeFailPolicy
  unrecogPolicy : UnrecogPolicy
  deriving DecidableEq, Repr

namespace Config

/-- The reference column of R4; the OPEN chip times at the suggested defaults of decision D15 (log entry 3). -/
def reference : Config where
  tReadSettle := 100
  tWeHold := 1
  tProgSettle := 1000
  tEraseWait := 2000
  fixedAddr := 0x0072
  hexbufLen := 32
  place := .reference
  ticksPerMs := 1
  accSpan := ⟨1, by decide⟩
  wpSpan := ⟨1, by decide⟩
  bpSpan := ⟨1, by decide⟩
  sceSpan := ⟨100, by decide⟩
  decodeFailPolicy := .halt
  unrecogPolicy := .ignore

/-- `T_ACC` in ticks. -/
def tAcc (c : Config) : Time := c.accSpan.ticks
/-- `T_WP` in ticks. -/
def tWp (c : Config) : Time := c.wpSpan.ticks
/-- `T_BP` in ticks. -/
def tBp (c : Config) : Time := c.bpSpan.ticks
/-- `T_SCE` in ticks. -/
def tSce (c : Config) : Time := c.sceSpan.ticks

/-- R5: the constraints under which the operations mean what DOC0 says they mean.  The block checks none. -/
structure Meets (c : Config) : Prop where
  readSettle : c.tAcc ≤ (c.tReadSettle.toNat : Time)
  weHold : c.tWp ≤ (c.tWeHold.toNat : Time)
  eraseWait : c.tSce ≤ (c.tEraseWait.toNat : Time)
  holdCoversProgram : c.tBp ≤ (c.tWeHold.toNat : Time)
  settleCoversProgram : c.tBp ≤ (c.tReadSettle.toNat : Time)

/-! The lanes of port S, which R13 and R14 fix and R4 does not list (decision D3). -/

/-- `AL = OUT_S[7:0]` (R13). -/
def alLsb : Nat := 0
/-- The data lane `[15:8]` of port S (R13, R14). -/
def dataLsb : Nat := 8

/-! Free values: constants with no body, so that no proof can see them. -/

/-- `MEM0`: the flash array before the first operation (R54, decision D27: OPEN; log entry 5). -/
opaque mem0 : U16 → Byte

/-- `draw(u8)`: the value of the k-th undriven, self-driven or premature sample (R57, R114; log entry 6). -/
opaque freeByte : Nat → Byte

/-- The k-th drawn elapsed time of a wait that no schedule in the state supplies (R101, R105; log entry 7). -/
opaque freeElapsed : Nat → Time

end Config

end Sys2Proof
end

