-- ==== Sys2Proof/Syntax.lean ====
section
/-! DEFINITION. The syntax of the block's four layers of operation (spec/30_encoding.md): one constructor of
`Instr` per row of spec/opcode_table.json. -/

namespace Sys2Proof

/-- `MODE` (R15): who drives the data lane.  Coded Write = 0, Read = 1 in a micro-operation word (R87). -/
inductive BusMode where
  | write
  | read
  deriving DecidableEq, Repr

/-- `SEQ_OP` (R19): which device operation runs. -/
inductive SeqOp where
  | readByte
  | writeByte
  | eraseChip
  deriving DecidableEq, Repr

/-- The seven micro-operations (R87), the steps of a micro-program (R141 to R143). -/
inductive MicroOp where
  | setMode (m : BusMode)
  | drvAddr (v : U16)
  | drvData (v : Byte)
  | sample
  | setRe (b : Bool)
  | setWe (b : Bool)
  | wait (n : U16)
  deriving DecidableEq, Repr

/-- One constructor per row of the opcode table. -/
inductive Instr where
  /-- HANDSHAKE: the 8-byte probe `UART_OK?` (R81, R152). -/
  | handshake
  /-- HANDSHAKE_BADPROBE: any other 8-byte probe (R81, R152). -/
  | handshakeBadProbe (probe : BitVec 64)
  /-- READ (R82, R154). -/
  | read
  /-- WRIT; its 3-byte operand is read from `RX` after `got write` is sent (R82, R83, R155). -/
  | writ
  /-- ERAS (R82, R156). -/
  | eras
  /-- CMD_UNRECOG: any other 4-byte token (R158). -/
  | cmdUnrecog (tok : BitVec 32)
  /-- READBYTE; the ignored operand byte of its request word is kept, since R130 latches it. -/
  | readByte (addr : U16) (wdata : Byte)
  /-- WRITEBYTE b, a (byte first, R95). -/
  | writeByte (byte : Byte) (addr : U16)
  /-- ERASECHIP; the ignored operand bits of its request word are kept, since R130 latches them. -/
  | eraseChip (addr : U16) (wdata : Byte)
  /-- OP_RESERVED: request word with `op = 0b11` (R93). -/
  | opReserved (operands : BitVec 24)
  /-- SETMODE (R111). -/
  | setMode (m : BusMode)
  /-- DRVADDR (R112). -/
  | drvAddr (v : U16)
  /-- DRVDATA (R113). -/
  | drvData (v : Byte)
  /-- SAMPLE (R114). -/
  | sample
  /-- SETRE; `true` asserts, i.e. drives RE# low (R115). -/
  | setRe (b : Bool)
  /-- SETWE; `true` asserts, i.e. drives WE# low (R116). -/
  | setWe (b : Bool)
  /-- WAIT (R101). -/
  | wait (n : U16)
  /-- UOP_RESERVED: micro-operation word with `code = 7` (R93). -/
  | uopReserved (arg : U16)
  /-- PULSE a, d: pseudo-operation, no word of its own (R88, R131). -/
  | pulse (a : U16) (d : Byte)
  /-- UNLOCK1: bus word 0x5555AA (R89). -/
  | unlock1
  /-- UNLOCK2: bus word 0x2AAA55 (R89). -/
  | unlock2
  /-- CMD_PROGRAM: bus word 0x5555A0 (R89). -/
  | cmdProgram
  /-- CMD_ERASE_SETUP: bus word 0x555580 (R89). -/
  | cmdEraseSetup
  /-- CMD_CHIP_ERASE: bus word 0x555510 (R89). -/
  | cmdChipErase
  /-- PAYLOAD: any write bus cycle `(a, d)` (R89). -/
  | payload (a : U16) (d : Byte)
  deriving DecidableEq, Repr

end Sys2Proof
end

