-- ==== Sys2Proof/WellFormed.lean ====
section
/-! DEFINITION. Which instructions are well formed: the checks that tell a row of the opcode table from the rows
that have priority over it (the table's "lower priority" notes). -/

namespace Sys2Proof

/-- `UART_OK?` as one integer, first byte most significant (R81, R42). -/
def probeToken : BitVec 64 := 0x554152545F4F4B3F

/-- `READ` as one integer (R82). -/
def readToken : BitVec 32 := 0x52454144

/-- `WRIT` as one integer (R82). -/
def writToken : BitVec 32 := 0x57524954

/-- `ERAS` as one integer (R82). -/
def erasToken : BitVec 32 := 0x45524153

/-- HANDSHAKE_BADPROBE is "any 8 bytes other than 'UART_OK?'" (R81). -/
def badProbeOk (probe : BitVec 64) : Bool := probe != probeToken

/-- CMD_UNRECOG is "any 4-byte token other than the three mnemonics" (R158). -/
def unrecogOk (tok : BitVec 32) : Bool :=
  tok != readToken && tok != writToken && tok != erasToken

/-- The well-formedness of an instruction.  Every operand of the other rows is in range by its type. -/
def Instr.wf : Instr → Bool
  | .handshakeBadProbe probe => badProbeOk probe
  | .cmdUnrecog tok => unrecogOk tok
  | .handshake => true
  | .read => true
  | .writ => true
  | .eras => true
  | .readByte _ _ => true
  | .writeByte _ _ => true
  | .eraseChip _ _ => true
  | .opReserved _ => true
  | .setMode _ => true
  | .drvAddr _ => true
  | .drvData _ => true
  | .sample => true
  | .setRe _ => true
  | .setWe _ => true
  | .wait _ => true
  | .uopReserved _ => true
  | .pulse _ _ => true
  | .unlock1 => true
  | .unlock2 => true
  | .cmdProgram => true
  | .cmdEraseSetup => true
  | .cmdChipErase => true
  | .payload _ _ => true

end Sys2Proof
end

