-- ==== Sys2Proof/Decode.lean ====
section
/-! DEFINITION. From words to instructions and back (spec/30_encoding.md).  Each layer has its own word format;
a word is decoded in its own layer, as the block does: tokens come from the serial stream, request, micro-operation
and bus words from whoever issues them (R130, R210). -/

namespace Sys2Proof

/-- The words that can be issued to the block below the front end: layers 3, 2 and 1b. -/
inductive IssueWord where
  /-- Format OP, 26 bits (R86). -/
  | op (w : BitVec 26)
  /-- Format UOP, 19 bits (R87). -/
  | uop (w : BitVec 19)
  /-- Format BUS, 24 bits (R89). -/
  | bus (w : BitVec 24)
  deriving DecidableEq, Repr

/-- A word of any layer. -/
inductive CodeWord where
  /-- Format H8, 8 token bytes, the first most significant (R81, R42). -/
  | h8 (w : BitVec 64)
  /-- Format H4, 4 token bytes, the first most significant (R82, R42). -/
  | h4 (w : BitVec 32)
  | issue (w : IssueWord)
  deriving DecidableEq, Repr

/-- What the decoder refuses, by name. -/
inductive DecodeError where
  /-- A micro-operation word with a non-zero must-be-zero part (R93). -/
  | mustBeZero (w : BitVec 19)
  /-- Bytes of a length no token has (R80: "case-sensitive, fixed lengths"). -/
  | wrongLength (n : Nat)
  deriving DecidableEq, Repr

/-! ### Bytes (R42: the first byte on the wire is the most significant) -/

/-- The integer rendering of a byte sequence. -/
def beNat (bs : List Byte) : Nat := bs.foldl (fun acc b => 256 * acc + b.toNat) 0

/-- The `n` bytes of an integer, most significant first. -/
def beBytes : Nat → Nat → List Byte
  | 0, _ => []
  | n + 1, w => beBytes n (w / 256) ++ [BitVec.ofNat 8 w]

/-! ### Decoding -/

/-- Format H8 (R81). -/
def decodeH8 (w : BitVec 64) : Instr :=
  if w = probeToken then .handshake else .handshakeBadProbe w

/-- Format H4 (R82, R92b). -/
def decodeH4 (w : BitVec 32) : Instr :=
  if w = readToken then .read
  else if w = writToken then .writ
  else if w = erasToken then .eras
  else .cmdUnrecog w

/-- Format OP (R86): `op = req[25:24]`, `addr = req[23:8]`, `wdata = req[7:0]`. -/
def decodeOp (w : BitVec 26) : Instr :=
  let addr := w.extractLsb' 8 16
  let wdata := w.extractLsb' 0 8
  match (w.extractLsb' 24 2).toNat with
  | 0 => .readByte addr wdata
  | 1 => .writeByte wdata addr
  | 2 => .eraseChip addr wdata
  | _ => .opReserved (w.extractLsb' 0 24)

/-- The mode operand: Write = 0, Read = 1 (R87). -/
def modeOfBit (b : Bool) : BusMode := if b then .read else .write

/-- The bit of a mode operand. -/
def bitOfMode : BusMode → Bool
  | .write => false
  | .read => true

/-- Format UOP (R87): `code = uop[18:16]`, `arg = uop[15:0]`; a non-zero must-be-zero part is refused (R93). -/
def decodeUop (w : BitVec 19) : Except DecodeError Instr :=
  let arg := w.extractLsb' 0 16
  let low := arg.getLsbD 0
  let checked (mbz : Bool) (i : Instr) : Except DecodeError Instr :=
    if mbz then .ok i else .error (.mustBeZero w)
  match (w.extractLsb' 16 3).toNat with
  | 0 => checked (arg.extractLsb' 1 15 == 0) (.setMode (modeOfBit low))
  | 1 => .ok (.drvAddr arg)
  | 2 => checked (arg.extractLsb' 8 8 == 0) (.drvData (arg.extractLsb' 0 8))
  | 3 => checked (arg == 0) .sample
  | 4 => checked (arg.extractLsb' 1 15 == 0) (.setRe low)
  | 5 => checked (arg.extractLsb' 1 15 == 0) (.setWe low)
  | 6 => .ok (.wait arg)
  | _ => .ok (.uopReserved arg)

/-- Format BUS (R89): `a = word[23:8]`, `d = word[7:0]`.  The table is not a context-free decoder: in recogniser
state `Pgm` (`inPgm`) PAYLOAD has priority over every other row. -/
def decodeBus (inPgm : Bool) (w : BitVec 24) : Instr :=
  if inPgm then .payload (w.extractLsb' 8 16) (w.extractLsb' 0 8)
  else if w = 0x5555AA then .unlock1
  else if w = 0x2AAA55 then .unlock2
  else if w = 0x5555A0 then .cmdProgram
  else if w = 0x555580 then .cmdEraseSetup
  else if w = 0x555510 then .cmdChipErase
  else .payload (w.extractLsb' 8 16) (w.extractLsb' 0 8)

/-- Decoding an issued word. -/
def decodeIssue (inPgm : Bool) : IssueWord → Except DecodeError Instr
  | .op w => .ok (decodeOp w)
  | .uop w => decodeUop w
  | .bus w => .ok (decodeBus inPgm w)

/-- Decoding a word of any layer. -/
def decode (inPgm : Bool) : CodeWord → Except DecodeError Instr
  | .h8 w => .ok (decodeH8 w)
  | .h4 w => .ok (decodeH4 w)
  | .issue w => decodeIssue inPgm w

/-- Decoding token bytes: the length alone decides the format (R80). -/
def decodeBytes (bs : List Byte) : Except DecodeError Instr :=
  if bs.length = 8 then .ok (decodeH8 (BitVec.ofNat 64 (beNat bs)))
  else if bs.length = 4 then .ok (decodeH4 (BitVec.ofNat 32 (beNat bs)))
  else .error (.wrongLength bs.length)

/-! ### Encoding -/

/-- A request word (R86). -/
def opWord (op : BitVec 2) (addr : U16) (wdata : Byte) : CodeWord := .issue (.op (op ++ addr ++ wdata))

/-- A micro-operation word (R87). -/
def uopWord (code : BitVec 3) (arg : U16) : CodeWord := .issue (.uop (code ++ arg))

/-- A bus word (R89). -/
def busWord (a : U16) (d : Byte) : CodeWord := .issue (.bus (a ++ d))

/-- A one-bit operand, zero-extended to 16 bits (R87). -/
def bitArg (b : Bool) : U16 := (BitVec.ofBool b).setWidth 16

/-- The word of a micro-operation (R87). -/
def MicroOp.word : MicroOp → CodeWord
  | .setMode m => uopWord 0 (bitArg (bitOfMode m))
  | .drvAddr v => uopWord 1 v
  | .drvData v => uopWord 2 (v.setWidth 16)
  | .sample => uopWord 3 0
  | .setRe b => uopWord 4 (bitArg b)
  | .setWe b => uopWord 5 (bitArg b)
  | .wait n => uopWord 6 n

/-- The expansion of PULSE (R88), `hold` being `T_WE_HOLD`. -/
def pulseOps (hold : U16) (a : U16) (d : Byte) : List MicroOp :=
  [.setMode .write, .drvAddr a, .drvData d, .setWe true, .wait hold, .setWe false]

/-- The words of a well-formed instruction, in order.  Every row but PULSE has one; PULSE has no word of its own
and is written as the six words of its expansion (R88). -/
def encode (hold : U16) : Instr → List CodeWord
  | .handshake => [.h8 probeToken]
  | .handshakeBadProbe probe => [.h8 probe]
  | .read => [.h4 readToken]
  | .writ => [.h4 writToken]
  | .eras => [.h4 erasToken]
  | .cmdUnrecog tok => [.h4 tok]
  | .readByte addr wdata => [opWord 0 addr wdata]
  | .writeByte byte addr => [opWord 1 addr byte]
  | .eraseChip addr wdata => [opWord 2 addr wdata]
  | .opReserved operands => [.issue (.op ((3 : BitVec 2) ++ operands))]
  | .setMode m => [(MicroOp.setMode m).word]
  | .drvAddr v => [(MicroOp.drvAddr v).word]
  | .drvData v => [(MicroOp.drvData v).word]
  | .sample => [MicroOp.sample.word]
  | .setRe b => [(MicroOp.setRe b).word]
  | .setWe b => [(MicroOp.setWe b).word]
  | .wait n => [(MicroOp.wait n).word]
  | .uopReserved arg => [uopWord 7 arg]
  | .pulse a d => (pulseOps hold a d).map MicroOp.word
  | .unlock1 => [busWord 0x5555 0xAA]
  | .unlock2 => [busWord 0x2AAA 0x55]
  | .cmdProgram => [busWord 0x5555 0xA0]
  | .cmdEraseSetup => [busWord 0x5555 0x80]
  | .cmdChipErase => [busWord 0x5555 0x10]
  | .payload a d => [busWord a d]

/-- The bytes of a token word on the wire (R42); issued words travel on no byte stream. -/
def CodeWord.tokenBytes : CodeWord → List Byte
  | .h8 w => beBytes 8 w.toNat
  | .h4 w => beBytes 4 w.toNat
  | .issue _ => []

/-- The recogniser context in which an instruction's row applies (R89): PAYLOAD in `Pgm`, every other row outside
it.  It matters to bus words only. -/
def Instr.inPgm : Instr → Bool
  | .payload _ _ => true
  | _ => false

/-! ### The host's numbering of an opcode-table word -/

/-- The word of which layer `nbits` bits are, as spec/opcode_table.json gives widths (in whole bytes, or exact).
Two widths serve two layers: 32 bits are a request word (26 bits) or a 4-byte token, and 24 bits a micro-operation
word (19 bits) or a bus word; a number that fits the narrower format is read in it (log entry 12). -/
def tableCodeWord (nbits w : Nat) : Option CodeWord :=
  if 2 ^ nbits ≤ w then none
  else if nbits = 64 then some (.h8 (BitVec.ofNat 64 w))
  else if nbits = 32 then
    if w < 2 ^ 26 then some (.issue (.op (BitVec.ofNat 26 w))) else some (.h4 (BitVec.ofNat 32 w))
  else if nbits = 26 then some (.issue (.op (BitVec.ofNat 26 w)))
  else if nbits = 24 then
    if w < 2 ^ 19 then some (.issue (.uop (BitVec.ofNat 19 w))) else some (.issue (.bus (BitVec.ofNat 24 w)))
  else if nbits = 19 then some (.issue (.uop (BitVec.ofNat 19 w)))
  else none

/-- The instruction the decoder reads from a word numbered as the opcode table numbers it.  A token is laid out
as its bytes on the wire and read back from them. -/
def decodeTableWord (nbits w : Nat) : Option Instr :=
  match tableCodeWord nbits w with
  | some (.issue iw) => (decodeIssue false iw).toOption
  | some cw => (decodeBytes cw.tokenBytes).toOption
  | none => none

end Sys2Proof
end

