-- ==== Sys2Proof/Machine/State.lean ====
section
/-! DEFINITION. The state of the machine (spec/10_state.md), the reasons a step can stop (spec/60_exceptions.md),
and the state right after reset (R200).  Plain data only. -/

namespace Sys2Proof.Machine

/-- `DSP_STATE` (R23). -/
inductive DspState where
  | handshake
  | command
  | halted
  deriving DecidableEq, Repr

/-- `F_CMD`, the chip's command recogniser (R24, R55). -/
inductive ChipCmd where
  | idle
  | u1
  | u2
  | pgm
  | e1
  | e2
  | e3
  deriving DecidableEq, Repr

/-- The events of the trace (R27). -/
inductive Event where
  | mode (m : BusMode)
  | addrHi (v : Byte)
  | addrLo (v : Byte)
  | data (v : Byte)
  /-- `Re(l)`: `RE_N` written with level `l`. -/
  | re (level : Bool)
  /-- `We(l)`: `WE_N` written with level `l`. -/
  | we (level : Bool)
  | sample (v : Byte)
  | waitBegin (n : U16)
  | waitEnd (n : U16)
  | rx (bytes : List Byte)
  | tx (bytes : List Byte)
  deriving DecidableEq, Repr

/-- An event stamped with `now` (R27). -/
structure Stamped where
  time : Time
  event : Event
  deriving DecidableEq, Repr

/-- The delay timer (R21): `T_CNT`, `T_RUN`, `T_EXP`. -/
structure Timer where
  cnt : BitVec tCntW
  run : Bool
  exp : Bool
  deriving DecidableEq, Repr

/-- The sequencer (R19, R20): `SEQ_BUSY`, `SEQ_OP`, `SEQ_ADDR`, `SEQ_WDATA`, `SEQ_UPC`, `SEQ_RDATA`. -/
structure Sequencer where
  busy : Bool
  op : SeqOp
  addr : BitVec addrW
  wdata : BitVec dataW
  upc : Nat
  rdata : BitVec dataW
  deriving DecidableEq, Repr

/-- The command front end (R23): `DSP_STATE`, `RX`, `TX`, and where inside WRIT it stands.  `writPending` holds
between `send("got write")` and the completion of `recv(3)` (R155): the position in the pseudocode that a blocked
`recv` implies (log entry 10). -/
structure FrontEnd where
  dsp : DspState
  writPending : Bool
  rx : List Byte
  tx : List Byte
  deriving DecidableEq, Repr

/-- `F_MEM` (R24): the flash array as the cells that differ from its background, which is `MEM0` until the first
whole-chip erase and 0xFF from then on.  The list is in canonical form (`FlashMem.wf` in Machine/Ops.lean). -/
structure FlashMem where
  erased : Bool
  cells : List Host.Cell
  deriving DecidableEq, Repr

/-- The flash chip (R24): `F_MEM`, `F_CMD`, `F_BUSY_UNTIL`, and the three time stamps. -/
structure Chip where
  mem : FlashMem
  cmd : ChipCmd
  busyUntil : Time
  tAddr : Time
  tRe : Time
  tWe : Time
  deriving DecidableEq, Repr

/-- The model's own fields for what the environment draws (`draw(T)`): the elapsed times of the next waits, and how
many free values have been taken from `Config` so far (log entries 6, 7). -/
structure Draws where
  elapsed : List Time
  count : Nat
  deriving DecidableEq, Repr

/-- The whole state. -/
structure State where
  /-- The parameters (R4), changed by no step. -/
  cfg : Config
  /-- `OUT_C` (R10, R11). -/
  outC : BitVec portW
  /-- `OUT_S` (R13). -/
  outS : BitVec portW
  /-- `MODE` (R15). -/
  mode : BusMode
  timer : Timer
  seq : Sequencer
  fe : FrontEnd
  chip : Chip
  /-- `now` (R26). -/
  now : Time
  /-- `TRACE` (R27), oldest event first. -/
  trace : List Stamped
  draws : Draws
  /-- The model's own field: words a requester other than the front end has issued, oldest first (R130, R210; log
  entry 11). -/
  issue : List IssueWord
  deriving DecidableEq, Repr

/-- What raised `ChipUndefined`. -/
inductive Origin where
  /-- A micro-operation on the pins. -/
  | uop (u : MicroOp)
  /-- A write bus cycle delivered to the chip as a bus word. -/
  | busCycle (a : U16) (d : Byte)
  deriving DecidableEq, Repr

/-- The faults of the model (R188).  The hardware signals none of them. -/
inductive Fault where
  /-- Raised by the pin check after a micro-operation: `MODE = Write`, `RE_N = 0`, `WE_N = 1` (R185, R211).  It
  records the micro-operation and `now`.  Safe: the model stops where the hardware drives DQ from both sides. -/
  | busContention (op : MicroOp) (now : Time)
  /-- Raised when no source defines the chip's reaction: both control lines low, a write bus cycle at the point where
  it stops being well-formed, or a write bus cycle that completes while the chip is busy (R51, R61, R186, R212).  Safe: the model stops where the chip's state
  has no value. -/
  | chipUndefined (origin : Origin) (now : Time)
  /-- Raised by `step` in `DSP_STATE = Halted`: a stuck state that only reset leaves (R160, R229).  Safe: the
  hardware does nothing further. -/
  | halted
  deriving DecidableEq, Repr

/-- The refusals of the model. -/
inductive Refusal where
  /-- An instruction that has no meaning yet.  Safe. -/
  | notModelled (mnemonic : String)
  /-- `Refused` (R187): a request word with the reserved code `op = 0b11` (R93).  Safe: the hardware cannot produce
  one. -/
  | reservedOp (w : BitVec 26)
  /-- `Refused` (R187): a micro-operation word with the reserved code 7 (R93).  Safe: as above. -/
  | reservedUop (w : BitVec 19)
  /-- `Refused` (R187): a word the decoder refuses, by the decoder's own name for it (R93).  Safe: as above. -/
  | undecodable (e : DecodeError)
  /-- A controller-only reset while a sequence is in progress (R202).  Safe. -/
  | resetInProgress
  deriving DecidableEq, Repr

/-- What a step or a meaning answers. -/
abbrev Result := Host.Outcome State Fault Refusal

/-- The state after power-on reset with parameters `cfg` and flash contents `mem` (R200).  Of the values R200 leaves
unspecified, `UNREL_C`, the `SEQ_*` latches and the time stamps are zero (log entry 4). -/
def State.powerOn (cfg : Config) (mem : FlashMem) : State where
  cfg := cfg
  outC := cfg.place.idle
  outS := 0x0000
  mode := .read
  timer := { cnt := 0, run := false, exp := false }
  seq := { busy := false, op := .readByte, addr := 0, wdata := 0, upc := 0, rdata := 0 }
  fe := { dsp := .handshake, writPending := false, rx := [], tx := [] }
  chip := { mem := mem, cmd := .idle, busyUntil := 0, tAddr := 0, tRe := 0, tWe := 0 }
  now := 0
  trace := []
  draws := { elapsed := [], count := 0 }
  issue := []

/-- The state right after the first power-up with the reference parameters: memory lists nothing, so every cell reads
as `MEM0` (R54, R200). -/
def State.reset : State := State.powerOn Config.reference { erased := false, cells := [] }

end Sys2Proof.Machine
end

