-- ==== Sys2Proof/Machine/Ops.lean ====
section
/-! DEFINITION. The shared operations: sequencing of results, the fields of the port registers, the pins, the flash
array, the chip's reaction to a write bus cycle, draws, the trace, the serial streams, and taking and leaving the
one exception the block has. -/

namespace Sys2Proof.Machine

/-- "A line completes before the next line starts" (R7): go on from a next state, stop at a fault or refusal. -/
def andThen (r : Result) (f : State → Result) : Result :=
  match r with
  | .next s => f s
  | .fault e => .fault e
  | .refused e => .refused e

/-! ### Register fields (R10, R90) -/

/-- The mask of `len` bits from bit `lsb` (spec/00_scope.md §6, `REG[hi:lo] <- v`). -/
def fieldMask (lsb len : Nat) : U16 := (BitVec.allOnes len).setWidth 16 <<< lsb

/-- `REG[lsb+k-1:lsb] <- v`, a read-modify-write: `(REG & ~mask) | (v << lsb)`. -/
def setField {k : Nat} (reg : U16) (lsb : Nat) (v : BitVec k) : U16 :=
  (reg &&& ~~~(fieldMask lsb k)) ||| (v.setWidth 16 <<< lsb)

/-- `REG[lsb+k-1:lsb]`. -/
def getField (reg : U16) (lsb k : Nat) : BitVec k := reg.extractLsb' lsb k

/-- The bits of port C that carry `AH`, `RE_N` or `WE_N` (R11). -/
def portCMask (p : Placement) : U16 := fieldMask p.ahLsb 8 ||| fieldMask p.reBit 1 ||| fieldMask p.weBit 1

/-- `AH` (R11). -/
def State.ah (s : State) : Byte := getField s.outC s.cfg.place.ahLsb 8
/-- `RE_N` (R11): `false` = asserted (low). -/
def State.reN (s : State) : Bool := s.outC.getLsbD s.cfg.place.reBit
/-- `WE_N` (R11): `false` = asserted (low). -/
def State.weN (s : State) : Bool := s.outC.getLsbD s.cfg.place.weBit
/-- `UNREL_C` (R11): the other bits of port C, each in its place; `OUT_C[15:10]` in the reference placement. -/
def State.unrelC (s : State) : U16 := s.outC &&& ~~~ portCMask s.cfg.place
/-- `AL` (R13). -/
def State.al (s : State) : Byte := getField s.outS Config.alLsb 8
/-- `DOUT` (R13). -/
def State.dout (s : State) : Byte := getField s.outS Config.dataLsb 8

/-- `AH <- v`, which is `OUT_C[7:0] <- v` in the reference placement (R112). -/
def State.setAh (s : State) (v : Byte) : State := { s with outC := setField s.outC s.cfg.place.ahLsb v }
/-- `RE_N <- l`, `OUT_C[8] <- l` in the reference placement (R115). -/
def State.setReN (s : State) (l : Bool) : State :=
  { s with outC := setField s.outC s.cfg.place.reBit (BitVec.ofBool l) }
/-- `WE_N <- l`, `OUT_C[9] <- l` in the reference placement (R116). -/
def State.setWeN (s : State) (l : Bool) : State :=
  { s with outC := setField s.outC s.cfg.place.weBit (BitVec.ofBool l) }
/-- `OUT_S[7:0] <- v` (R112). -/
def State.setAl (s : State) (v : Byte) : State := { s with outS := setField s.outS Config.alLsb v }
/-- `OUT_S[15:8] <- v` (R113). -/
def State.setDout (s : State) (v : Byte) : State := { s with outS := setField s.outS Config.dataLsb v }

/-! ### Pins (R16) -/

/-- `A[15:0] = {AH, AL}` (R16, R41). -/
def State.addrPins (s : State) : U16 := s.ah ++ s.al

/-- Who drives DQ (R16). -/
inductive DqDriver where
  | controller (v : Byte)
  | chip
  | both
  | none
  deriving DecidableEq, Repr

/-- The chip drives DQ exactly while `RE_N = 0` and `WE_N = 1` (R56). -/
def State.chipDrives (s : State) : Bool := !s.reN && s.weN

/-- The driver of DQ as a function of the state (R16). -/
def State.dqDriver (s : State) : DqDriver :=
  match s.mode, s.chipDrives with
  | .write, true => .both
  | .write, false => .controller s.dout
  | .read, true => .chip
  | .read, false => .none

/-! ### The flash array (R24, R46, R54) -/

/-- What an address that is not listed reads as: `MEM0` before the first erase (R54), 0xFF after it (R59). -/
def FlashMem.unlisted (m : FlashMem) (k : Nat) : Byte :=
  if m.erased then 0xFF else Config.mem0 (BitVec.ofNat 16 k)

/-- The listed value at an address. -/
def lookupCell (k : Nat) : List Host.Cell → Option Byte
  | [] => none
  | c :: cs => if c.1 = k then some c.2 else lookupCell k cs

/-- List a value at an address, keeping addresses rising. -/
def insertCell (k : Nat) (v : Byte) : List Host.Cell → List Host.Cell
  | [] => [(k, v)]
  | c :: cs =>
    if k < c.1 then (k, v) :: c :: cs
    else if k = c.1 then (k, v) :: cs
    else c :: insertCell k v cs

/-- Drop the entry of an address. -/
def removeCell (k : Nat) : List Host.Cell → List Host.Cell
  | [] => []
  | c :: cs => if c.1 = k then cs else c :: removeCell k cs

/-- `F_MEM[a]`. -/
def FlashMem.read (m : FlashMem) (a : U16) : Byte :=
  (lookupCell a.toNat m.cells).getD (m.unlisted a.toNat)

/-- `F_MEM[a] <- v`, in canonical form. -/
def FlashMem.write (m : FlashMem) (a : U16) (v : Byte) : FlashMem :=
  if v = m.unlisted a.toNat then { m with cells := removeCell a.toNat m.cells }
  else { m with cells := insertCell a.toNat v m.cells }

/-- `F_MEM[a] <- 0xFF` for every `a` (R59). -/
def FlashMem.eraseAll : FlashMem := { erased := true, cells := [] }

/-- Addresses strictly rising. -/
def risingCells : List Host.Cell → Bool
  | [] => true
  | [_] => true
  | c :: d :: cs => decide (c.1 < d.1) && risingCells (d :: cs)

/-- The canonical form: addresses strictly rising and inside the array (R46), no entry equal to what its address
reads as unlisted. -/
def FlashMem.wf (m : FlashMem) : Bool :=
  risingCells m.cells && m.cells.all (fun c => decide (c.1 < 65536) && decide (c.2 ≠ m.unlisted c.1))

/-! ### The chip's reaction to a write bus cycle (R55, R58, R59, R61) -/

/-- `Program(a, d, t)` (R58).  `F_BUSY_UNTIL` keeps `t + T_BP` once that time has passed: the model takes a time that is
not ahead of `now` for the "none is pending" of R24 (DESIGN CHOICE, log entry 25). -/
def chipProgram (a : U16) (d : Byte) (t : Time) (s : State) : State :=
  { s with chip.mem := s.chip.mem.write a (s.chip.mem.read a &&& d), chip.busyUntil := t + s.cfg.tBp }

/-- `EraseAll(t)` (R59).  `F_BUSY_UNTIL` keeps its value once it has passed, as in `chipProgram` (log entry 25). -/
def chipEraseAll (t : Time) (s : State) : State :=
  { s with chip.mem := FlashMem.eraseAll, chip.busyUntil := t + s.cfg.tSce }

/-- `F_CMD <- c`. -/
def State.setCmd (s : State) (c : ChipCmd) : State := { s with chip.cmd := c }

/-- The command recogniser on the accepted cycle `(a, d)` at `now` (R55). -/
def chipAccept (a : U16) (d : Byte) (s : State) : State :=
  match s.chip.cmd with
  | .idle => s.setCmd (if a = 0x5555 ∧ d = 0xAA then .u1 else .idle)
  | .u1 => s.setCmd (if a = 0x2AAA ∧ d = 0x55 then .u2 else .idle)
  | .u2 =>
    s.setCmd (if a = 0x5555 ∧ d = 0xA0 then .pgm else if a = 0x5555 ∧ d = 0x80 then .e1 else .idle)
  | .pgm => (chipProgram a d s.now s).setCmd .idle
  | .e1 => s.setCmd (if a = 0x5555 ∧ d = 0xAA then .e2 else .idle)
  | .e2 => s.setCmd (if a = 0x2AAA ∧ d = 0x55 then .e3 else .idle)
  | .e3 => if a = 0x5555 ∧ d = 0x10 then (chipEraseAll s.now s).setCmd .idle else s.setCmd .idle

/-- `MemWrite(a, 1, d)` (R52): deliver one well-formed write bus cycle at `now`; while the chip is busy it has no
defined effect (R61). -/
def memWrite (origin : Origin) (a : U16) (d : Byte) (s : State) : Result :=
  if s.now < s.chip.busyUntil then .fault (.chipUndefined origin s.now) else .next (chipAccept a d s)

/-! ### Trace and draws (R27, R101, R114) -/

/-- `emit(e)`: append an event stamped with `now` (R27). -/
def State.emit (s : State) (e : Event) : State := { s with trace := s.trace ++ [⟨s.now, e⟩] }

/-- The value of the next `draw(u8)`. -/
def State.drawByte (s : State) : Byte := Config.freeByte s.draws.count

/-- The state after a draw from `Config`. -/
def State.countDraw (s : State) : State := { s with draws.count := s.draws.count + 1 }

/-- The environment's next elapsed time: the head of the schedule in the state, else a free value. -/
def State.drawElapsed (s : State) : Time :=
  match s.draws.elapsed with
  | [] => Config.freeElapsed s.draws.count
  | e :: _ => e

/-- The state after an elapsed time is drawn. -/
def State.dropElapsed (s : State) : State :=
  match s.draws.elapsed with
  | [] => s.countDraw
  | _ :: es => { s with draws.elapsed := es }

/-! ### The serial streams (R150) -/

/-- `send(bytes)`: append to `TX`, emit `Tx(bytes)`. -/
def State.send (s : State) (bytes : List Byte) : State :=
  ({ s with fe.tx := s.fe.tx ++ bytes }).emit (.tx bytes)

/-- `recv(k)` once `k` bytes are available: remove them from the front of `RX` and emit `Rx(bytes)`; the bytes
themselves are `s.fe.rx.take k`. -/
def State.recv (s : State) (k : Nat) : State :=
  ({ s with fe.rx := s.fe.rx.drop k }).emit (.rx (s.fe.rx.take k))

/-- The host's side of the link: bytes arrive at the end of `RX` (R150).  An input of the machine, not a step. -/
def State.hostSend (s : State) (bytes : List Byte) : State := { s with fe.rx := s.fe.rx ++ bytes }

/-- `UART_OK!` (R84). -/
def uartOkBytes : List Byte := [0x55, 0x41, 0x52, 0x54, 0x5F, 0x4F, 0x4B, 0x21]
/-- `UNRECOG?` (R84). -/
def unrecogBytes : List Byte := [0x55, 0x4E, 0x52, 0x45, 0x43, 0x4F, 0x47, 0x3F]
/-- `got write` (R84). -/
def gotWriteBytes : List Byte := [0x67, 0x6F, 0x74, 0x20, 0x77, 0x72, 0x69, 0x74, 0x65]
/-- `OK!` (R84). -/
def okBytes : List Byte := [0x4F, 0x4B, 0x21]

/-! ### The one exception: DecodeFailure (R159, R181, R191) and the way back (R192, R202) -/

/-- `DECODE_FAIL()`: under `halt` the front end stops for good, saving nothing, sending nothing and changing no bus
register (R191); under `reply_and_resume` it answers `UNRECOG?` and the loop continues (R159). -/
def takeDecodeFail (s : State) : State :=
  match s.cfg.decodeFailPolicy with
  | .halt => { s with fe.dsp := .halted }
  | .replyAndResume => s.send unrecogBytes

/-- Reset of the controller, the only way out of `Halted` (R192): refused while a sequence is in progress, else
R200 with `F_MEM` kept (R202).  An input of the machine, not a step.  A hand-issued write bus cycle that is open (WE#
low, no operation running, recogniser idle) is dropped: the rise of WE# that the reset causes delivers nothing to the
chip and raises no fault (DESIGN CHOICE, unsafe, log entry 26).  Issued words that still wait are dropped as well, on
which the spec is silent, and the model's draws start again (DESIGN CHOICE, unsafe, log entry 27). -/
def controllerReset (s : State) : Result :=
  if s.seq.busy = true ∨ s.chip.cmd ≠ .idle then .refused .resetInProgress
  else .next (State.powerOn s.cfg s.chip.mem)

end Sys2Proof.Machine
end

