-- ==== Sys2Proof/Machine/BusWords.lean ====
section
/-! DEFINITION. The bus-cycle command words (R89): each is one write bus cycle delivered to the chip (R52), whose
recogniser gives it its meaning (R55). -/

namespace Sys2Proof.Machine

/-- A write bus cycle `(a, d)` as a word of its own. -/
def busCycle (a : U16) (d : Byte) (s : State) : Result := memWrite (.busCycle a d) a d s

/-- UNLOCK1 (R55, R89). -/
def execUnlock1 (s : State) : Result := busCycle 0x5555 0xAA s

/-- UNLOCK2 (R55, R89). -/
def execUnlock2 (s : State) : Result := busCycle 0x2AAA 0x55 s

/-- CMD_PROGRAM (R55, R89). -/
def execCmdProgram (s : State) : Result := busCycle 0x5555 0xA0 s

/-- CMD_ERASE_SETUP (R55, R89). -/
def execCmdEraseSetup (s : State) : Result := busCycle 0x5555 0x80 s

/-- CMD_CHIP_ERASE (R55, R59, R89). -/
def execCmdChipErase (s : State) : Result := busCycle 0x5555 0x10 s

/-- PAYLOAD a, d (R55, R58, R89). -/
def execPayload (a : U16) (d : Byte) (s : State) : Result := busCycle a d s

end Sys2Proof.Machine
end

