-- ==== Sys2Proof/Machine/Operands.lean ====
section
/-! DEFINITION. The operand and result forms of the serial commands (R83, R85), and the value a SAMPLE obtains
(R57, R114). -/

namespace Sys2Proof.Machine

/-- The value of an ASCII digit 0x30..0x39 (R83). -/
def digitValue (b : Byte) : Option Nat :=
  if 0x30 ≤ b.toNat ∧ b.toNat ≤ 0x39 then some (b.toNat - 0x30) else none

/-- Format D3 (R83): exactly three digits, hundreds first, value at most 255, computed exactly and never reduced
modulo 256 (R90); anything else is a decode failure. -/
def parseD3 : List Byte → Option Byte
  | [b0, b1, b2] =>
    match digitValue b0, digitValue b1, digitValue b2 with
    | some d2, some d1, some d0 =>
      let v := 100 * d2 + 10 * d1 + d0
      if v ≤ 255 then some (BitVec.ofNat 8 v) else none
    | _, _, _ => none
  | _ => none

/-- `hex(n)`: `0x30 + n` for 0..9, `0x57 + n` for 10..15, lowercase (R85). -/
def hexDigit (n : BitVec 4) : Byte :=
  if n.toNat < 10 then BitVec.ofNat 8 (0x30 + n.toNat) else BitVec.ofNat 8 (0x57 + n.toNat)

/-- `HEXBUF(v)` of `len = HEXBUF_LEN` bytes: two digits, high nibble first, then 0x00 to the end (R85). -/
def hexbuf (len : Nat) (v : Byte) : List Byte :=
  ([hexDigit (v.extractLsb' 4 4), hexDigit (v.extractLsb' 0 4)] ++ List.replicate (len - 2) 0x00).take len

/-- `valid` of R57 for a SAMPLE at `now`: Read mode, the chip driving, the access time met since RE# fell and `A`
settled, and no internal program or erase pending. -/
def State.sampleValid (s : State) : Bool :=
  decide (s.mode = .read) && s.chipDrives
    && decide (max s.chip.tRe s.chip.tAddr + s.cfg.tAcc ≤ s.now)
    && decide (s.chip.busyUntil ≤ s.now)

/-- What SAMPLE obtains (R114): `MemRead({AH,AL}, 1)` of R57 when valid, else a draw. -/
def State.sampled (s : State) : Byte :=
  if s.sampleValid then s.chip.mem.read s.addrPins else s.drawByte

end Sys2Proof.Machine
end

