-- ==== Sys2Proof/Machine/Flags.lean ====
section
/-! DEFINITION. The flags and checks: the timer's `T_RUN` and `T_EXP` (R21, R102), and the pin checks the model
makes after every micro-operation (R120, R190, R211, R212).  No operation sets a condition code (R22). -/

namespace Sys2Proof.Machine

/-- One step of the timer agent (R102). -/
def Timer.tick (t : Timer) : Timer :=
  if t.run then
    let cnt := if t.cnt = 0 then t.cnt else t.cnt - 1
    if cnt = 0 then { cnt := cnt, run := false, exp := true } else { t with cnt := cnt }
  else t

/-- `n` steps of the timer agent. -/
def Timer.ticks : Nat → Timer → Timer
  | 0, t => t
  | n + 1, t => Timer.ticks n t.tick

/-- Arming a one-shot run of `n` milliseconds at `tpm = TICKS_PER_MS`: `T_CNT <- n * TICKS_PER_MS; T_RUN <- 1` (R101).
A product that does not fit `T_CNT_W` bits is an invalid parameter set (R90). -/
def Timer.arm (t : Timer) (tpm : Nat) (n : U16) : Timer :=
  { t with cnt := BitVec.ofNat 16 (n.toNat * tpm), run := true }

/-- `T_EXP <- 0` (R101). -/
def Timer.clear (t : Timer) : Timer := { t with exp := false }

/-- The timer after the busy-wait of `WAIT n` (R101): armed, polled until its run expires, then the flag cleared.
The run expires after `T_CNT` ticks, and after one tick from a count of 0 (R102).  WAIT 0 is a flag-clear no-op
(R103). -/
def Timer.afterWait (t : Timer) (tpm : Nat) (n : U16) : Timer :=
  if n = 0 then t.clear
  else
    let armed := t.arm tpm n
    (Timer.ticks (max 1 armed.cnt.toNat) armed).clear

/-- Both control lines low (R212). -/
def State.bothLow (s : State) : Bool := !s.reN && !s.weN

/-- A write bus cycle is in progress and `MODE` is not `Write`: the point where the mode condition of R50 breaks, by
SETMODE during the cycle or by a cycle that begins in Read mode (R51, R119, log entry 8). -/
def State.cycleModeBroken (s : State) : Bool := !s.weN && decide (s.mode = .read)

/-- Two drivers on DQ: `MODE = Write`, `RE_N = 0`, `WE_N = 1` (R211). -/
def State.contention (s : State) : Bool := decide (s.mode = .write) && s.chipDrives

/-- The pins are in a configuration for which no source defines the chip's reaction (R186). -/
def State.pinsUndefined (s : State) : Bool := s.bothLow || s.cycleModeBroken

/-- The checks after a micro-operation on the new state (R51, R120); `ChipUndefined` comes first (R190). -/
def pinCheck (u : MicroOp) (s : State) : Result :=
  if s.pinsUndefined then .fault (.chipUndefined (.uop u) s.now)
  else if s.contention then .fault (.busContention u s.now)
  else .next s

end Sys2Proof.Machine
end

