-- ==== Sys2Proof/Machine/MicroOps.lean ====
section
/-! DEFINITION. The micro-operations (spec/41_bus_primitives.md, spec/40_timer.md), PULSE (R131), and running a list
of micro-operations. -/

namespace Sys2Proof.Machine

/-! ### The registers, stamps and events after each micro-operation -/

/-- After SETMODE m (R111). -/
def afterSetMode (m : BusMode) (s : State) : State := ({ s with mode := m }).emit (.mode m)

/-- After DRVADDR v (R112): high byte first, then low byte; a change of `A` restarts the access time (R120). -/
def afterDrvAddr (v : U16) (s : State) : State :=
  let hi := v.extractLsb' 8 8
  let lo := v.extractLsb' 0 8
  let t := (((s.setAh hi).emit (.addrHi hi)).setAl lo).emit (.addrLo lo)
  { t with chip.tAddr := if s.addrPins = v then s.chip.tAddr else s.now }

/-- After DRVDATA v (R113). -/
def afterDrvData (v : Byte) (s : State) : State := (s.setDout v).emit (.data v)

/-- After SAMPLE (R114): nothing is written but the trace; a value nothing defines is a draw. -/
def afterSample (s : State) : State :=
  ({ s with draws.count := if s.sampleValid then s.draws.count else s.draws.count + 1 }).emit (.sample s.sampled)

/-- After SETRE b (R115); `t_re <- now` when RE# falls (R120). -/
def afterSetRe (b : Bool) (s : State) : State :=
  ({ s.setReN (!b) with chip.tRe := if b && s.reN then s.now else s.chip.tRe }).emit (.re (!b))

/-- After the register write of SETWE b (R116).  A fall of WE# begins a write bus cycle: `t_we <- now` (R120). -/
def afterSetWe (b : Bool) (s : State) : State :=
  ({ s.setWeN (!b) with chip.tWe := if b && s.weN then s.now else s.chip.tWe }).emit (.we (!b))

/-- How long `WAIT n` lasts: nothing for 0 (R103), else a draw that is at least `n` (R105). -/
def State.waitTime (s : State) (n : U16) : Time := if n = 0 then 0 else max (n.toNat : Time) s.drawElapsed

/-- After WAIT n (R101). -/
def afterWait (n : U16) (s : State) : State :=
  let s1 := s.emit (.waitBegin n)
  ({ (if n = 0 then s1 else s1.dropElapsed) with
      timer := s.timer.afterWait s.cfg.ticksPerMs n
      now := s.now + s.waitTime n }).emit (.waitEnd n)

/-! ### The micro-operations -/

/-- SETMODE m (R111).  Under low WE#, SETMODE Read breaks the write bus cycle and faults at the pin check (R51). -/
def execSetMode (m : BusMode) (s : State) : Result := pinCheck (.setMode m) (afterSetMode m s)

/-- DRVADDR v (R112).  During a write bus cycle it faults (R119), whether or not it changes `A` (log entry 13). -/
def execDrvAddr (v : U16) (s : State) : Result :=
  if s.weN = false then .fault (.chipUndefined (.uop (.drvAddr v)) s.now)
  else pinCheck (.drvAddr v) (afterDrvAddr v s)

/-- DRVDATA v (R113).  During a write bus cycle it faults (R119), whether or not it changes `DOUT` (log entry 13). -/
def execDrvData (v : Byte) (s : State) : Result :=
  if s.weN = false then .fault (.chipUndefined (.uop (.drvData v)) s.now)
  else pinCheck (.drvData v) (afterDrvData v s)

/-- SAMPLE (R114). -/
def execSample (s : State) : Result := pinCheck .sample (afterSample s)

/-- SETRE b (R115). -/
def execSetRe (b : Bool) (s : State) : Result := pinCheck (.setRe b) (afterSetRe b s)

/-- Is the write bus cycle that completes now well-formed (R50)?  A DRVADDR or DRVDATA (R119) or a
change of `MODE` (R51) during the cycle has faulted where it happened; what is left to judge at the end is the width of the low phase, and, in a state that no
run reaches, the mode and RE#. -/
def State.cycleWellFormed (s : State) : Bool :=
  decide (s.mode = .write) && s.reN && decide (s.chip.tWe + s.cfg.tWp ≤ s.now)

/-- SETWE b (R116).  A cycle that begins in Read mode is ill-formed at once and faults at the pin check (R51, R119).  A
rise of WE# completes the write bus cycle: the chip latches `(A, DOUT)` (R50). -/
def execSetWe (b : Bool) (s : State) : Result :=
  if b = false ∧ s.weN = false then
    if s.cycleWellFormed then
      andThen (memWrite (.uop (.setWe b)) s.addrPins s.dout (afterSetWe b s)) (pinCheck (.setWe b))
    else .fault (.chipUndefined (.uop (.setWe b)) s.now)
  else pinCheck (.setWe b) (afterSetWe b s)

/-- WAIT n (R101). -/
def execWait (n : U16) (s : State) : Result := pinCheck (.wait n) (afterWait n s)

/-- UOP_RESERVED (R93, R187): refused by name. -/
def execUopReserved (arg : U16) (_s : State) : Result := .refused (.reservedUop ((7 : BitVec 3) ++ arg))

/-- One micro-operation. -/
def runMicro : MicroOp → State → Result
  | .setMode m, s => execSetMode m s
  | .drvAddr v, s => execDrvAddr v s
  | .drvData v, s => execDrvData v s
  | .sample, s => execSample s
  | .setRe b, s => execSetRe b s
  | .setWe b, s => execSetWe b s
  | .wait n, s => execWait n s

/-- Micro-operations in order (R7). -/
def runMicros : List MicroOp → State → Result
  | [], s => .next s
  | u :: us, s => andThen (runMicro u s) (runMicros us)

/-- PULSE a, d (R131): its expansion (R88), run in place. -/
def execPulse (a : U16) (d : Byte) (s : State) : Result := runMicros (pulseOps s.cfg.tWeHold a d) s

end Sys2Proof.Machine
end

