-- ==== Sys2Proof/Machine/DeviceOps.lean ====
section
/-! DEFINITION. The sequencer and the device operations (spec/42_device_operations.md). -/

namespace Sys2Proof.Machine

/-- The micro-programs (R141, R142, R143) for the latched operands and the parameters. -/
def microProgram (cfg : Config) (op : SeqOp) (addr : U16) (wdata : Byte) : List MicroOp :=
  match op with
  | .readByte =>
    [.setRe false, .setWe false, .setMode .read, .drvAddr addr, .setRe true, .wait cfg.tReadSettle, .sample,
      .setRe false]
  | .writeByte =>
    pulseOps cfg.tWeHold 0x5555 0xAA ++ pulseOps cfg.tWeHold 0x2AAA 0x55 ++ pulseOps cfg.tWeHold 0x5555 0xA0
      ++ [.wait cfg.tProgSettle] ++ pulseOps cfg.tWeHold addr wdata ++ [.drvData 0x00]
  | .eraseChip =>
    pulseOps cfg.tWeHold 0x5555 0xAA ++ pulseOps cfg.tWeHold 0x2AAA 0x55 ++ pulseOps cfg.tWeHold 0x5555 0x80
      ++ pulseOps cfg.tWeHold 0x5555 0xAA ++ pulseOps cfg.tWeHold 0x2AAA 0x55 ++ pulseOps cfg.tWeHold 0x5555 0x10
      ++ [.wait cfg.tEraseWait]

/-- The micro-program of the running operation. -/
def State.program (s : State) : List MicroOp := microProgram s.cfg s.seq.op s.seq.addr s.seq.wdata

/-- A micro-operation inside a micro-program: SAMPLE also latches `SEQ_RDATA` (R141, index 6). -/
def runSeqMicro (u : MicroOp) (s : State) : Result :=
  match u with
  | .sample => andThen (runMicro .sample s) (fun t => .next { t with seq.rdata := s.sampled })
  | u => runMicro u s

/-- One step of the sequencer while `SEQ_BUSY = 1` (R20, R130): execute `micro-program(op)[SEQ_UPC]` and advance
`SEQ_UPC` by 1; past the last index, `SEQ_BUSY <- 0`. -/
def seqStep (s : State) : Result :=
  match s.program[s.seq.upc]? with
  | none => .next { s with seq.busy := false }
  | some u => andThen (runSeqMicro u s) (fun t => .next { t with seq.upc := s.seq.upc + 1 })

/-- The sequencer until `SEQ_BUSY = 0`, at most `n` steps. -/
def seqDrain : Nat → State → Result
  | 0, s => .next s
  | n + 1, s => if s.seq.busy then andThen (seqStep s) (seqDrain n) else .next s

/-- Enough steps for any operation: the longest micro-program has 37 (R20), one more clears `SEQ_BUSY`. -/
def seqFuel : Nat := 38

/-- Accepting a request (R130): latch the operands, start at index 0. -/
def acceptRequest (op : SeqOp) (addr : U16) (wdata : Byte) (s : State) : State :=
  { s with seq := { s.seq with busy := true, op := op, addr := addr, wdata := wdata, upc := 0 } }

/-- `Request(op, addr, wdata)` (R130): wait until `SEQ_BUSY = 0` (a request while busy is held, never dropped,
never interleaved), accept, run to completion. -/
def request (op : SeqOp) (addr : U16) (wdata : Byte) (s : State) : Result :=
  andThen (seqDrain seqFuel s) (fun t => seqDrain seqFuel (acceptRequest op addr wdata t))

/-- READBYTE a (R132); its result is `SEQ_RDATA`. -/
def execReadByte (addr : U16) (wdata : Byte) (s : State) : Result := request .readByte addr wdata s

/-- WRITEBYTE b, a (R133). -/
def execWriteByte (byte : Byte) (addr : U16) (s : State) : Result := request .writeByte addr byte s

/-- ERASECHIP (R134). -/
def execEraseChip (addr : U16) (wdata : Byte) (s : State) : Result := request .eraseChip addr wdata s

/-- OP_RESERVED (R93, R187): refused by name. -/
def execOpReserved (operands : BitVec 24) (_s : State) : Result :=
  .refused (.reservedOp ((3 : BitVec 2) ++ operands))

end Sys2Proof.Machine
end

