-- ==== Sys2Proof/Machine/HostCommands.lean ====
section
/-! DEFINITION. The command front end's procedures (spec/43_host_commands.md).  The token itself has been received
when one of them runs (`recv` in Machine/Fetch.lean). -/

namespace Sys2Proof.Machine

/-- `DSP_STATE <- Command` (R151). -/
def State.toCommand (s : State) : State := { s with fe.dsp := .command }

/-- HANDSHAKE with the probe `UART_OK?` (R152). -/
def execHandshake (s : State) : Result := .next (s.send uartOkBytes).toCommand

/-- HANDSHAKE with any other probe (R152): the command loop is entered all the same. -/
def execHandshakeBadProbe (_probe : BitVec 64) (s : State) : Result := .next (s.send unrecogBytes).toCommand

/-- READ (R154). -/
def execRead (s : State) : Result :=
  andThen (request .readByte s.cfg.fixedAddr 0 s) (fun t => .next ((t.send (hexbuf t.cfg.hexbufLen t.seq.rdata)).send okBytes))

/-- WRIT from its `recv(3)` on (R155): hold until three bytes are there; a malformed operand takes the decode-failure
exception before any bus activity; else WRITEBYTE and `OK!`. -/
def writOperand (s : State) : Result :=
  if s.fe.rx.length < 3 then .next { s with fe.writPending := true }
  else
    let t := { s.recv 3 with fe.writPending := false }
    match parseD3 (s.fe.rx.take 3) with
    | none => .next (takeDecodeFail t)
    | some b => andThen (request .writeByte s.cfg.fixedAddr b t) (fun u => .next (u.send okBytes))

/-- WRIT (R155): `got write` is sent before the operand is read. -/
def execWrit (s : State) : Result := writOperand (s.send gotWriteBytes)

/-- ERAS (R156). -/
def execEras (s : State) : Result :=
  andThen (request .eraseChip 0 0 s) (fun t => .next (t.send okBytes))

/-- CMD_UNRECOG (R158). -/
def execCmdUnrecog (_tok : BitVec 32) (s : State) : Result :=
  match s.cfg.unrecogPolicy with
  | .ignore => .next s
  | .replyUnrecog => .next (s.send unrecogBytes)

end Sys2Proof.Machine
end

