-- ==== Sys2Proof/Machine/Dispatch.lean ====
section
/-! DEFINITION. One arm per constructor of `Instr`, each one call of that instruction's meaning. -/

namespace Sys2Proof.Machine

def exec (i : Instr) (s : State) : Host.Outcome State Fault Refusal :=
  match i with
  | .handshake => Sys2Proof.Machine.execHandshake s
  | .handshakeBadProbe probe => Sys2Proof.Machine.execHandshakeBadProbe probe s
  | .read => Sys2Proof.Machine.execRead s
  | .writ => Sys2Proof.Machine.execWrit s
  | .eras => Sys2Proof.Machine.execEras s
  | .cmdUnrecog tok => Sys2Proof.Machine.execCmdUnrecog tok s
  | .readByte addr wdata => Sys2Proof.Machine.execReadByte addr wdata s
  | .writeByte byte addr => Sys2Proof.Machine.execWriteByte byte addr s
  | .eraseChip addr wdata => Sys2Proof.Machine.execEraseChip addr wdata s
  | .opReserved operands => Sys2Proof.Machine.execOpReserved operands s
  | .setMode m => Sys2Proof.Machine.execSetMode m s
  | .drvAddr v => Sys2Proof.Machine.execDrvAddr v s
  | .drvData v => Sys2Proof.Machine.execDrvData v s
  | .sample => Sys2Proof.Machine.execSample s
  | .setRe b => Sys2Proof.Machine.execSetRe b s
  | .setWe b => Sys2Proof.Machine.execSetWe b s
  | .wait n => Sys2Proof.Machine.execWait n s
  | .uopReserved arg => Sys2Proof.Machine.execUopReserved arg s
  | .pulse a d => Sys2Proof.Machine.execPulse a d s
  | .unlock1 => Sys2Proof.Machine.execUnlock1 s
  | .unlock2 => Sys2Proof.Machine.execUnlock2 s
  | .cmdProgram => Sys2Proof.Machine.execCmdProgram s
  | .cmdEraseSetup => Sys2Proof.Machine.execCmdEraseSetup s
  | .cmdChipErase => Sys2Proof.Machine.execCmdChipErase s
  | .payload a d => Sys2Proof.Machine.execPayload a d s

end Sys2Proof.Machine
end

