-- ==== Sys2Proof/Machine/Fetch.lean ====
section
/-! DEFINITION. Where the next instruction comes from: an issued word (R130, R210), else the front end's next token
(R151). -/

namespace Sys2Proof.Machine

/-- Execute what a decoder answered, or refuse its error by name (R187). -/
def execDecoded (d : Except DecodeError Instr) (s : State) : Result :=
  match d with
  | .ok i => exec i s
  | .error e => .refused (.undecodable e)

/-- The oldest issued word: decoded in the chip's recogniser context (R89) and executed. -/
def issueStep (w : IssueWord) (rest : List IssueWord) (s : State) : Result :=
  execDecoded (decodeIssue (decide (s.chip.cmd = .pgm)) w) { s with issue := rest }

/-- `recv(k)` of a token, then its procedure.  With fewer than `k` bytes there, the front end is blocked in its
busy-wait: nothing changes until the host sends (R150). -/
def tokenStep (k : Nat) (s : State) : Result :=
  if s.fe.rx.length < k then .next s else execDecoded (decodeBytes (s.fe.rx.take k)) (s.recv k)

/-- The front end (R151): the probe of 8 bytes once, then tokens of 4 bytes; a WRIT that waits for its operand goes
on (R155); `Halted` is stuck (R160). -/
def frontEndStep (s : State) : Result :=
  match s.fe.dsp with
  | .halted => .fault .halted
  | .handshake => if s.fe.writPending then writOperand s else tokenStep 8 s
  | .command => if s.fe.writPending then writOperand s else tokenStep 4 s

/-- One step: a halted device is stuck (R160); a running operation goes on (R130); then issued words, oldest first;
then the front end. -/
def machineStep (s : State) : Result :=
  if s.fe.dsp = .halted then .fault .halted
  else if s.seq.busy then seqStep s
  else
    match s.issue with
    | w :: rest => issueStep w rest s
    | [] => frontEndStep s

/-- The state in which `machineStep` fetches from the issue queue. -/
def State.readyForIssue (s : State) (w : IssueWord) : State :=
  { s with
    seq.busy := false
    fe.dsp := if s.fe.dsp = .halted then .command else s.fe.dsp
    issue := w :: s.issue }

/-- The state in which `machineStep` receives token bytes in `DSP_STATE = d`. -/
def State.readyForToken (s : State) (d : DspState) (bytes : List Byte) : State :=
  { s with
    seq.busy := false
    fe := { s.fe with dsp := d, writPending := false, rx := bytes ++ s.fe.rx }
    issue := [] }

/-- Place a word where `machineStep` fetches next (log entry 11). -/
def State.placeWord (s : State) : CodeWord → State
  | .h8 w => s.readyForToken .handshake (beBytes 8 w.toNat)
  | .h4 w => s.readyForToken .command (beBytes 4 w.toNat)
  | .issue w => s.readyForIssue w

end Sys2Proof.Machine
end

