-- ==== Sys2Proof/Safety.lean ====
section
/-! DEFINITION. What counts as a safe run, and the terms the claims are stated in: quiescent states, the invariant every
step keeps, host sessions, and what an operation leaves unchanged. -/

namespace Sys2Proof.Machine

/-! ### Quiescence (spec/00_scope.md §7, R17, R137) -/

/-- Both control lines idle. -/
def LinesIdle (s : State) : Prop := s.reN = true ∧ s.weN = true

/-- Quiescent: both lines idle and no operation in progress. -/
def Quiescent (s : State) : Prop := LinesIdle s ∧ s.seq.busy = false

/-- The pins are in a configuration no check refuses: RE# high with WE# high or Write mode, or WE# high in Read mode
(R51, R211, R212). -/
def PinsSafe (s : State) : Prop :=
  (s.reN = true ∧ (s.weN = true ∨ s.mode = .write)) ∨ (s.weN = true ∧ s.mode = .read)

/-- The premises of a write bus cycle by PULSE (R137, R217): idle lines, a hold no shorter than the chip's pulse width,
and a chip that is free by the earliest end of the hold. -/
def WriteReady (s : State) : Prop :=
  LinesIdle s ∧ s.cfg.tWp ≤ (s.cfg.tWeHold.toNat : Time)
    ∧ s.chip.busyUntil ≤ s.now + (s.cfg.tWeHold.toNat : Time)

/-- The premises of WRITEBYTE and ERASECHIP for their documented effect (R137). -/
def OperationReady (s : State) : Prop := WriteReady s ∧ s.seq.busy = false ∧ s.chip.cmd = .idle

/-! ### Frames -/

/-- No flash cell, no recogniser state, no busy window changed (a busy window that has passed is kept, log entry 25). -/
def SameFlash (s t : State) : Prop :=
  (∀ a, t.chip.mem.read a = s.chip.mem.read a) ∧ t.chip.cmd = s.chip.cmd ∧ t.chip.busyUntil = s.chip.busyUntil

/-- The port registers and the bus mode unchanged. -/
def SamePorts (s t : State) : Prop := t.outC = s.outC ∧ t.outS = s.outS ∧ t.mode = s.mode

/-- The chip's three time stamps unchanged. -/
def SameStamps (s t : State) : Prop :=
  t.chip.tAddr = s.chip.tAddr ∧ t.chip.tRe = s.chip.tRe ∧ t.chip.tWe = s.chip.tWe

/-- Everything above the bus unchanged: parameters, sequencer, front end, issued words. -/
def SameAbove (s t : State) : Prop :=
  t.cfg = s.cfg ∧ t.seq = s.seq ∧ t.fe = s.fe ∧ t.issue = s.issue

/-- The timer, the clock and the draws unchanged. -/
def SameTime (s t : State) : Prop := t.timer = s.timer ∧ t.now = s.now ∧ t.draws = s.draws

/-! ### Instructions as lists -/

/-- The instruction that is a micro-operation. -/
def microInstr : MicroOp → Instr
  | .setMode m => .setMode m
  | .drvAddr v => .drvAddr v
  | .drvData v => .drvData v
  | .sample => .sample
  | .setRe b => .setRe b
  | .setWe b => .setWe b
  | .wait n => .wait n

/-- Instructions executed one after the other (R7). -/
def execAll : List Instr → State → Result
  | [], s => .next s
  | i :: is, s => andThen (exec i s) (execAll is)

/-- The events of one PULSE, without their stamps (R131). -/
def pulseTrace (hold : U16) (a : U16) (d : Byte) : List Event :=
  [.mode .write, .addrHi (a.extractLsb' 8 8), .addrLo (a.extractLsb' 0 8), .data d, .we false, .waitBegin hold,
    .waitEnd hold, .we true]

/-- The events of a trace without their stamps. -/
def State.events (s : State) : List Event := s.trace.map Stamped.event

/-- The instruction of a device operation, with its operands. -/
def opInstr (op : SeqOp) (addr : U16) (wdata : Byte) : Instr :=
  match op with
  | .readByte => .readByte addr wdata
  | .writeByte => .writeByte wdata addr
  | .eraseChip => .eraseChip addr wdata

/-! ### The invariant -/

/-- What every step keeps (log entry 4 for reset): the flash array is in canonical form; never both lines low (R17);
never two drivers on DQ (R18); no write bus cycle open in Read mode (R50, log entry 8); the timer at rest between instructions (R101 "State after"); no stamp ahead of the clock
and the clock not negative (R26); `SEQ_UPC` inside the running micro-program or just past it (R20); WRIT waits for its
operand only in `Command` (R155). -/
structure Inv (s : State) : Prop where
  memory : s.chip.mem.wf = true
  notBothLow : ¬ (s.reN = false ∧ s.weN = false)
  noContention : ¬ (s.mode = .write ∧ s.reN = false ∧ s.weN = true)
  cycleInWriteMode : ¬ (s.weN = false ∧ s.mode = .read)
  timerAtRest : s.timer = { cnt := 0, run := false, exp := false }
  clock : 0 ≤ s.now
  addrStamp : s.chip.tAddr ≤ s.now
  reStamp : s.chip.tRe ≤ s.now
  weStamp : s.chip.tWe ≤ s.now
  upc : s.seq.busy = true → s.seq.upc ≤ (microProgram s.cfg s.seq.op s.seq.addr s.seq.wdata).length
  writ : s.fe.writPending = true → s.fe.dsp = .command

/-! ### Host sessions (R162, R213, R216) -/

/-- A state between two commands of a device that is driven through its front end alone, on a board whose parameters
meet R5: nothing issued past the front end, quiescent, the recogniser idle, and at most a byte program pending. -/
structure Session (s : State) : Prop where
  params : s.cfg.Meets
  nothingIssued : s.issue = []
  quiescent : Quiescent s
  recogniser : s.chip.cmd = .idle
  pending : s.chip.busyUntil ≤ s.now + s.cfg.tBp
  addrStamp : s.chip.tAddr ≤ s.now

/-- A run under a host: before each step the host may send bytes, any bytes. -/
def sessionRun : List (List Byte) → State → Result
  | [], s => .next s
  | bytes :: more, s => andThen (step (s.hostSend bytes)) (sessionRun more)

end Sys2Proof.Machine
end

