-- ==== Sys2Proof/Certificates/Slice0/Obligations.lean ====
section
/-! DEFINITION. The statements about the machine, one definition each. -/

open Sys2Proof Sys2Proof.Machine

/-! ### Reset, stepping, encoding -/

/-- R200: a power-on reset leaves the lines idle, the address and data fields zero, Read mode, the timer idle, no
operation in progress, the front end at the handshake with empty streams, the recogniser idle, no busy window, the
clock at 0 and the trace empty, whatever the flash holds; at the first power-up every cell reads as `MEM0`. -/
def Obligations.ResetLeavesTheTableOfResetValues : Prop :=
  (∀ (cfg : Config) (mem : FlashMem),
    let s := State.powerOn cfg mem
    s.reN = true ∧ s.weN = true ∧ s.ah = 0 ∧ s.al = 0 ∧ s.dout = 0 ∧ s.mode = .read
      ∧ s.timer.cnt = 0 ∧ s.timer.run = false ∧ s.timer.exp = false ∧ s.seq.busy = false
      ∧ s.fe.dsp = .handshake ∧ s.fe.rx = [] ∧ s.fe.tx = []
      ∧ s.chip.cmd = .idle ∧ s.chip.busyUntil = 0 ∧ s.chip.mem = mem ∧ s.now = 0 ∧ s.trace = [])
    ∧ (∃ mem, State.reset = State.powerOn Config.reference mem ∧ ∀ a, mem.read a = Config.mem0 a)

/-- The invariant holds after every power-on reset of a board whose flash array is in canonical form, so at
`State.reset`.
(The time stamps at reset are log entry 4.) -/
def Obligations.PowerOnMeetsTheInvariant : Prop :=
  (∀ (cfg : Config) (mem : FlashMem), mem.wf = true → Inv (State.powerOn cfg mem)) ∧ Inv State.reset

/-- A step of a device that is neither halted nor running an operation takes the oldest issued word off the queue and
executes the instruction it decodes to (a bus word in the recogniser's context, R89); a word the decoder refuses is
refused.  The queue and its place before the front end are the model's choice (log entry 11). -/
def Obligations.StepRunsTheOldestIssuedWord : Prop :=
  ∀ (s : State) (w : IssueWord) (rest : List IssueWord),
    s.fe.dsp ≠ .halted → s.seq.busy = false → s.issue = w :: rest →
    (∀ i, decodeIssue (decide (s.chip.cmd = .pgm)) w = .ok i → step s = exec i { s with issue := rest })
      ∧ (∀ e, decodeIssue (decide (s.chip.cmd = .pgm)) w = .error e → step s = .refused (.undecodable e))

/-- R80, R150, R151: with nothing issued and no WRIT waiting, a step of the front end receives 8 bytes in `Handshake`
and 4 in `Command`, removes exactly those from `RX` and executes what they decode to; with fewer bytes there it is
blocked and the state does not change.
(That a blocked step answers the same state is log entry 21.) -/
def Obligations.StepRunsTheNextToken : Prop :=
  ∀ (s : State) (k : Nat),
    s.seq.busy = false → s.issue = [] → s.fe.writPending = false →
    (s.fe.dsp = .handshake ∧ k = 8) ∨ (s.fe.dsp = .command ∧ k = 4) →
    (s.fe.rx.length < k → step s = .next s)
      ∧ (k ≤ s.fe.rx.length →
          ∃ i, decodeBytes (s.fe.rx.take k) = .ok i
            ∧ step s = exec i
                { s with
                  fe.rx := s.fe.rx.drop k
                  trace := s.trace ++ [⟨s.now, .rx (s.fe.rx.take k)⟩] })

/-- R20, R130: while an operation runs, a step executes the micro-operation at `SEQ_UPC` and nothing else: if it
completes, `SEQ_UPC` has advanced by exactly 1, the operation and its operands are unchanged and it still runs; past
the last index the step only clears `SEQ_BUSY`.  READBYTE has the indices 0..7, WRITEBYTE 0..25, ERASECHIP 0..36. -/
def Obligations.StepAdvancesTheMicroProgramByOne : Prop :=
  (∀ cfg a b, (microProgram cfg .readByte a b).length = 8 ∧ (microProgram cfg .writeByte a b).length = 26
      ∧ (microProgram cfg .eraseChip a b).length = 37)
    ∧ ∀ s : State, s.fe.dsp ≠ .halted → s.seq.busy = true →
        (∀ u t, (microProgram s.cfg s.seq.op s.seq.addr s.seq.wdata)[s.seq.upc]? = some u → step s = .next t →
          t.seq.upc = s.seq.upc + 1 ∧ t.seq.busy = true ∧ t.seq.op = s.seq.op ∧ t.seq.addr = s.seq.addr
            ∧ t.seq.wdata = s.seq.wdata ∧ t.fe = s.fe ∧ t.issue = s.issue
            ∧ ∃ r, exec (microInstr u) s = .next r ∧ t.outC = r.outC ∧ t.outS = r.outS ∧ t.mode = r.mode
              ∧ t.timer = r.timer ∧ t.chip = r.chip ∧ t.now = r.now ∧ t.trace = r.trace ∧ t.draws = r.draws)
        ∧ ((microProgram s.cfg s.seq.op s.seq.addr s.seq.wdata).length ≤ s.seq.upc →
          step s = .next { s with seq.busy := false })

/-- Words written out from the spec's encodings (R81, R82, R86, R87, R89) decode to the instructions they stand for. -/
def Obligations.WordsWrittenOutDecode : Prop :=
  decode false (.h8 0x554152545F4F4B3F) = .ok .handshake
    ∧ decode false (.h8 0x554152545F4F4B21) = .ok (.handshakeBadProbe 0x554152545F4F4B21)
    ∧ decode false (.h4 0x52454144) = .ok .read ∧ decode false (.h4 0x57524954) = .ok .writ
    ∧ decode false (.h4 0x45524153) = .ok .eras ∧ decode false (.h4 0x72656164) = .ok (.cmdUnrecog 0x72656164)
    ∧ decode false (.issue (.op 0x0007200)) = .ok (.readByte 0x0072 0x00)
    ∧ decode false (.issue (.op 0x1001042)) = .ok (.writeByte 0x42 0x0010)
    ∧ decode false (.issue (.op 0x2000000)) = .ok (.eraseChip 0 0)
    ∧ decode false (.issue (.op 0x3000000)) = .ok (.opReserved 0)
    ∧ decode false (.issue (.uop 0x00000)) = .ok (.setMode .write)
    ∧ decode false (.issue (.uop 0x00001)) = .ok (.setMode .read)
    ∧ decode false (.issue (.uop 0x15555)) = .ok (.drvAddr 0x5555)
    ∧ decode false (.issue (.uop 0x200AA)) = .ok (.drvData 0xAA)
    ∧ decode false (.issue (.uop 0x30000)) = .ok .sample
    ∧ decode false (.issue (.uop 0x40000)) = .ok (.setRe false)
    ∧ decode false (.issue (.uop 0x40001)) = .ok (.setRe true)
    ∧ decode false (.issue (.uop 0x50000)) = .ok (.setWe false)
    ∧ decode false (.issue (.uop 0x50001)) = .ok (.setWe true)
    ∧ decode false (.issue (.uop 0x60064)) = .ok (.wait 100)
    ∧ decode false (.issue (.uop 0x70000)) = .ok (.uopReserved 0)
    ∧ decode false (.issue (.uop 0x20100)) = .error (.mustBeZero 0x20100)
    ∧ decode false (.issue (.bus 0x5555AA)) = .ok .unlock1
    ∧ decode false (.issue (.bus 0x2AAA55)) = .ok .unlock2
    ∧ decode false (.issue (.bus 0x5555A0)) = .ok .cmdProgram
    ∧ decode false (.issue (.bus 0x555580)) = .ok .cmdEraseSetup
    ∧ decode false (.issue (.bus 0x555510)) = .ok .cmdChipErase
    ∧ decode true (.issue (.bus 0x5555AA)) = .ok (.payload 0x5555 0xAA)
    ∧ decode false (.issue (.bus 0x001042)) = .ok (.payload 0x0010 0x42)

/-- Decode and encode agree: every well-formed instruction but PULSE has one word, which decodes to it, with every
operand at every value the encoding admits; PULSE's six words decode to the six micro-operations of its expansion. -/
def Obligations.DecodeOfEncodeIsTheInstruction : Prop :=
  (∀ (hold : U16) (i : Instr), i.wf = true → (∀ a d, i ≠ .pulse a d) →
    ∃ w, encode hold i = [w] ∧ decode i.inPgm w = .ok i)
    ∧ (∀ (hold a : U16) (d : Byte) (inPgm : Bool),
        (encode hold (.pulse a d)).map (decode inPgm) =
          [.ok (.setMode .write), .ok (.drvAddr a), .ok (.drvData d), .ok (.setWe true), .ok (.wait hold),
            .ok (.setWe false)])

/-- Each word has one meaning: what a word decodes to is well-formed and encodes to that word. -/
def Obligations.EncodeOfDecodeIsTheWord : Prop :=
  ∀ (inPgm : Bool) (hold : U16) (w : CodeWord) (i : Instr), decode inPgm w = .ok i →
    i.wf = true ∧ encode hold i = [w]

/-- The bytes of a serial token on the wire, first byte most significant (R42), decode to the token's instruction. -/
def Obligations.TokenBytesDecode : Prop :=
  ∀ (hold : U16) (i : Instr) (w : CodeWord), i.wf = true → encode hold i = [w] → w.tokenBytes ≠ [] →
    decodeBytes w.tokenBytes = .ok i

/-- R93: request words with `op = 0b11`, micro-operation words with `code = 7` and words with a non-zero must-be-zero
part are refused, in every state, whatever state the chip's recogniser is in when they are decoded. -/
def Obligations.ReservedCodesAreRefused : Prop :=
  ∀ inPgm : Bool,
    (∀ (w : BitVec 26), w.extractLsb' 24 2 = 3 →
      ∃ i, decodeIssue inPgm (.op w) = .ok i ∧ ∀ s, exec i s = .refused (.reservedOp w))
    ∧ (∀ (w : BitVec 19), w.extractLsb' 16 3 = 7 →
      ∃ i, decodeIssue inPgm (.uop w) = .ok i ∧ ∀ s, exec i s = .refused (.reservedUop w))
    ∧ (∀ (w : BitVec 19),
      ((w.extractLsb' 16 3 = 0 ∨ w.extractLsb' 16 3 = 4 ∨ w.extractLsb' 16 3 = 5) ∧ w.extractLsb' 1 15 ≠ 0)
        ∨ (w.extractLsb' 16 3 = 2 ∧ w.extractLsb' 8 8 ≠ 0)
        ∨ (w.extractLsb' 16 3 = 3 ∧ w.extractLsb' 0 16 ≠ 0) →
      decodeIssue inPgm (.uop w) = .error (.mustBeZero w))

/-! ### Micro-operations -/

/-- R111, R118: SETMODE writes `MODE` and nothing else, in particular neither control line, and emits `Mode(m)`; after a
switch to Write the controller drives DQ with `DOUT`, after a switch to Read it drives it no more (R16).  It faults
where the new state is a contention (R211), has both lines low (R212, R190), or has a write bus cycle open in Read mode:
SETMODE Read under low WE# is `ChipUndefined` at once, the point where the condition `MODE = Write` of R50 breaks (R51;
that reading of R51 is DEDUCED, log entry 8).  Everywhere else it completes. -/
def Obligations.SetModeWritesTheModeOnly : Prop :=
  ∀ (m : BusMode) (s : State),
    ((s.reN = true ∧ (s.weN = true ∨ m = .write)) ∨ (s.weN = true ∧ m = .read) →
      ∃ t, exec (.setMode m) s = .next t ∧ t.mode = m ∧ t.outC = s.outC ∧ t.outS = s.outS
        ∧ t.trace = s.trace ++ [⟨s.now, .mode m⟩]
        ∧ (m = .write → t.dqDriver = .controller s.dout)
        ∧ (m = .read → t.dqDriver = if s.reN = false ∧ s.weN = true then .chip else .none)
        ∧ SameFlash s t ∧ SameAbove s t ∧ SameTime s t ∧ SameStamps s t)
    ∧ (s.reN = false → s.weN = true → m = .write →
      exec (.setMode m) s = .fault (.busContention (.setMode m) s.now))
    ∧ (s.weN = false → s.reN = false ∨ m = .read →
      exec (.setMode m) s = .fault (.chipUndefined (.uop (.setMode m)) s.now))

/-- R112, R119: DRVADDR splits the address over `AH` and `AL`, keeps `RE_N`, `WE_N`, `UNREL_C` and `DOUT`, emits the high byte
first, and restarts the access time if `A` changed (R120); while WE# is low every DRVADDR faults, as the row of R119 says,
one that changes nothing too (R50 and R112 speak of a change only, log entry 13). -/
def Obligations.DriveAddressSplitsTheAddress : Prop :=
  ∀ (v : U16) (s : State),
    (PinsSafe s → s.weN = true →
      ∃ t, exec (.drvAddr v) s = .next t ∧ t.ah = v.extractLsb' 8 8 ∧ t.al = v.extractLsb' 0 8
        ∧ t.addrPins = v ∧ t.reN = s.reN ∧ t.weN = s.weN ∧ t.unrelC = s.unrelC ∧ t.dout = s.dout ∧ t.mode = s.mode
        ∧ t.trace = s.trace ++ [⟨s.now, .addrHi (v.extractLsb' 8 8)⟩, ⟨s.now, .addrLo (v.extractLsb' 0 8)⟩]
        ∧ SameFlash s t ∧ SameAbove s t ∧ SameTime s t
        ∧ t.chip.tAddr = (if s.addrPins = v then s.chip.tAddr else s.now)
        ∧ t.chip.tRe = s.chip.tRe ∧ t.chip.tWe = s.chip.tWe)
    ∧ (s.weN = false →
      exec (.drvAddr v) s = .fault (.chipUndefined (.uop (.drvAddr v)) s.now))

/-- R113, R119: DRVDATA writes `DOUT` in either mode, keeps `AL` and everything else, and emits `Data(v)`; in Write mode `v` is
on DQ at once, in Read mode at the next SETMODE Write; while WE# is low every DRVDATA faults, as the row of R119 says, one
that changes nothing too (R50 and R113 speak of a change only, log entry 13). -/
def Obligations.DriveDataWritesTheDataHalf : Prop :=
  ∀ (v : Byte) (s : State),
    (PinsSafe s → s.weN = true →
      ∃ t, exec (.drvData v) s = .next t ∧ t.dout = v ∧ t.al = s.al ∧ t.outC = s.outC ∧ t.mode = s.mode
        ∧ t.trace = s.trace ++ [⟨s.now, .data v⟩]
        ∧ (s.mode = .write → t.dqDriver = .controller v)
        ∧ (s.mode = .read → s.reN = true → ∃ r, exec (.setMode .write) t = .next r ∧ r.dqDriver = .controller v)
        ∧ SameFlash s t ∧ SameAbove s t ∧ SameTime s t ∧ SameStamps s t)
    ∧ (s.weN = false →
      exec (.drvData v) s = .fault (.chipUndefined (.uop (.drvData v)) s.now))

/-- R114, R57: SAMPLE records one value `v` and writes no register; `v` is the array byte at the address on the pins
when the chip drives DQ in Read mode, the access time since RE# fell and since `A` settled has passed, and the chip is
not busy; otherwise it is the next free byte, whatever that is (log entry 6). -/
def Obligations.SampleReadsTheArrayOrDraws : Prop :=
  ∀ s : State, PinsSafe s →
    ∃ t v, exec .sample s = .next t ∧ t.trace = s.trace ++ [⟨s.now, .sample v⟩]
      ∧ (s.mode = .read ∧ s.reN = false ∧ s.weN = true ∧ s.chip.tRe + s.cfg.tAcc ≤ s.now
          ∧ s.chip.tAddr + s.cfg.tAcc ≤ s.now ∧ s.chip.busyUntil ≤ s.now →
          v = s.chip.mem.read s.addrPins ∧ t.draws = s.draws)
      ∧ (¬ (s.mode = .read ∧ s.reN = false ∧ s.weN = true ∧ s.chip.tRe + s.cfg.tAcc ≤ s.now
          ∧ s.chip.tAddr + s.cfg.tAcc ≤ s.now ∧ s.chip.busyUntil ≤ s.now) →
          v = Config.freeByte s.draws.count ∧ t.draws = { s.draws with count := s.draws.count + 1 })
      ∧ SamePorts s t ∧ SameFlash s t ∧ SameAbove s t ∧ SameStamps s t ∧ t.timer = s.timer ∧ t.now = s.now

/-- R115: SETRE writes `RE_N` and keeps `AH`, `WE_N`, `UNREL_C`; it stamps `t_re` when RE# falls (R120); asserting it
in Write mode is a contention, asserting it under a low WE# is undefined.  (Releasing it has as its premise that no
write bus cycle is open in Read mode, which is part of the invariant every step keeps.) -/
def Obligations.SetReadEnableWritesItsBit : Prop :=
  ∀ (b : Bool) (s : State),
    ((b = false ∧ (s.weN = true ∨ s.mode = .write)) ∨ (s.weN = true ∧ s.mode = .read) →
      ∃ t, exec (.setRe b) s = .next t ∧ t.reN = !b ∧ t.weN = s.weN ∧ t.ah = s.ah ∧ t.unrelC = s.unrelC
        ∧ t.outS = s.outS ∧ t.mode = s.mode ∧ t.trace = s.trace ++ [⟨s.now, .re (!b)⟩]
        ∧ SameFlash s t ∧ SameAbove s t ∧ SameTime s t
        ∧ t.chip.tRe = (if b = true ∧ s.reN = true then s.now else s.chip.tRe)
        ∧ t.chip.tAddr = s.chip.tAddr ∧ t.chip.tWe = s.chip.tWe)
    ∧ (b = true → s.weN = true → s.mode = .write →
      exec (.setRe b) s = .fault (.busContention (.setRe b) s.now))
    ∧ (b = true → s.weN = false → exec (.setRe b) s = .fault (.chipUndefined (.uop (.setRe b)) s.now))

/-- R116, first half: asserting WE# in Write mode under a high RE# writes `WE_N` and keeps `AH`, `RE_N`, `UNREL_C`; it
stamps `t_we` when WE# falls; the chip does nothing yet.  Under a low RE# it is undefined (R212).  In Read mode the cycle
it would begin is ill-formed from its first instant, so it faults at once (R50, R51, R119; that the fault comes at
SETWE true and not at the later SETWE false is DEDUCED, log entry 8). -/
def Obligations.AssertWriteEnableBeginsACycle : Prop :=
  ∀ s : State,
    (s.reN = true → s.mode = .write →
      ∃ t, exec (.setWe true) s = .next t ∧ t.weN = false ∧ t.reN = true ∧ t.ah = s.ah ∧ t.unrelC = s.unrelC
        ∧ t.outS = s.outS ∧ t.mode = .write ∧ t.trace = s.trace ++ [⟨s.now, .we false⟩]
        ∧ SameFlash s t ∧ SameAbove s t ∧ SameTime s t
        ∧ t.chip.tWe = (if s.weN = true then s.now else s.chip.tWe)
        ∧ t.chip.tAddr = s.chip.tAddr ∧ t.chip.tRe = s.chip.tRe)
    ∧ (s.reN = false ∨ s.mode = .read →
      exec (.setWe true) s = .fault (.chipUndefined (.uop (.setWe true)) s.now))

/-- R116, second half, with R50 and R51: releasing WE# completes the write bus cycle.  From high WE# nothing is latched;
from low WE# a well-formed cycle delivers `(A, DOUT)` to the chip, as the same bus word does (R52); a cycle whose low
phase was shorter than `T_WP` faults, and so does a cycle that ends while the chip is busy (R61) or, in states that no run
reaches, with the mode not Write or RE# not high.  (A DRVADDR or DRVDATA, log entry 13, and a mode other than
Write, log entry 8, fault where they happen, so no such cycle gets here.) -/
def Obligations.ReleaseWriteEnableCompletesTheCycle : Prop :=
  ∀ s : State,
    (s.weN = true → PinsSafe s →
      ∃ t, exec (.setWe false) s = .next t ∧ t.outC = s.outC ∧ t.outS = s.outS ∧ t.mode = s.mode
        ∧ t.trace = s.trace ++ [⟨s.now, .we true⟩]
        ∧ SameFlash s t ∧ SameAbove s t ∧ SameTime s t ∧ SameStamps s t)
    ∧ (s.weN = false → s.reN = true → s.mode = .write →
        s.chip.tWe + s.cfg.tWp ≤ s.now → s.chip.busyUntil ≤ s.now →
      ∃ t r, exec (.setWe false) s = .next t ∧ exec (.payload s.addrPins s.dout) s = .next r
        ∧ t.chip.mem = r.chip.mem ∧ t.chip.cmd = r.chip.cmd ∧ t.chip.busyUntil = r.chip.busyUntil
        ∧ t.weN = true ∧ t.reN = true ∧ t.ah = s.ah ∧ t.unrelC = s.unrelC ∧ t.outS = s.outS ∧ t.mode = .write
        ∧ t.trace = s.trace ++ [⟨s.now, .we true⟩] ∧ SameAbove s t ∧ SameTime s t ∧ SameStamps s t)
    ∧ (s.weN = false →
        s.mode = .read ∨ s.reN = false ∨ s.now < s.chip.tWe + s.cfg.tWp ∨ s.now < s.chip.busyUntil →
      exec (.setWe false) s = .fault (.chipUndefined (.uop (.setWe false)) s.now))

/-- R101, R103, R105: WAIT completes; for `n ≠ 0` it ends with the timer's count, run bit and flag clear and the clock
at least `n` ticks later; for `n = 0` it only clears the flag and takes no time.  No pin, no
register outside the timer and nothing of the chip changes (`F_BUSY_UNTIL` is kept when its time passes, log entry 25).
(Two cases of the clause for `n ≠ 0` are the model's: from a set
flag the wait still lasts and ends with the timer at rest, DEDUCED, log entry 14; and where `n * TICKS_PER_MS` does not fit
16 bits, a parameter set that R90 calls invalid, it does so all the same, DESIGN CHOICE, log entry 1.) -/
def Obligations.WaitLetsTimePassAndNothingElse : Prop :=
  ∀ (n : U16) (s : State), PinsSafe s →
    ∃ t, exec (.wait n) s = .next t
      ∧ (n ≠ 0 → t.timer = { cnt := 0, run := false, exp := false } ∧ s.now + (n.toNat : Time) ≤ t.now)
      ∧ (n = 0 → t.timer = { s.timer with exp := false } ∧ t.now = s.now ∧ t.draws = s.draws)
      ∧ t.trace = s.trace ++ [⟨s.now, .waitBegin n⟩, ⟨t.now, .waitEnd n⟩]
      ∧ SamePorts s t ∧ SameFlash s t ∧ SameAbove s t ∧ SameStamps s t

/-- R105: every elapsed time that is at least `n` is a possible one: the environment's next draw decides it.  (The
schedule of draws is the model's own field, log entry 7.) -/
def Obligations.WaitLastsAsLongAsTheEnvironmentDraws : Prop :=
  ∀ (n : U16) (e : Time) (rest : List Time) (s : State), PinsSafe s → n ≠ 0 → (n.toNat : Time) ≤ e →
    s.draws.elapsed = e :: rest →
    ∃ t, exec (.wait n) s = .next t ∧ t.now = s.now + e ∧ t.draws.elapsed = rest

/-- R102: the timer agent, armed with a count `c`, counts down by one a tick, never below 0 and never wrapping; the run
ends by itself and the flag is set at tick `c` and not before; a timer that is not armed does not move. -/
def Obligations.TimerCountsDownOnceAndStops : Prop :=
  (∀ (c : U16) (k : Nat), c ≠ 0 →
    (k < c.toNat → Timer.ticks k { cnt := c, run := true, exp := false } =
      { cnt := BitVec.ofNat 16 (c.toNat - k), run := true, exp := false })
      ∧ (c.toNat ≤ k → Timer.ticks k { cnt := c, run := true, exp := false } =
        { cnt := 0, run := false, exp := true }))
    ∧ (∀ (t : Timer) (k : Nat), t.run = false → Timer.ticks k t = t)

/-- R117: whenever a primitive that writes a field completes, the field equals the operand and every bit of the two port
registers outside it keeps its value.  `AH_LSB`, `RE_BIT` and `WE_BIT` are the parameters of R4: 0, 8 and 9 in the
reference placement. -/
def Obligations.PrimitivesMaskAndPreserve : Prop :=
  (Config.reference.place.ahLsb = 0 ∧ Config.reference.place.reBit = 8 ∧ Config.reference.place.weBit = 9)
    ∧ ∀ (s t : State) (i : Nat), i < 16 →
    (∀ v, exec (.drvAddr v) s = .next t →
      (∀ k, k < 8 → t.outC.getLsbD (s.cfg.place.ahLsb + k) = v.getLsbD (8 + k) ∧ t.outS.getLsbD k = v.getLsbD k)
        ∧ t.addrPins = v
        ∧ (i < s.cfg.place.ahLsb ∨ s.cfg.place.ahLsb + 8 ≤ i → t.outC.getLsbD i = s.outC.getLsbD i)
        ∧ (8 ≤ i → t.outS.getLsbD i = s.outS.getLsbD i))
    ∧ (∀ v, exec (.drvData v) s = .next t →
      (∀ k, k < 8 → t.outS.getLsbD (8 + k) = v.getLsbD k) ∧ t.dout = v
        ∧ t.outC.getLsbD i = s.outC.getLsbD i ∧ (i < 8 → t.outS.getLsbD i = s.outS.getLsbD i))
    ∧ (∀ b, exec (.setRe b) s = .next t →
      t.outC.getLsbD s.cfg.place.reBit = !b ∧ (i ≠ s.cfg.place.reBit → t.outC.getLsbD i = s.outC.getLsbD i)
        ∧ t.outS.getLsbD i = s.outS.getLsbD i)
    ∧ (∀ b, exec (.setWe b) s = .next t →
      t.outC.getLsbD s.cfg.place.weBit = !b ∧ (i ≠ s.cfg.place.weBit → t.outC.getLsbD i = s.outC.getLsbD i)
        ∧ t.outS.getLsbD i = s.outS.getLsbD i)
    ∧ (∀ m, exec (.setMode m) s = .next t →
      t.mode = m ∧ t.outC.getLsbD i = s.outC.getLsbD i ∧ t.outS.getLsbD i = s.outS.getLsbD i)

/-- R211, R212, R51: no micro-operation, from any state, completes with two drivers on DQ, with both lines low, or with a
write bus cycle open in Read mode; none is refused; and the faults it can end in are `ChipUndefined` and, from high WE#
only, `BusContention`, each naming the micro-operation and the time at its end, which is `now` for all but WAIT.
(The checks after WAIT and SAMPLE are log entry 24, the check of the mode is log entry 8.) -/
def Obligations.NoMicroOperationLeavesAHazard : Prop :=
  ∀ (u : MicroOp) (s : State),
    (∀ t, exec (microInstr u) s = .next t →
      ¬ (t.mode = .write ∧ t.reN = false ∧ t.weN = true) ∧ ¬ (t.reN = false ∧ t.weN = false)
        ∧ ¬ (t.weN = false ∧ t.mode = .read))
    ∧ (∀ f, exec (microInstr u) s = .fault f →
      ∃ time, s.now ≤ time ∧ ((∀ n, u ≠ .wait n) → time = s.now)
        ∧ (f = .chipUndefined (.uop u) time ∨ (f = .busContention u time ∧ s.weN = true)))
    ∧ ∀ r, exec (microInstr u) s ≠ .refused r

/-- R121: SETMODE, DRVADDR, DRVDATA, SETRE and SETWE executed twice with the same operand leave the state the first
execution left, but for the events of the trace; SAMPLE leaves the state but for its event and the draw. -/
def Obligations.PrimitivesAreIdempotent : Prop :=
  (∀ (u : MicroOp) (s t : State), (∀ n, u ≠ .wait n) → u ≠ .sample → exec (microInstr u) s = .next t →
    ∃ r, exec (microInstr u) t = .next r ∧ { r with trace := t.trace } = t)
    ∧ (∀ s t, exec .sample s = .next t → { t with trace := s.trace, draws := s.draws } = s)

/-! ### The chip -/

/-- R55: bus words in the states of the recogniser that expect them, on a chip that is not busy: each moves the
recogniser to the next state of its sequence and changes neither the array nor the busy window.
(A bus word leaves the pins alone, log entry 19.) -/
def Obligations.ExpectedWordsAdvanceTheRecogniser : Prop :=
  ∀ s : State, s.chip.busyUntil ≤ s.now →
    (∀ i c c', (i = .unlock1 ∧ c = .idle ∧ c' = .u1) ∨ (i = .unlock1 ∧ c = .e1 ∧ c' = .e2)
        ∨ (i = .unlock2 ∧ c = .u1 ∧ c' = .u2) ∨ (i = .unlock2 ∧ c = .e2 ∧ c' = .e3)
        ∨ (i = .cmdProgram ∧ c = .u2 ∧ c' = .pgm) ∨ (i = .cmdEraseSetup ∧ c = .u2 ∧ c' = .e1) →
      s.chip.cmd = c →
      ∃ t, exec i s = .next t ∧ t.chip.cmd = c' ∧ t.chip.mem = s.chip.mem ∧ t.chip.busyUntil = s.chip.busyUntil
        ∧ SamePorts s t ∧ SameAbove s t ∧ SameTime s t ∧ SameStamps s t ∧ t.trace = s.trace)

/-- R55, R94: on a chip that is not busy, a write cycle that is not the one the recogniser's state expects returns it to
`Idle` and changes nothing else.  (That the chip does so is the spec's reference model, decision D14; that a bus word
leaves the pins, the mode, the stamps and the trace alone is DEDUCED, log entry 19.) -/
def Obligations.UnexpectedWordsReturnToIdle : Prop :=
  ∀ (s : State) (a : U16) (d : Byte), s.chip.busyUntil ≤ s.now →
    (s.chip.cmd = .idle ∨ s.chip.cmd = .e1 → ¬ (a = 0x5555 ∧ d = 0xAA)) →
    (s.chip.cmd = .u1 ∨ s.chip.cmd = .e2 → ¬ (a = 0x2AAA ∧ d = 0x55)) →
    (s.chip.cmd = .u2 → ¬ (a = 0x5555 ∧ (d = 0xA0 ∨ d = 0x80))) →
    (s.chip.cmd = .e3 → ¬ (a = 0x5555 ∧ d = 0x10)) →
    s.chip.cmd ≠ .pgm →
    exec (.payload a d) s = .next { s with chip.cmd := .idle }

/-- R58: in state `Pgm` any word is the payload: the addressed cell becomes the AND of its old value and the payload,
every other cell keeps its value, the recogniser is idle and the chip is busy for `T_BP`.
(A bus word leaves the pins alone, log entry 19.) -/
def Obligations.PayloadProgramsOneCell : Prop :=
  ∀ (s : State) (a : U16) (d : Byte), s.chip.mem.wf = true → s.chip.cmd = .pgm → s.chip.busyUntil ≤ s.now →
    ∃ t, exec (.payload a d) s = .next t ∧ t.chip.mem.read a = s.chip.mem.read a &&& d
      ∧ (∀ b, b ≠ a → t.chip.mem.read b = s.chip.mem.read b)
      ∧ t.chip.cmd = .idle ∧ t.chip.busyUntil = s.now + s.cfg.tBp
      ∧ SamePorts s t ∧ SameAbove s t ∧ SameTime s t ∧ SameStamps s t ∧ t.trace = s.trace

/-- R89: a command word is a write cycle like any other: in every state of the recogniser it does exactly what PAYLOAD
with its address and data does; so in `Pgm` it programs its data at its address. -/
def Obligations.CommandWordsArePayloads : Prop :=
  ∀ (s : State) (i : Instr) (a : U16) (d : Byte),
    (i = .unlock1 ∧ a = 0x5555 ∧ d = 0xAA) ∨ (i = .unlock2 ∧ a = 0x2AAA ∧ d = 0x55)
        ∨ (i = .cmdProgram ∧ a = 0x5555 ∧ d = 0xA0) ∨ (i = .cmdEraseSetup ∧ a = 0x5555 ∧ d = 0x80)
        ∨ (i = .cmdChipErase ∧ a = 0x5555 ∧ d = 0x10) →
    exec i s = exec (.payload a d) s
      ∧ (s.chip.cmd = .pgm → s.chip.busyUntil ≤ s.now → s.chip.mem.wf = true →
        ∃ t, exec i s = .next t ∧ t.chip.cmd = .idle ∧ t.chip.mem.read a = s.chip.mem.read a &&& d
          ∧ (∀ b, b ≠ a → t.chip.mem.read b = s.chip.mem.read b))

/-- R59: the sixth cycle of the erase sequence, in state `E3`, makes every cell 0xFF; the recogniser is idle and the
chip is busy for `T_SCE`.
(A bus word leaves the pins alone, log entry 19.) -/
def Obligations.ChipEraseErasesEveryCell : Prop :=
  ∀ s : State, s.chip.cmd = .e3 → s.chip.busyUntil ≤ s.now →
    ∃ t, exec .cmdChipErase s = .next t ∧ (∀ a, t.chip.mem.read a = 0xFF) ∧ t.chip.cmd = .idle
      ∧ t.chip.busyUntil = s.now + s.cfg.tSce
      ∧ SamePorts s t ∧ SameAbove s t ∧ SameTime s t ∧ SameStamps s t ∧ t.trace = s.trace

/-- R61: a write bus cycle that completes while the chip is busy faults, whichever word it is. -/
def Obligations.BusyChipRefusesEveryWord : Prop :=
  ∀ (s : State) (i : Instr), s.now < s.chip.busyUntil →
    i = .unlock1 ∨ i = .unlock2 ∨ i = .cmdProgram ∨ i = .cmdEraseSetup ∨ i = .cmdChipErase
      ∨ (∃ a d, i = .payload a d) →
    ∃ o, exec i s = .fault (.chipUndefined o s.now)

/-- Over one background (`MEM0`, or the erased array), two flash arrays in canonical form that read alike at every
address are the same data. -/
def Obligations.CanonicalArraysThatReadAlikeAreEqual : Prop :=
  ∀ m n : FlashMem, m.wf = true → n.wf = true → m.erased = n.erased → (∀ a, m.read a = n.read a) → m = n

/-! ### PULSE and the device operations -/

/-- R88: PULSE is its six micro-operations, one after the other. -/
def Obligations.PulseIsItsSixMicroOperations : Prop :=
  ∀ (a : U16) (d : Byte) (s : State),
    exec (.pulse a d) s =
      execAll [.setMode .write, .drvAddr a, .drvData d, .setWe true, .wait s.cfg.tWeHold, .setWe false] s

/-- R131, R136: PULSE from idle lines completes, when `T_WP ≤ T_WE_HOLD` (R217) and the chip is free by the earliest end
of the hold, `F_BUSY_UNTIL ≤ now + T_WE_HOLD` (`WriteReady`).  It leaves Write mode, the address and data on the pins, both lines
high, and a clock at least `T_WE_HOLD` later; its events are those of R131 in order; and the chip has received exactly
the write bus cycle `(a, d)`, at the end of the pulse (R52). -/
def Obligations.PulseDeliversOneWriteCycle : Prop :=
  ∀ (a : U16) (d : Byte) (s : State), WriteReady s →
    ∃ t r, exec (.pulse a d) s = .next t
      ∧ t.mode = .write ∧ t.addrPins = a ∧ t.dout = d ∧ t.weN = true ∧ t.reN = s.reN ∧ t.unrelC = s.unrelC
      ∧ s.now + (s.cfg.tWeHold.toNat : Time) ≤ t.now
      ∧ t.events = s.events ++ pulseTrace s.cfg.tWeHold a d
      ∧ exec (.payload a d) { s with now := t.now } = .next r
      ∧ t.chip.mem = r.chip.mem ∧ t.chip.cmd = r.chip.cmd ∧ t.chip.busyUntil = r.chip.busyUntil
      ∧ SameAbove s t ∧ t.chip.tRe = s.chip.tRe
      ∧ (s.timer = { cnt := 0, run := false, exp := false } → t.timer = { cnt := 0, run := false, exp := false })

/-- R132, R136: READBYTE from an idle sequencer with WE# high, whatever RE# and the mode are, completes: Read mode, the
address on the pins, both lines high, `DOUT` kept, the clock at least `T_READ_SETTLE` later, the chip untouched; and if
the settle delay covers the access time and no internal operation is pending by its end, `SEQ_RDATA` is the array byte.
(That `t_addr ≤ now` is part of the invariant every step keeps.)  The latches hold the request (R130); the timer is at
rest again if it was.  (From a low WE# see `ReadByteFromLowWriteEnableEndsTheCycle`.)
(What the latches hold afterwards is log entry 17.) -/
def Obligations.ReadByteReturnsTheArrayByte : Prop :=
  ∀ (a : U16) (x : Byte) (s : State), s.seq.busy = false → s.weN = true →
    ∃ t, exec (.readByte a x) s = .next t
      ∧ t.mode = .read ∧ t.addrPins = a ∧ t.reN = true ∧ t.weN = true ∧ t.dout = s.dout ∧ t.unrelC = s.unrelC
      ∧ s.now + (s.cfg.tReadSettle.toNat : Time) ≤ t.now ∧ SameFlash s t
      ∧ t.seq = { busy := false, op := .readByte, addr := a, wdata := x, upc := 8, rdata := t.seq.rdata }
      ∧ t.cfg = s.cfg ∧ t.fe = s.fe ∧ t.issue = s.issue
      ∧ (s.timer = { cnt := 0, run := false, exp := false } → t.timer = { cnt := 0, run := false, exp := false })
      ∧ (s.cfg.tAcc ≤ (s.cfg.tReadSettle.toNat : Time) → s.chip.tAddr ≤ s.now →
          s.chip.busyUntil ≤ s.now + (s.cfg.tReadSettle.toNat : Time) →
          t.seq.rdata = s.chip.mem.read a)

/-- R145(a), R145(e), R132: the events of READBYTE, in order: no `We(0)`, and the one `Sample`, of the value returned,
between `Re(0)` and `Re(1)` after the whole settle wait. -/
def Obligations.ReadByteTraceNeverAssertsWriteEnable : Prop :=
  ∀ (a : U16) (x : Byte) (s t : State), s.seq.busy = false → s.weN = true → exec (.readByte a x) s = .next t →
    t.events = s.events ++ [.re true, .we true, .mode .read, .addrHi (a.extractLsb' 8 8), .addrLo (a.extractLsb' 0 8),
      .re false, .waitBegin s.cfg.tReadSettle, .waitEnd s.cfg.tReadSettle, .sample t.seq.rdata, .re true]

/-- R133, R136, R137: WRITEBYTE completes and programs the cell from a state that is `OperationReady`: both lines idle,
no operation running, the recogniser idle, `T_WP ≤ T_WE_HOLD`, and the chip free by the earliest end of the first hold,
`F_BUSY_UNTIL ≤ now + T_WE_HOLD`.  The cell reads
`old & b`, every other cell as before; Write mode, the address on the pins, `DOUT` zero, both lines high, recogniser
idle, the chip busy until `T_BP` after the payload edge, which is the operation's end, and the clock at least
`4 * T_WE_HOLD + T_PROG_SETTLE` later.
(What the latches hold afterwards is log entry 17.) -/
def Obligations.WriteByteProgramsTheCell : Prop :=
  ∀ (b : Byte) (a : U16) (s : State), OperationReady s → s.chip.mem.wf = true →
    ∃ t, exec (.writeByte b a) s = .next t
      ∧ t.chip.mem.read a = s.chip.mem.read a &&& b ∧ (∀ c, c ≠ a → t.chip.mem.read c = s.chip.mem.read c)
      ∧ t.mode = .write ∧ t.addrPins = a ∧ t.dout = 0 ∧ t.reN = true ∧ t.weN = true ∧ t.unrelC = s.unrelC
      ∧ t.chip.cmd = .idle ∧ t.chip.busyUntil = t.now + s.cfg.tBp
      ∧ s.now + (4 * (s.cfg.tWeHold.toNat : Time) + (s.cfg.tProgSettle.toNat : Time)) ≤ t.now
      ∧ t.seq = { busy := false, op := .writeByte, addr := a, wdata := b, upc := 26, rdata := s.seq.rdata }
      ∧ t.cfg = s.cfg ∧ t.fe = s.fe ∧ t.issue = s.issue
      ∧ (s.timer = { cnt := 0, run := false, exp := false } → t.timer = { cnt := 0, run := false, exp := false })

/-- R133, R142, R145: the events of a WRITEBYTE that completes from a state that is `OperationReady` (lines, sequencer and
recogniser idle, `T_WP ≤ T_WE_HOLD`, the chip free by the end of the first hold), in order: the three unlock pulses, the wait of `T_PROG_SETTLE` strictly
between them and the payload pulse, and the clearing of the data half. -/
def Obligations.WriteByteTraceIsUnlockWaitPayload : Prop :=
  ∀ (b : Byte) (a : U16) (s t : State), OperationReady s → exec (.writeByte b a) s = .next t →
    t.events = s.events ++ pulseTrace s.cfg.tWeHold 0x5555 0xAA ++ pulseTrace s.cfg.tWeHold 0x2AAA 0x55
      ++ pulseTrace s.cfg.tWeHold 0x5555 0xA0 ++ [.waitBegin s.cfg.tProgSettle, .waitEnd s.cfg.tProgSettle]
      ++ pulseTrace s.cfg.tWeHold a b ++ [.data 0x00]

/-- R134, R136, R137: ERASECHIP completes and every cell reads 0xFF from a state that is `OperationReady`: both lines idle,
no operation running, the recogniser idle, `T_WP ≤ T_WE_HOLD`, and the chip free by the earliest end of the first hold,
`F_BUSY_UNTIL ≤ now + T_WE_HOLD`.  It leaves Write mode,
0x5555 on the address pins, `DOUT` 0x10, both lines high, recogniser idle; if `T_ERASE_WAIT` covers `T_SCE` the chip is
idle again; the clock is at least `6 * T_WE_HOLD + T_ERASE_WAIT` later.
(What the latches hold afterwards is log entry 17.) -/
def Obligations.EraseChipErasesEveryCell : Prop :=
  ∀ (a : U16) (x : Byte) (s : State), OperationReady s →
    ∃ t, exec (.eraseChip a x) s = .next t
      ∧ (∀ c, t.chip.mem.read c = 0xFF)
      ∧ t.mode = .write ∧ t.addrPins = 0x5555 ∧ t.dout = 0x10 ∧ t.reN = true ∧ t.weN = true ∧ t.unrelC = s.unrelC
      ∧ t.chip.cmd = .idle ∧ (s.cfg.tSce ≤ (s.cfg.tEraseWait.toNat : Time) → t.chip.busyUntil ≤ t.now)
      ∧ s.now + (6 * (s.cfg.tWeHold.toNat : Time) + (s.cfg.tEraseWait.toNat : Time)) ≤ t.now
      ∧ t.seq = { busy := false, op := .eraseChip, addr := a, wdata := x, upc := 37, rdata := s.seq.rdata }
      ∧ t.cfg = s.cfg ∧ t.fe = s.fe ∧ t.issue = s.issue
      ∧ (s.timer = { cnt := 0, run := false, exp := false } → t.timer = { cnt := 0, run := false, exp := false })

/-- R134, R143: the events of an ERASECHIP that completes from a state that is `OperationReady` (lines, sequencer and
recogniser idle, `T_WP ≤ T_WE_HOLD`, the chip free by the end of the first hold): exactly the six pulses in the documented order, then the erase wait. -/
def Obligations.EraseChipTraceIsSixPulsesAndAWait : Prop :=
  ∀ (a : U16) (x : Byte) (s t : State), OperationReady s → exec (.eraseChip a x) s = .next t →
    t.events = s.events ++ pulseTrace s.cfg.tWeHold 0x5555 0xAA ++ pulseTrace s.cfg.tWeHold 0x2AAA 0x55
      ++ pulseTrace s.cfg.tWeHold 0x5555 0x80 ++ pulseTrace s.cfg.tWeHold 0x5555 0xAA
      ++ pulseTrace s.cfg.tWeHold 0x2AAA 0x55 ++ pulseTrace s.cfg.tWeHold 0x5555 0x10
      ++ [.waitBegin s.cfg.tEraseWait, .waitEnd s.cfg.tEraseWait]

/-- R213: started quiescent, with any mode, address, data, recogniser state, parameters and timing, no device operation
raises `BusContention` or has both lines low: the only fault it can meet is the chip's refusal of a write cycle's
timing, raised when WE# is released; and one that completes leaves both lines idle.  READBYTE alone also recovers from
any lines that are not both low: from a low RE# it completes, and from a low WE# it completes or meets the chip's refusal
of the write cycle it ends.  (A write bus cycle open in Read mode is no reachable state: the invariant every step
keeps rules it out.) -/
def Obligations.DeviceOperationsRaiseNoBusHazard : Prop :=
  (∀ (op : SeqOp) (a : U16) (b : Byte) (s : State), Quiescent s →
    (∃ t, exec (opInstr op a b) s = .next t ∧ LinesIdle t ∧ t.seq.busy = false)
      ∨ (∃ time, exec (opInstr op a b) s = .fault (.chipUndefined (.uop (.setWe false)) time)))
    ∧ (∀ (a : U16) (x : Byte) (s : State), s.seq.busy = false → ¬ (s.reN = false ∧ s.weN = false) →
      ¬ (s.weN = false ∧ s.mode = .read) →
      (∃ t, exec (.readByte a x) s = .next t ∧ LinesIdle t ∧ t.seq.busy = false)
        ∨ (s.weN = false ∧ exec (.readByte a x) s = .fault (.chipUndefined (.uop (.setWe false)) s.now)))

/-- R130, R140: an operation executed as one instruction is the same as accepting its request and letting the machine
step it through its micro-program, one micro-operation a step, to the step that clears `SEQ_BUSY`; in particular every
operation ends.
(The two views are log entry 20.) -/
def Obligations.OperationIsItsStepsThroughTheSequencer : Prop :=
  ∀ (op : SeqOp) (a : U16) (b : Byte) (s : State), s.seq.busy = false → s.fe.dsp ≠ .halted →
    exec (opInstr op a b) s =
      Host.Core.run Sys2Proof.core ((microProgram s.cfg op a b).length + 1)
        { s with seq := { s.seq with busy := true, op := op, addr := a, wdata := b, upc := 0 } }

/-- R130: a request made while an operation runs is held: it executes as it would after the running operation has been
stepped to its end; it is never dropped and never interleaved. -/
def Obligations.RequestWhileBusyIsHeld : Prop :=
  ∀ (op : SeqOp) (a : U16) (b : Byte) (s t : State), s.fe.dsp ≠ .halted → s.seq.busy = true →
    s.seq.upc ≤ (microProgram s.cfg s.seq.op s.seq.addr s.seq.wdata).length →
    Host.Core.run Sys2Proof.core ((microProgram s.cfg s.seq.op s.seq.addr s.seq.wdata).length - s.seq.upc + 1) s
      = .next t →
    t.seq.busy = false ∧ exec (opInstr op a b) s = exec (opInstr op a b) t

/-! ### Host commands -/

/-- R152: the two handshake procedures complete: `UART_OK!` to the good probe, `UNRECOG?` to any other, `Command` after
either, and no bus state, no flash, no time touched. -/
def Obligations.HandshakeAnswersAndEntersTheLoop : Prop :=
  ∀ (i : Instr) (reply : List Byte) (s : State),
    (i = .handshake ∧ reply = [0x55, 0x41, 0x52, 0x54, 0x5F, 0x4F, 0x4B, 0x21])
      ∨ ((∃ p, i = .handshakeBadProbe p) ∧ reply = [0x55, 0x4E, 0x52, 0x45, 0x43, 0x4F, 0x47, 0x3F]) →
    ∃ t, exec i s = .next t ∧ t.fe = { s.fe with dsp := .command, tx := s.fe.tx ++ reply }
      ∧ t.trace = s.trace ++ [⟨s.now, .tx reply⟩]
      ∧ SamePorts s t ∧ t.chip = s.chip ∧ SameTime s t ∧ t.cfg = s.cfg ∧ t.seq = s.seq ∧ t.issue = s.issue

/-- R152, R206: the first eight bytes after reset are the probe, whatever they are: one step consumes them, answers
`UART_OK!` exactly if all eight are `UART_OK?`, and enters the command loop. -/
def Obligations.FirstEightBytesAreTheProbe : Prop :=
  ∀ (s : State) (p rest : List Byte), p.length = 8 → s.fe.dsp = .handshake → s.fe.writPending = false →
    s.fe.rx = p ++ rest → s.seq.busy = false → s.issue = [] →
    ∃ t, step s = .next t ∧ t.fe.dsp = .command ∧ t.fe.rx = rest
      ∧ t.fe.tx = s.fe.tx ++
        (if p = [0x55, 0x41, 0x52, 0x54, 0x5F, 0x4F, 0x4B, 0x3F]
          then [0x55, 0x41, 0x52, 0x54, 0x5F, 0x4F, 0x4B, 0x21]
          else [0x55, 0x4E, 0x52, 0x45, 0x43, 0x4F, 0x47, 0x3F])
      ∧ SamePorts s t ∧ t.chip = s.chip

/-- R154, R136: READ with WE# high and an idle sequencer completes: it performs READBYTE at `FIXED_ADDR`, sends the
`HEXBUF_LEN` bytes of HEXBUF of the value read and then `OK!`; the value is the array byte under READBYTE's premises; flash and
`RX` are untouched. -/
def Obligations.ReadSendsTheHexbufAndOk : Prop :=
  ∀ s : State, s.seq.busy = false → s.weN = true →
    ∃ t, exec .read s = .next t
      ∧ t.fe = { s.fe with tx := s.fe.tx ++ hexbuf s.cfg.hexbufLen t.seq.rdata ++ [0x4F, 0x4B, 0x21] }
      ∧ t.addrPins = s.cfg.fixedAddr ∧ t.mode = .read ∧ t.reN = true ∧ t.weN = true ∧ t.dout = s.dout
      ∧ t.unrelC = s.unrelC ∧ SameFlash s t
      ∧ s.now + (s.cfg.tReadSettle.toNat : Time) ≤ t.now ∧ t.cfg = s.cfg ∧ t.issue = s.issue
      ∧ (s.timer = { cnt := 0, run := false, exp := false } → t.timer = { cnt := 0, run := false, exp := false })
      ∧ (s.cfg.tAcc ≤ (s.cfg.tReadSettle.toNat : Time) → s.chip.tAddr ≤ s.now →
          s.chip.busyUntil ≤ s.now + (s.cfg.tReadSettle.toNat : Time) →
          t.seq.rdata = s.chip.mem.read s.cfg.fixedAddr)

/-- R85, R4: HEXBUF is `HEXBUF_LEN` bytes, 32 in the reference: the two nibbles in lowercase hexadecimal ASCII, high
nibble first, then 0x00, thirty of them in the reference.  (That a buffer of fewer than two bytes would hold the first of
them is the model's choice, log entry 1.) -/
def Obligations.HexbufIsTwoLowercaseDigitsThenZeros : Prop :=
  Config.reference.hexbufLen = 32
    ∧ ∀ (len : Nat) (v : Byte), (hexbuf len v).length = len
      ∧ (2 ≤ len → ∃ h l : Byte, hexbuf len v = h :: l :: List.replicate (len - 2) 0x00
        ∧ h.toNat = (if v.toNat / 16 < 10 then 0x30 + v.toNat / 16 else 0x57 + v.toNat / 16)
        ∧ l.toNat = (if v.toNat % 16 < 10 then 0x30 + v.toNat % 16 else 0x57 + v.toNat % 16))

/-- R83: an operand is accepted exactly if it is three ASCII digits whose decimal value, hundreds first, is at most 255,
and then that is its value; every other byte sequence is a decode failure. -/
def Obligations.OperandIsThreeDigitsUpTo255 : Prop :=
  ∀ (bytes : List Byte) (v : Byte),
    parseD3 bytes = some v ↔
      ∃ b0 b1 b2 : Byte, bytes = [b0, b1, b2]
        ∧ (0x30 ≤ b0.toNat ∧ b0.toNat ≤ 0x39) ∧ (0x30 ≤ b1.toNat ∧ b1.toNat ≤ 0x39)
        ∧ (0x30 ≤ b2.toNat ∧ b2.toNat ≤ 0x39)
        ∧ v.toNat = 100 * (b0.toNat - 0x30) + 10 * (b1.toNat - 0x30) + (b2.toNat - 0x30)

/-- R155: WRIT whose three operand bytes are there and valid completes from a state that is `OperationReady`: both lines
idle, no operation running, the recogniser idle, `T_WP ≤ T_WE_HOLD`, and the chip free by the earliest end of the first
hold, `F_BUSY_UNTIL ≤ now + T_WE_HOLD`.  It sends `got write`, then performs WRITEBYTE of the operand's
value at `FIXED_ADDR`, then sends `OK!`; the operand is consumed. -/
def Obligations.WritProgramsTheFixedAddress : Prop :=
  ∀ (s : State) (operand rest : List Byte) (b : Byte), OperationReady s → s.chip.mem.wf = true →
    operand.length = 3 → parseD3 operand = some b → s.fe.rx = operand ++ rest →
    ∃ t, exec .writ s = .next t
      ∧ t.fe = { s.fe with
          writPending := false
          rx := rest
          tx := s.fe.tx ++ [0x67, 0x6F, 0x74, 0x20, 0x77, 0x72, 0x69, 0x74, 0x65] ++ [0x4F, 0x4B, 0x21] }
      ∧ t.chip.mem.read s.cfg.fixedAddr = s.chip.mem.read s.cfg.fixedAddr &&& b
      ∧ (∀ c, c ≠ s.cfg.fixedAddr → t.chip.mem.read c = s.chip.mem.read c)
      ∧ t.mode = .write ∧ t.addrPins = s.cfg.fixedAddr ∧ t.dout = 0 ∧ t.reN = true ∧ t.weN = true
      ∧ t.unrelC = s.unrelC ∧ t.chip.cmd = .idle ∧ t.cfg = s.cfg ∧ t.issue = s.issue ∧ t.seq.rdata = s.seq.rdata
      ∧ (s.timer = { cnt := 0, run := false, exp := false } → t.timer = { cnt := 0, run := false, exp := false })

/-- R155, R150: `got write` is sent before the operand is read.  With fewer than three bytes there, WRIT sends it and
waits; while it waits and fewer than three bytes are there, a step changes nothing; when the host has sent the rest, the
next step of the front end ends WRIT as if the bytes had been there.  (That the wait is a field of the state is the
model's choice, log entry 10; that a blocked step answers the same state is log entry 21.) -/
def Obligations.WritHoldsUntilItsOperandArrives : Prop :=
  (∀ s : State, s.fe.rx.length < 3 →
    ∃ t, exec .writ s = .next t
      ∧ t.fe = { s.fe with
          writPending := true
          tx := s.fe.tx ++ [0x67, 0x6F, 0x74, 0x20, 0x77, 0x72, 0x69, 0x74, 0x65] }
      ∧ SamePorts s t ∧ t.chip = s.chip ∧ SameTime s t ∧ t.cfg = s.cfg ∧ t.seq = s.seq ∧ t.issue = s.issue)
    ∧ (∀ s : State, s.fe.dsp = .command → s.fe.writPending = true → s.seq.busy = false → s.issue = [] →
      s.fe.rx.length < 3 → step s = .next s)
    ∧ (∀ (s t : State) (bytes : List Byte), s.fe.dsp = .command → s.fe.writPending = false → s.seq.busy = false →
      s.issue = [] → s.fe.rx.length < 3 → 3 ≤ (s.fe.rx ++ bytes).length → exec .writ s = .next t →
      step (t.hostSend bytes) = exec .writ (s.hostSend bytes))

/-- R159, R181, R191: a malformed operand is a decode failure, after `got write` and before any bus activity: under
`halt` the front end is `Halted` and nothing more is sent; under `reply_and_resume` `UNRECOG?` is sent and the loop goes
on.  Ports, chip, timer and clock are untouched either way. -/
def Obligations.MalformedOperandFailsBeforeTheBus : Prop :=
  ∀ (s : State) (operand rest : List Byte), operand.length = 3 → parseD3 operand = none →
    s.fe.rx = operand ++ rest →
    ∃ t, exec .writ s = .next t
      ∧ (s.cfg.decodeFailPolicy = .halt →
          t.fe = { s.fe with
            dsp := .halted
            writPending := false
            rx := rest
            tx := s.fe.tx ++ [0x67, 0x6F, 0x74, 0x20, 0x77, 0x72, 0x69, 0x74, 0x65] })
      ∧ (s.cfg.decodeFailPolicy = .replyAndResume →
          t.fe = { s.fe with
            writPending := false
            rx := rest
            tx := s.fe.tx ++ [0x67, 0x6F, 0x74, 0x20, 0x77, 0x72, 0x69, 0x74, 0x65]
              ++ [0x55, 0x4E, 0x52, 0x45, 0x43, 0x4F, 0x47, 0x3F] })
      ∧ SamePorts s t ∧ t.chip = s.chip ∧ SameTime s t ∧ t.cfg = s.cfg ∧ t.seq = s.seq ∧ t.issue = s.issue

/-- R160, R192, R202: a halted device takes no step, whatever the host sends; a controller reset is refused while a
sequence is in progress, and otherwise leaves the state of a power-on reset with the flash contents kept.  (A recogniser
outside `Idle` counts as a sequence in progress, log entry 22; the fault of a halted device, log entry 21.  The model's own
choices, which R202 does not make: a reset with WE# low drops the open hand-issued write cycle and the chip latches nothing,
log entry 26; issued words that still wait are dropped, log entry 27; the values `State.powerOn` gives where R200 gives none,
log entry 4.) -/
def Obligations.OnlyResetLeavesHalted : Prop :=
  (∀ (s : State) (bytes : List Byte), s.fe.dsp = .halted → step (s.hostSend bytes) = .fault .halted)
    ∧ (∀ s : State, s.seq.busy = true ∨ s.chip.cmd ≠ .idle → controllerReset s = .refused .resetInProgress)
    ∧ (∀ s : State, s.seq.busy = false → s.chip.cmd = .idle →
      controllerReset s = .next (State.powerOn s.cfg s.chip.mem)
        ∧ (State.powerOn s.cfg s.chip.mem).fe.dsp = .handshake
        ∧ ∀ a, (State.powerOn s.cfg s.chip.mem).chip.mem.read a = s.chip.mem.read a)

/-- R156: ERAS completes from a state that is `OperationReady`: both lines idle, no operation running, the recogniser idle,
`T_WP ≤ T_WE_HOLD`, and the chip free by the earliest end of the first hold, `F_BUSY_UNTIL ≤ now + T_WE_HOLD`.  It
performs ERASECHIP, then sends `OK!`. -/
def Obligations.ErasErasesAndAnswersOk : Prop :=
  ∀ s : State, OperationReady s →
    ∃ t, exec .eras s = .next t ∧ t.fe = { s.fe with tx := s.fe.tx ++ [0x4F, 0x4B, 0x21] }
      ∧ (∀ c, t.chip.mem.read c = 0xFF) ∧ t.chip.cmd = .idle
      ∧ (s.cfg.tSce ≤ (s.cfg.tEraseWait.toNat : Time) → t.chip.busyUntil ≤ t.now)
      ∧ s.now + (6 * (s.cfg.tWeHold.toNat : Time) + (s.cfg.tEraseWait.toNat : Time)) ≤ t.now
      ∧ t.mode = .write ∧ t.addrPins = 0x5555 ∧ t.dout = 0x10 ∧ t.reN = true ∧ t.weN = true
      ∧ t.unrelC = s.unrelC ∧ t.cfg = s.cfg ∧ t.issue = s.issue ∧ t.seq.rdata = s.seq.rdata
      ∧ (s.timer = { cnt := 0, run := false, exp := false } → t.timer = { cnt := 0, run := false, exp := false })

/-- R158: an unknown token under `ignore` leaves the state as it is; under `reply_unrecog` it sends `UNRECOG?` and
changes nothing else. -/
def Obligations.UnknownTokenIsIgnoredOrAnswered : Prop :=
  ∀ (tok : BitVec 32) (s : State),
    (s.cfg.unrecogPolicy = .ignore → exec (.cmdUnrecog tok) s = .next s)
    ∧ (s.cfg.unrecogPolicy = .replyUnrecog →
      ∃ t, exec (.cmdUnrecog tok) s = .next t
        ∧ t.fe = { s.fe with tx := s.fe.tx ++ [0x55, 0x4E, 0x52, 0x45, 0x43, 0x4F, 0x47, 0x3F] }
        ∧ t.trace = s.trace ++ [⟨s.now, .tx [0x55, 0x4E, 0x52, 0x45, 0x43, 0x4F, 0x47, 0x3F]⟩]
        ∧ SamePorts s t ∧ t.chip = s.chip ∧ SameTime s t ∧ t.cfg = s.cfg ∧ t.seq = s.seq ∧ t.issue = s.issue)

/-! ### The whole machine -/

/-- R168, R161: from a state in which WRIT waits for its operand only in `Command` (an invariant of every step), the
front end moves from `Handshake` to `Command` only, and from `Command` only to `Halted`, and there only by a malformed
operand under `halt`, with ports and chip as they were; no step leaves `Halted`.  (Where WRIT stands while it waits is a
field of the state, log entry 10; that a step of a halted device is a fault is log entry 21.) -/
def Obligations.FrontEndFollowsItsStateMachine : Prop :=
  ∀ s t : State, (s.fe.writPending = true → s.fe.dsp = .command) → step s = .next t →
    (s.fe.dsp = .handshake → t.fe.dsp = .handshake ∨ t.fe.dsp = .command)
      ∧ (s.fe.dsp = .command → t.fe.dsp = .command
        ∨ (t.fe.dsp = .halted ∧ s.cfg.decodeFailPolicy = .halt ∧ SamePorts s t ∧ t.chip = s.chip
          ∧ ∃ token operand : List Byte, s.fe.rx = token ++ operand ++ t.fe.rx ∧ operand.length = 3
            ∧ parseD3 operand = none
            ∧ token = if s.fe.writPending then [] else [0x57, 0x52, 0x49, 0x54]))
      ∧ s.fe.dsp ≠ .halted

/-- Every step, whatever it runs (an issued word of any layer, a token, a step of a running operation), keeps the
invariant: the flash array in canonical form, never both lines low, never two drivers on DQ, no write bus cycle open in
Read mode (log entry 8), the timer at rest, the stamps behind the clock, `SEQ_UPC` in range. -/
def Obligations.EveryStepKeepsTheInvariant : Prop :=
  ∀ s t : State, Inv s → step s = .next t → Inv t

/-- R11 and R4: no step changes the unrelated bits of port C or a parameter. -/
def Obligations.UnrelatedBitsAndParametersNeverChange : Prop :=
  ∀ s t : State, step s = .next t → t.unrelC = s.unrelC ∧ t.cfg = s.cfg

/-- R26, R27, R150: in every step the clock does not go back, the trace only grows, nothing already sent is taken back,
and `RX` only loses bytes from its front. -/
def Obligations.ClockTraceAndStreamsOnlyGrow : Prop :=
  ∀ s t : State, step s = .next t →
    s.now ≤ t.now ∧ (∃ es, t.trace = s.trace ++ es) ∧ (∃ bytes, t.fe.tx = s.fe.tx ++ bytes)
      ∧ (∃ bytes, s.fe.rx = bytes ++ t.fe.rx)

/-- R213, R216, R5: on a board whose parameters meet R5, a device driven through its front end alone never faults and
never refuses: whatever bytes the host sends and whenever, however long every wait lasts and whatever the flash holds,
after any number of steps the device is quiescent with an idle recogniser and at most a byte program pending, or it is
stuck in `Halted` after a malformed operand.
(The lossless stream is log entry 16, the fault of a halted device log entry 21.) -/
def Obligations.HostSessionNeverMeetsAHazard : Prop :=
  ∀ (host : List (List Byte)) (s : State), Session s →
    (∃ t, sessionRun host s = .next t ∧ Session t) ∨ sessionRun host s = .fault .halted

/-- R216, R58, R137: back to back, on a board whose parameters meet R5, WRITEBYTE then READBYTE of the same address
returns `old & b`, and a second WRITEBYTE in between at another address does not matter. -/
def Obligations.WriteThenReadReturnsOldAndNew : Prop :=
  ∀ (a a' : U16) (b b' x : Byte) (s : State), OperationReady s → s.chip.mem.wf = true → s.cfg.Meets →
    s.chip.tAddr ≤ s.now → a' ≠ a →
    (∃ t, execAll [.writeByte b a, .readByte a x] s = .next t ∧ t.seq.rdata = s.chip.mem.read a &&& b)
      ∧ (∃ t, execAll [.writeByte b a, .writeByte b' a', .readByte a x] s = .next t
        ∧ t.seq.rdata = s.chip.mem.read a &&& b)

/-- The host's session of R154 to R156 as a whole: on a board whose parameters meet R5, ERAS, then WRIT of any byte, then
READ, answers the byte written, in hexadecimal, whatever the flash held before.  (It executes the three commands by
`exec`, not by `step`, so `DSP_STATE` is not looked at, log entry 23.) -/
def Obligations.EraseWriteReadAnswersTheByteWritten : Prop :=
  ∀ (s : State) (operand : List Byte) (b : Byte), Session s → s.chip.mem.wf = true → operand.length = 3 →
    parseD3 operand = some b → s.fe.rx = operand →
    ∃ t, execAll [.eras, .writ, .read] s = .next t
      ∧ t.fe.tx = s.fe.tx ++ [0x4F, 0x4B, 0x21]
        ++ [0x67, 0x6F, 0x74, 0x20, 0x77, 0x72, 0x69, 0x74, 0x65] ++ [0x4F, 0x4B, 0x21]
        ++ hexbuf s.cfg.hexbufLen b ++ [0x4F, 0x4B, 0x21]
      ∧ t.fe.rx = [] ∧ (∀ c, c ≠ s.cfg.fixedAddr → t.chip.mem.read c = 0xFF) ∧ Session t

/-- R132, R137, R213 (last sentence): READBYTE asks nothing of the lines.  From a write bus cycle that is open (WE# low,
RE# high, Write mode) it first ends that cycle by its SETWE 0: a cycle whose low phase has lasted `T_WP`, on a chip that is
not busy, is delivered exactly as the same bus word would be (R50, R52), and READBYTE goes on and reads the array as the
cycle left it, under its own timing premises; a cycle that is too short or untimely faults there.  (What the latches hold
afterwards, `SEQ_UPC` = 8 among them, is log entry 17.) -/
def Obligations.ReadByteFromLowWriteEnableEndsTheCycle : Prop :=
  ∀ (a : U16) (x : Byte) (s : State), s.seq.busy = false → s.weN = false → s.reN = true → s.mode = .write →
    (s.chip.tWe + s.cfg.tWp ≤ s.now → s.chip.busyUntil ≤ s.now →
      ∃ t r, exec (.readByte a x) s = .next t ∧ exec (.payload s.addrPins s.dout) s = .next r
        ∧ t.chip.mem = r.chip.mem ∧ t.chip.cmd = r.chip.cmd ∧ t.chip.busyUntil = r.chip.busyUntil
        ∧ t.mode = .read ∧ t.addrPins = a ∧ t.reN = true ∧ t.weN = true ∧ t.dout = s.dout ∧ t.unrelC = s.unrelC
        ∧ s.now + (s.cfg.tReadSettle.toNat : Time) ≤ t.now
        ∧ t.seq = { busy := false, op := .readByte, addr := a, wdata := x, upc := 8, rdata := t.seq.rdata }
        ∧ t.cfg = s.cfg ∧ t.fe = s.fe ∧ t.issue = s.issue
        ∧ (s.timer = { cnt := 0, run := false, exp := false } → t.timer = { cnt := 0, run := false, exp := false })
        ∧ (s.cfg.tAcc ≤ (s.cfg.tReadSettle.toNat : Time) → s.chip.tAddr ≤ s.now →
            r.chip.busyUntil ≤ s.now + (s.cfg.tReadSettle.toNat : Time) →
            t.seq.rdata = r.chip.mem.read a))
    ∧ (s.now < s.chip.tWe + s.cfg.tWp ∨ s.now < s.chip.busyUntil →
      exec (.readByte a x) s = .fault (.chipUndefined (.uop (.setWe false)) s.now))
end

