-- ==== Sys2Proof/Laws/State.lean ====
section
/-! SUPPORT. One lemma per field per update of the state, true by unfolding, so that no later proof unfolds a record
update. -/

namespace Sys2Proof.Machine

/-! ### `State.emit` -/

@[simp] theorem State.emit_cfg (s : State) (e : Event) : (s.emit e).cfg = s.cfg := rfl
@[simp] theorem State.emit_outC (s : State) (e : Event) : (s.emit e).outC = s.outC := rfl
@[simp] theorem State.emit_outS (s : State) (e : Event) : (s.emit e).outS = s.outS := rfl
@[simp] theorem State.emit_mode (s : State) (e : Event) : (s.emit e).mode = s.mode := rfl
@[simp] theorem State.emit_timer (s : State) (e : Event) : (s.emit e).timer = s.timer := rfl
@[simp] theorem State.emit_seq (s : State) (e : Event) : (s.emit e).seq = s.seq := rfl
@[simp] theorem State.emit_fe (s : State) (e : Event) : (s.emit e).fe = s.fe := rfl
@[simp] theorem State.emit_chip (s : State) (e : Event) : (s.emit e).chip = s.chip := rfl
@[simp] theorem State.emit_now (s : State) (e : Event) : (s.emit e).now = s.now := rfl
@[simp] theorem State.emit_trace (s : State) (e : Event) : (s.emit e).trace = s.trace ++ [⟨s.now, e⟩] := rfl
@[simp] theorem State.emit_draws (s : State) (e : Event) : (s.emit e).draws = s.draws := rfl
@[simp] theorem State.emit_issue (s : State) (e : Event) : (s.emit e).issue = s.issue := rfl

/-! ### `State.setAh` -/

@[simp] theorem State.setAh_cfg (s : State) (v : Byte) : (s.setAh v).cfg = s.cfg := rfl
@[simp] theorem State.setAh_outC (s : State) (v : Byte) : (s.setAh v).outC = setField s.outC s.cfg.place.ahLsb v := rfl
@[simp] theorem State.setAh_outS (s : State) (v : Byte) : (s.setAh v).outS = s.outS := rfl
@[simp] theorem State.setAh_mode (s : State) (v : Byte) : (s.setAh v).mode = s.mode := rfl
@[simp] theorem State.setAh_timer (s : State) (v : Byte) : (s.setAh v).timer = s.timer := rfl
@[simp] theorem State.setAh_seq (s : State) (v : Byte) : (s.setAh v).seq = s.seq := rfl
@[simp] theorem State.setAh_fe (s : State) (v : Byte) : (s.setAh v).fe = s.fe := rfl
@[simp] theorem State.setAh_chip (s : State) (v : Byte) : (s.setAh v).chip = s.chip := rfl
@[simp] theorem State.setAh_now (s : State) (v : Byte) : (s.setAh v).now = s.now := rfl
@[simp] theorem State.setAh_trace (s : State) (v : Byte) : (s.setAh v).trace = s.trace := rfl
@[simp] theorem State.setAh_draws (s : State) (v : Byte) : (s.setAh v).draws = s.draws := rfl
@[simp] theorem State.setAh_issue (s : State) (v : Byte) : (s.setAh v).issue = s.issue := rfl

/-! ### `State.setReN` -/

@[simp] theorem State.setReN_cfg (s : State) (l : Bool) : (s.setReN l).cfg = s.cfg := rfl
@[simp] theorem State.setReN_outC (s : State) (l : Bool) : (s.setReN l).outC = setField s.outC s.cfg.place.reBit (BitVec.ofBool l) := rfl
@[simp] theorem State.setReN_outS (s : State) (l : Bool) : (s.setReN l).outS = s.outS := rfl
@[simp] theorem State.setReN_mode (s : State) (l : Bool) : (s.setReN l).mode = s.mode := rfl
@[simp] theorem State.setReN_timer (s : State) (l : Bool) : (s.setReN l).timer = s.timer := rfl
@[simp] theorem State.setReN_seq (s : State) (l : Bool) : (s.setReN l).seq = s.seq := rfl
@[simp] theorem State.setReN_fe (s : State) (l : Bool) : (s.setReN l).fe = s.fe := rfl
@[simp] theorem State.setReN_chip (s : State) (l : Bool) : (s.setReN l).chip = s.chip := rfl
@[simp] theorem State.setReN_now (s : State) (l : Bool) : (s.setReN l).now = s.now := rfl
@[simp] theorem State.setReN_trace (s : State) (l : Bool) : (s.setReN l).trace = s.trace := rfl
@[simp] theorem State.setReN_draws (s : State) (l : Bool) : (s.setReN l).draws = s.draws := rfl
@[simp] theorem State.setReN_issue (s : State) (l : Bool) : (s.setReN l).issue = s.issue := rfl

/-! ### `State.setWeN` -/

@[simp] theorem State.setWeN_cfg (s : State) (l : Bool) : (s.setWeN l).cfg = s.cfg := rfl
@[simp] theorem State.setWeN_outC (s : State) (l : Bool) : (s.setWeN l).outC = setField s.outC s.cfg.place.weBit (BitVec.ofBool l) := rfl
@[simp] theorem State.setWeN_outS (s : State) (l : Bool) : (s.setWeN l).outS = s.outS := rfl
@[simp] theorem State.setWeN_mode (s : State) (l : Bool) : (s.setWeN l).mode = s.mode := rfl
@[simp] theorem State.setWeN_timer (s : State) (l : Bool) : (s.setWeN l).timer = s.timer := rfl
@[simp] theorem State.setWeN_seq (s : State) (l : Bool) : (s.setWeN l).seq = s.seq := rfl
@[simp] theorem State.setWeN_fe (s : State) (l : Bool) : (s.setWeN l).fe = s.fe := rfl
@[simp] theorem State.setWeN_chip (s : State) (l : Bool) : (s.setWeN l).chip = s.chip := rfl
@[simp] theorem State.setWeN_now (s : State) (l : Bool) : (s.setWeN l).now = s.now := rfl
@[simp] theorem State.setWeN_trace (s : State) (l : Bool) : (s.setWeN l).trace = s.trace := rfl
@[simp] theorem State.setWeN_draws (s : State) (l : Bool) : (s.setWeN l).draws = s.draws := rfl
@[simp] theorem State.setWeN_issue (s : State) (l : Bool) : (s.setWeN l).issue = s.issue := rfl

/-! ### `State.setAl` -/

@[simp] theorem State.setAl_cfg (s : State) (v : Byte) : (s.setAl v).cfg = s.cfg := rfl
@[simp] theorem State.setAl_outC (s : State) (v : Byte) : (s.setAl v).outC = s.outC := rfl
@[simp] theorem State.setAl_outS (s : State) (v : Byte) : (s.setAl v).outS = setField s.outS Config.alLsb v := rfl
@[simp] theorem State.setAl_mode (s : State) (v : Byte) : (s.setAl v).mode = s.mode := rfl
@[simp] theorem State.setAl_timer (s : State) (v : Byte) : (s.setAl v).timer = s.timer := rfl
@[simp] theorem State.setAl_seq (s : State) (v : Byte) : (s.setAl v).seq = s.seq := rfl
@[simp] theorem State.setAl_fe (s : State) (v : Byte) : (s.setAl v).fe = s.fe := rfl
@[simp] theorem State.setAl_chip (s : State) (v : Byte) : (s.setAl v).chip = s.chip := rfl
@[simp] theorem State.setAl_now (s : State) (v : Byte) : (s.setAl v).now = s.now := rfl
@[simp] theorem State.setAl_trace (s : State) (v : Byte) : (s.setAl v).trace = s.trace := rfl
@[simp] theorem State.setAl_draws (s : State) (v : Byte) : (s.setAl v).draws = s.draws := rfl
@[simp] theorem State.setAl_issue (s : State) (v : Byte) : (s.setAl v).issue = s.issue := rfl

/-! ### `State.setDout` -/

@[simp] theorem State.setDout_cfg (s : State) (v : Byte) : (s.setDout v).cfg = s.cfg := rfl
@[simp] theorem State.setDout_outC (s : State) (v : Byte) : (s.setDout v).outC = s.outC := rfl
@[simp] theorem State.setDout_outS (s : State) (v : Byte) : (s.setDout v).outS = setField s.outS Config.dataLsb v := rfl
@[simp] theorem State.setDout_mode (s : State) (v : Byte) : (s.setDout v).mode = s.mode := rfl
@[simp] theorem State.setDout_timer (s : State) (v : Byte) : (s.setDout v).timer = s.timer := rfl
@[simp] theorem State.setDout_seq (s : State) (v : Byte) : (s.setDout v).seq = s.seq := rfl
@[simp] theorem State.setDout_fe (s : State) (v : Byte) : (s.setDout v).fe = s.fe := rfl
@[simp] theorem State.setDout_chip (s : State) (v : Byte) : (s.setDout v).chip = s.chip := rfl
@[simp] theorem State.setDout_now (s : State) (v : Byte) : (s.setDout v).now = s.now := rfl
@[simp] theorem State.setDout_trace (s : State) (v : Byte) : (s.setDout v).trace = s.trace := rfl
@[simp] theorem State.setDout_draws (s : State) (v : Byte) : (s.setDout v).draws = s.draws := rfl
@[simp] theorem State.setDout_issue (s : State) (v : Byte) : (s.setDout v).issue = s.issue := rfl

/-! ### `State.setCmd` -/

@[simp] theorem State.setCmd_cfg (s : State) (c : ChipCmd) : (s.setCmd c).cfg = s.cfg := rfl
@[simp] theorem State.setCmd_outC (s : State) (c : ChipCmd) : (s.setCmd c).outC = s.outC := rfl
@[simp] theorem State.setCmd_outS (s : State) (c : ChipCmd) : (s.setCmd c).outS = s.outS := rfl
@[simp] theorem State.setCmd_mode (s : State) (c : ChipCmd) : (s.setCmd c).mode = s.mode := rfl
@[simp] theorem State.setCmd_timer (s : State) (c : ChipCmd) : (s.setCmd c).timer = s.timer := rfl
@[simp] theorem State.setCmd_seq (s : State) (c : ChipCmd) : (s.setCmd c).seq = s.seq := rfl
@[simp] theorem State.setCmd_fe (s : State) (c : ChipCmd) : (s.setCmd c).fe = s.fe := rfl
@[simp] theorem State.setCmd_chip (s : State) (c : ChipCmd) : (s.setCmd c).chip = { s.chip with cmd := c } := rfl
@[simp] theorem State.setCmd_now (s : State) (c : ChipCmd) : (s.setCmd c).now = s.now := rfl
@[simp] theorem State.setCmd_trace (s : State) (c : ChipCmd) : (s.setCmd c).trace = s.trace := rfl
@[simp] theorem State.setCmd_draws (s : State) (c : ChipCmd) : (s.setCmd c).draws = s.draws := rfl
@[simp] theorem State.setCmd_issue (s : State) (c : ChipCmd) : (s.setCmd c).issue = s.issue := rfl

/-! ### `State.countDraw` -/

@[simp] theorem State.countDraw_cfg (s : State) : (s.countDraw).cfg = s.cfg := rfl
@[simp] theorem State.countDraw_outC (s : State) : (s.countDraw).outC = s.outC := rfl
@[simp] theorem State.countDraw_outS (s : State) : (s.countDraw).outS = s.outS := rfl
@[simp] theorem State.countDraw_mode (s : State) : (s.countDraw).mode = s.mode := rfl
@[simp] theorem State.countDraw_timer (s : State) : (s.countDraw).timer = s.timer := rfl
@[simp] theorem State.countDraw_seq (s : State) : (s.countDraw).seq = s.seq := rfl
@[simp] theorem State.countDraw_fe (s : State) : (s.countDraw).fe = s.fe := rfl
@[simp] theorem State.countDraw_chip (s : State) : (s.countDraw).chip = s.chip := rfl
@[simp] theorem State.countDraw_now (s : State) : (s.countDraw).now = s.now := rfl
@[simp] theorem State.countDraw_trace (s : State) : (s.countDraw).trace = s.trace := rfl
@[simp] theorem State.countDraw_draws (s : State) : (s.countDraw).draws = { s.draws with count := s.draws.count + 1 } := rfl
@[simp] theorem State.countDraw_issue (s : State) : (s.countDraw).issue = s.issue := rfl

/-! ### `State.send` -/

@[simp] theorem State.send_cfg (s : State) (bs : List Byte) : (s.send bs).cfg = s.cfg := rfl
@[simp] theorem State.send_outC (s : State) (bs : List Byte) : (s.send bs).outC = s.outC := rfl
@[simp] theorem State.send_outS (s : State) (bs : List Byte) : (s.send bs).outS = s.outS := rfl
@[simp] theorem State.send_mode (s : State) (bs : List Byte) : (s.send bs).mode = s.mode := rfl
@[simp] theorem State.send_timer (s : State) (bs : List Byte) : (s.send bs).timer = s.timer := rfl
@[simp] theorem State.send_seq (s : State) (bs : List Byte) : (s.send bs).seq = s.seq := rfl
@[simp] theorem State.send_fe (s : State) (bs : List Byte) : (s.send bs).fe = { s.fe with tx := s.fe.tx ++ bs } := rfl
@[simp] theorem State.send_chip (s : State) (bs : List Byte) : (s.send bs).chip = s.chip := rfl
@[simp] theorem State.send_now (s : State) (bs : List Byte) : (s.send bs).now = s.now := rfl
@[simp] theorem State.send_trace (s : State) (bs : List Byte) : (s.send bs).trace = s.trace ++ [⟨s.now, .tx bs⟩] := rfl
@[simp] theorem State.send_draws (s : State) (bs : List Byte) : (s.send bs).draws = s.draws := rfl
@[simp] theorem State.send_issue (s : State) (bs : List Byte) : (s.send bs).issue = s.issue := rfl

/-! ### `State.recv` -/

@[simp] theorem State.recv_cfg (s : State) (k : Nat) : (s.recv k).cfg = s.cfg := rfl
@[simp] theorem State.recv_outC (s : State) (k : Nat) : (s.recv k).outC = s.outC := rfl
@[simp] theorem State.recv_outS (s : State) (k : Nat) : (s.recv k).outS = s.outS := rfl
@[simp] theorem State.recv_mode (s : State) (k : Nat) : (s.recv k).mode = s.mode := rfl
@[simp] theorem State.recv_timer (s : State) (k : Nat) : (s.recv k).timer = s.timer := rfl
@[simp] theorem State.recv_seq (s : State) (k : Nat) : (s.recv k).seq = s.seq := rfl
@[simp] theorem State.recv_fe (s : State) (k : Nat) : (s.recv k).fe = { s.fe with rx := s.fe.rx.drop k } := rfl
@[simp] theorem State.recv_chip (s : State) (k : Nat) : (s.recv k).chip = s.chip := rfl
@[simp] theorem State.recv_now (s : State) (k : Nat) : (s.recv k).now = s.now := rfl
@[simp] theorem State.recv_trace (s : State) (k : Nat) : (s.recv k).trace = s.trace ++ [⟨s.now, .rx (s.fe.rx.take k)⟩] := rfl
@[simp] theorem State.recv_draws (s : State) (k : Nat) : (s.recv k).draws = s.draws := rfl
@[simp] theorem State.recv_issue (s : State) (k : Nat) : (s.recv k).issue = s.issue := rfl

/-! ### `State.hostSend` -/

@[simp] theorem State.hostSend_cfg (s : State) (bs : List Byte) : (s.hostSend bs).cfg = s.cfg := rfl
@[simp] theorem State.hostSend_outC (s : State) (bs : List Byte) : (s.hostSend bs).outC = s.outC := rfl
@[simp] theorem State.hostSend_outS (s : State) (bs : List Byte) : (s.hostSend bs).outS = s.outS := rfl
@[simp] theorem State.hostSend_mode (s : State) (bs : List Byte) : (s.hostSend bs).mode = s.mode := rfl
@[simp] theorem State.hostSend_timer (s : State) (bs : List Byte) : (s.hostSend bs).timer = s.timer := rfl
@[simp] theorem State.hostSend_seq (s : State) (bs : List Byte) : (s.hostSend bs).seq = s.seq := rfl
@[simp] theorem State.hostSend_fe (s : State) (bs : List Byte) : (s.hostSend bs).fe = { s.fe with rx := s.fe.rx ++ bs } := rfl
@[simp] theorem State.hostSend_chip (s : State) (bs : List Byte) : (s.hostSend bs).chip = s.chip := rfl
@[simp] theorem State.hostSend_now (s : State) (bs : List Byte) : (s.hostSend bs).now = s.now := rfl
@[simp] theorem State.hostSend_trace (s : State) (bs : List Byte) : (s.hostSend bs).trace = s.trace := rfl
@[simp] theorem State.hostSend_draws (s : State) (bs : List Byte) : (s.hostSend bs).draws = s.draws := rfl
@[simp] theorem State.hostSend_issue (s : State) (bs : List Byte) : (s.hostSend bs).issue = s.issue := rfl

/-! ### `State.toCommand` -/

@[simp] theorem State.toCommand_cfg (s : State) : (s.toCommand).cfg = s.cfg := rfl
@[simp] theorem State.toCommand_outC (s : State) : (s.toCommand).outC = s.outC := rfl
@[simp] theorem State.toCommand_outS (s : State) : (s.toCommand).outS = s.outS := rfl
@[simp] theorem State.toCommand_mode (s : State) : (s.toCommand).mode = s.mode := rfl
@[simp] theorem State.toCommand_timer (s : State) : (s.toCommand).timer = s.timer := rfl
@[simp] theorem State.toCommand_seq (s : State) : (s.toCommand).seq = s.seq := rfl
@[simp] theorem State.toCommand_fe (s : State) : (s.toCommand).fe = { s.fe with dsp := .command } := rfl
@[simp] theorem State.toCommand_chip (s : State) : (s.toCommand).chip = s.chip := rfl
@[simp] theorem State.toCommand_now (s : State) : (s.toCommand).now = s.now := rfl
@[simp] theorem State.toCommand_trace (s : State) : (s.toCommand).trace = s.trace := rfl
@[simp] theorem State.toCommand_draws (s : State) : (s.toCommand).draws = s.draws := rfl
@[simp] theorem State.toCommand_issue (s : State) : (s.toCommand).issue = s.issue := rfl

/-! ### `State.dropElapsed` -/

@[simp] theorem State.dropElapsed_cfg (s : State) : s.dropElapsed.cfg = s.cfg := by
  unfold State.dropElapsed; split <;> rfl
@[simp] theorem State.dropElapsed_outC (s : State) : s.dropElapsed.outC = s.outC := by
  unfold State.dropElapsed; split <;> rfl
@[simp] theorem State.dropElapsed_outS (s : State) : s.dropElapsed.outS = s.outS := by
  unfold State.dropElapsed; split <;> rfl
@[simp] theorem State.dropElapsed_mode (s : State) : s.dropElapsed.mode = s.mode := by
  unfold State.dropElapsed; split <;> rfl
@[simp] theorem State.dropElapsed_timer (s : State) : s.dropElapsed.timer = s.timer := by
  unfold State.dropElapsed; split <;> rfl
@[simp] theorem State.dropElapsed_seq (s : State) : s.dropElapsed.seq = s.seq := by
  unfold State.dropElapsed; split <;> rfl
@[simp] theorem State.dropElapsed_fe (s : State) : s.dropElapsed.fe = s.fe := by
  unfold State.dropElapsed; split <;> rfl
@[simp] theorem State.dropElapsed_chip (s : State) : s.dropElapsed.chip = s.chip := by
  unfold State.dropElapsed; split <;> rfl
@[simp] theorem State.dropElapsed_now (s : State) : s.dropElapsed.now = s.now := by
  unfold State.dropElapsed; split <;> rfl
@[simp] theorem State.dropElapsed_trace (s : State) : s.dropElapsed.trace = s.trace := by
  unfold State.dropElapsed; split <;> rfl
@[simp] theorem State.dropElapsed_issue (s : State) : s.dropElapsed.issue = s.issue := by
  unfold State.dropElapsed; split <;> rfl

/-! ### Values read from one port register and the placement only -/

theorem State.ah_congr {s t : State} (hg : s.cfg = t.cfg) (h : s.outC = t.outC) : s.ah = t.ah := by
  simp only [State.ah, h, hg]
theorem State.reN_congr {s t : State} (hg : s.cfg = t.cfg) (h : s.outC = t.outC) : s.reN = t.reN := by
  simp only [State.reN, h, hg]
theorem State.weN_congr {s t : State} (hg : s.cfg = t.cfg) (h : s.outC = t.outC) : s.weN = t.weN := by
  simp only [State.weN, h, hg]
theorem State.unrelC_congr {s t : State} (hg : s.cfg = t.cfg) (h : s.outC = t.outC) : s.unrelC = t.unrelC := by
  simp only [State.unrelC, h, hg]
theorem State.al_congr {s t : State} (h : s.outS = t.outS) : s.al = t.al := by
  simp only [State.al, h]
theorem State.dout_congr {s t : State} (h : s.outS = t.outS) : s.dout = t.dout := by
  simp only [State.dout, h]

end Sys2Proof.Machine
end

