-- ==== Sys2Proof/Laws/Fields.lean ====
section
/-! SUPPORT. The read-modify-write law of the port registers (R90, R117): a field write gives the field its value
and keeps every bit outside it; from it, every field after every field write. -/

namespace Sys2Proof.Machine

theorem getLsbD_fieldMask (lsb len i : Nat) :
    (fieldMask lsb len).getLsbD i = (decide (i < 16) && decide (lsb ≤ i) && decide (i - lsb < len)) := by
  simp only [fieldMask, BitVec.getLsbD_shiftLeft, BitVec.getLsbD_setWidth, BitVec.getLsbD_allOnes]
  by_cases h1 : i < 16
  · by_cases h2 : lsb ≤ i
    · have h3 : ¬ i < lsb := by omega
      have h4 : i - lsb < 16 := by omega
      simp [h1, h2, h3, h4]
    · have h3 : i < lsb := by omega
      simp [h1, h2, h3]
  · simp [h1]

/-- The whole law of a field write, bit by bit. -/
theorem getLsbD_setField {k : Nat} (reg : U16) (lsb : Nat) (v : BitVec k) (i : Nat) (hi : i < 16) :
    (setField reg lsb v).getLsbD i =
      if lsb ≤ i ∧ i - lsb < k then v.getLsbD (i - lsb) else reg.getLsbD i := by
  simp only [setField, BitVec.getLsbD_or, BitVec.getLsbD_and, BitVec.getLsbD_not, getLsbD_fieldMask,
    BitVec.getLsbD_shiftLeft, BitVec.getLsbD_setWidth]
  by_cases h2 : lsb ≤ i
  · by_cases h3 : i - lsb < k
    · have : i - lsb < 16 := by omega
      have h4 : ¬ i < lsb := by omega
      simp [hi, h2, h3, this, h4]
    · have h5 : v.getLsbD (i - lsb) = false := BitVec.getLsbD_of_ge _ _ (by omega)
      simp [hi, h3, h5]
  · have h4 : i < lsb := by omega
    simp [hi, h2, h4]

theorem getField_setField_same {k : Nat} (reg : U16) (lsb : Nat) (v : BitVec k) (h : lsb + k ≤ 16) :
    getField (setField reg lsb v) lsb k = v := by
  apply BitVec.eq_of_getLsbD_eq
  intro i hi
  have hj : lsb + i < 16 := by omega
  simp [getField, hi, getLsbD_setField _ _ _ _ hj]

theorem getField_setField_other {k : Nat} (reg : U16) (lsb lsb' k' : Nat) (v : BitVec k) (hr : lsb' + k' ≤ 16)
    (h : lsb' + k' ≤ lsb ∨ lsb + k ≤ lsb') : getField (setField reg lsb v) lsb' k' = getField reg lsb' k' := by
  apply BitVec.eq_of_getLsbD_eq
  intro i hi
  have hj : lsb' + i < 16 := by omega
  have : ¬ (lsb ≤ lsb' + i ∧ lsb' + i - lsb < k) := by omega
  simp [getField, hi, getLsbD_setField _ _ _ _ hj, this]

/-- Writing a field with the value it has changes nothing. -/
theorem setField_getField (reg : U16) (lsb k : Nat) : setField reg lsb (getField reg lsb k) = reg := by
  apply BitVec.eq_of_getLsbD_eq
  intro i hi
  rw [getLsbD_setField _ _ _ _ hi]
  split
  · next h =>
    have : lsb + (i - lsb) = i := by omega
    simp [getField, h.2, this]
  · rfl

/-- A second write of the same field replaces the first. -/
theorem setField_setField_same {k : Nat} (reg : U16) (lsb : Nat) (v w : BitVec k) :
    setField (setField reg lsb v) lsb w = setField reg lsb w := by
  apply BitVec.eq_of_getLsbD_eq
  intro i hi
  rw [getLsbD_setField _ _ _ _ hi, getLsbD_setField _ _ _ _ hi, getLsbD_setField _ _ _ _ hi]
  split <;> simp_all

theorem getLsbD_setField_out {k : Nat} (reg : U16) (lsb : Nat) (v : BitVec k) (i : Nat) (hi : i < 16)
    (h : ¬ (lsb ≤ i ∧ i - lsb < k)) : (setField reg lsb v).getLsbD i = reg.getLsbD i := by
  rw [getLsbD_setField _ _ _ _ hi, if_neg h]

theorem getLsbD_setField_bit (reg : U16) (lsb : Nat) (l : Bool) (h : lsb < 16) :
    (setField reg lsb (BitVec.ofBool l)).getLsbD lsb = l := by
  rw [getLsbD_setField _ _ _ _ h]
  simp

/-- The bits outside a mask are unchanged by the write of a field that lies inside it. -/
theorem setField_and_not {k : Nat} (reg : U16) (lsb : Nat) (v : BitVec k) (m : U16)
    (h : ∀ i, lsb ≤ i → i - lsb < k → i < 16 → m.getLsbD i = true) :
    setField reg lsb v &&& ~~~ m = reg &&& ~~~ m := by
  apply BitVec.eq_of_getLsbD_eq
  intro i hi
  simp only [BitVec.getLsbD_and, BitVec.getLsbD_not, getLsbD_setField _ _ _ _ hi]
  split
  · next hx => simp [h i hx.1 hx.2 hi]
  · rfl

/-! ### The placement of port C (R11, decision D2) -/

/-- What the check of a placement says. -/
theorem placement_facts (p : Placement) :
    p.ahLsb + 8 ≤ 16 ∧ p.reBit < 16 ∧ p.weBit < 16 ∧ p.reBit ≠ p.weBit
      ∧ (p.reBit < p.ahLsb ∨ p.ahLsb + 8 ≤ p.reBit) ∧ (p.weBit < p.ahLsb ∨ p.ahLsb + 8 ≤ p.weBit) := by
  have h := p.valid
  simp only [placementOk, Bool.and_eq_true, Bool.or_eq_true, decide_eq_true_eq] at h
  exact ⟨h.1.1.1.1.1, h.1.1.1.1.2, h.1.1.1.2, h.1.1.2, h.1.2, h.2⟩

theorem getLsbD_portCMask (p : Placement) (i : Nat) :
    (portCMask p).getLsbD i = (decide (i < 16) && (decide (p.ahLsb ≤ i ∧ i < p.ahLsb + 8) || decide (i = p.reBit)
      || decide (i = p.weBit))) := by
  have := placement_facts p
  rw [Bool.eq_iff_iff]
  simp only [portCMask, BitVec.getLsbD_or, getLsbD_fieldMask, Bool.or_eq_true, Bool.and_eq_true, decide_eq_true_eq]
  omega

/-- `UNREL_C` bit by bit: the bit of port C where no field lies, else 0. -/
theorem State.getLsbD_unrelC (s : State) (i : Nat) :
    s.unrelC.getLsbD i = (s.outC.getLsbD i && decide (i < 16) && !(portCMask s.cfg.place).getLsbD i) := by
  simp [State.unrelC, Bool.and_assoc]

/-- Both lines are idle and every other bit is 0. -/
theorem getLsbD_idle (p : Placement) (i : Nat) :
    p.idle.getLsbD i = decide (i = p.reBit ∨ i = p.weBit) := by
  have := placement_facts p
  rw [Bool.eq_iff_iff]
  simp only [Placement.idle, BitVec.getLsbD_or, BitVec.getLsbD_twoPow, Bool.or_eq_true, Bool.and_eq_true,
    decide_eq_true_eq]
  omega

/-! ### The fields of port S -/

@[simp] theorem State.setAl_al (s : State) (v : Byte) : (s.setAl v).al = v :=
  getField_setField_same _ _ _ (by decide)
@[simp] theorem State.setAl_dout (s : State) (v : Byte) : (s.setAl v).dout = s.dout :=
  getField_setField_other _ _ _ _ _ (by decide) (by decide)
@[simp] theorem State.setDout_al (s : State) (v : Byte) : (s.setDout v).al = s.al :=
  getField_setField_other _ _ _ _ _ (by decide) (by decide)
@[simp] theorem State.setDout_dout (s : State) (v : Byte) : (s.setDout v).dout = v :=
  getField_setField_same _ _ _ (by decide)

/-! ### The address split (R41) -/

theorem append_extract_halves (v : U16) : v.extractLsb' 8 8 ++ v.extractLsb' 0 8 = v := by
  apply BitVec.eq_of_getLsbD_eq
  intro i hi
  rw [BitVec.getLsbD_append]
  by_cases h : i < 8
  · simp [h]
  · have h1 : i - 8 < 8 := by omega
    have h2 : 8 + (i - 8) = i := by omega
    simp [h, h1, h2]

theorem extract_high_append (a b : Byte) : (a ++ b : BitVec (8 + 8)).extractLsb' 8 8 = a := by
  apply BitVec.eq_of_getLsbD_eq
  intro i hi
  rw [BitVec.getLsbD_extractLsb', BitVec.getLsbD_append]
  simp [hi]

theorem extract_low_append (a b : Byte) : (a ++ b : BitVec (8 + 8)).extractLsb' 0 8 = b := by
  apply BitVec.eq_of_getLsbD_eq
  intro i hi
  rw [BitVec.getLsbD_extractLsb', BitVec.getLsbD_append]
  simp [hi]

end Sys2Proof.Machine
end

