-- ==== Sys2Proof/Laws/MicroOps.lean ====
section
/-! SUPPORT. What each micro-operation leaves in every register, stamp and latch (R111 to R116, R101, R120), one lemma
per observation, and what the shared checks can answer. -/

namespace Sys2Proof.Machine

@[simp] theorem andThen_next (s : State) (f : State → Result) : andThen (.next s) f = f s := rfl
@[simp] theorem andThen_fault (e : Fault) (f : State → Result) : andThen (.fault e) f = .fault e := rfl
@[simp] theorem andThen_refused (e : Refusal) (f : State → Result) : andThen (.refused e) f = .refused e := rfl

/-- What `andThen` can do when it answers a next state. -/
theorem andThen_eq_next {r : Result} {f : State → Result} {t : State} :
    andThen r f = .next t ↔ ∃ u, r = .next u ∧ f u = .next t := by
  cases r <;> simp

/-- What the pin check can do when it answers a next state. -/
theorem pinCheck_eq_next {u : MicroOp} {s t : State} :
    pinCheck u s = .next t ↔ t = s ∧ s.pinsUndefined = false ∧ s.contention = false := by
  unfold pinCheck
  cases h1 : s.pinsUndefined <;> cases h2 : s.contention <;> simp [eq_comm]

/-- The configurations of the pins that `ChipUndefined` stops at, and the one `BusContention` stops at. -/
theorem State.pinsUndefined_iff (s : State) :
    s.pinsUndefined = true ↔ s.weN = false ∧ (s.reN = false ∨ s.mode = .read) := by
  cases h1 : s.weN <;> cases h2 : s.reN <;>
    simp [State.pinsUndefined, State.bothLow, State.cycleModeBroken, h1, h2]
theorem State.contention_iff (s : State) :
    s.contention = true ↔ s.mode = .write ∧ s.reN = false ∧ s.weN = true := by
  simp [State.contention, State.chipDrives]

/-- The pin check passes when RE# is high and no write bus cycle is open in Read mode. -/
theorem pinCheck_reHigh (u : MicroOp) (s : State) (h : s.reN = true) (hw : s.weN = true ∨ s.mode = .write) :
    pinCheck u s = .next s := by
  rcases hw with hw | hw <;>
    simp [pinCheck_eq_next, State.pinsUndefined, State.bothLow, State.cycleModeBroken, State.contention,
      State.chipDrives, h, hw]

/-- The pin check passes in Read mode with WE# high. -/
theorem pinCheck_readMode (u : MicroOp) (s : State) (hw : s.weN = true) (hm : s.mode = .read) :
    pinCheck u s = .next s := by
  simp [pinCheck_eq_next, State.pinsUndefined, State.bothLow, State.cycleModeBroken, State.contention,
    State.chipDrives, hw, hm]

/-! ### Register-level forms of the field laws -/

@[simp] theorem reBit_setAh (p : Placement) (c : U16) (v : Byte) :
    (setField c p.ahLsb v).getLsbD p.reBit = c.getLsbD p.reBit := by
  have := placement_facts p
  exact getLsbD_setField_out _ _ _ _ (by omega) (by omega)
@[simp] theorem weBit_setAh (p : Placement) (c : U16) (v : Byte) :
    (setField c p.ahLsb v).getLsbD p.weBit = c.getLsbD p.weBit := by
  have := placement_facts p
  exact getLsbD_setField_out _ _ _ _ (by omega) (by omega)
@[simp] theorem reBit_setRe (p : Placement) (c : U16) (l : Bool) :
    (setField c p.reBit (BitVec.ofBool l)).getLsbD p.reBit = l := getLsbD_setField_bit _ _ _ (by have := placement_facts p; omega)
@[simp] theorem weBit_setRe (p : Placement) (c : U16) (l : Bool) :
    (setField c p.reBit (BitVec.ofBool l)).getLsbD p.weBit = c.getLsbD p.weBit := by
  have := placement_facts p
  exact getLsbD_setField_out _ _ _ _ (by omega) (by omega)
@[simp] theorem reBit_setWe (p : Placement) (c : U16) (l : Bool) :
    (setField c p.weBit (BitVec.ofBool l)).getLsbD p.reBit = c.getLsbD p.reBit := by
  have := placement_facts p
  exact getLsbD_setField_out _ _ _ _ (by omega) (by omega)
@[simp] theorem weBit_setWe (p : Placement) (c : U16) (l : Bool) :
    (setField c p.weBit (BitVec.ofBool l)).getLsbD p.weBit = l := getLsbD_setField_bit _ _ _ (by have := placement_facts p; omega)
@[simp] theorem ah_setAh (p : Placement) (c : U16) (v : Byte) : getField (setField c p.ahLsb v) p.ahLsb 8 = v :=
  getField_setField_same _ _ _ (by have := placement_facts p; omega)
@[simp] theorem ah_setRe (p : Placement) (c : U16) (l : Bool) :
    getField (setField c p.reBit (BitVec.ofBool l)) p.ahLsb 8 = getField c p.ahLsb 8 := by
  have := placement_facts p
  exact getField_setField_other _ _ _ _ _ (by omega) (by omega)
@[simp] theorem ah_setWe (p : Placement) (c : U16) (l : Bool) :
    getField (setField c p.weBit (BitVec.ofBool l)) p.ahLsb 8 = getField c p.ahLsb 8 := by
  have := placement_facts p
  exact getField_setField_other _ _ _ _ _ (by omega) (by omega)
@[simp] theorem unrel_setAh (p : Placement) (c : U16) (v : Byte) :
    setField c p.ahLsb v &&& ~~~ portCMask p = c &&& ~~~ portCMask p :=
  setField_and_not _ _ _ _ (fun i h1 h2 => by rw [getLsbD_portCMask]; simp; omega)
@[simp] theorem unrel_setRe (p : Placement) (c : U16) (l : Bool) :
    setField c p.reBit (BitVec.ofBool l) &&& ~~~ portCMask p = c &&& ~~~ portCMask p :=
  setField_and_not _ _ _ _ (fun i h1 h2 => by rw [getLsbD_portCMask]; simp; omega)
@[simp] theorem unrel_setWe (p : Placement) (c : U16) (l : Bool) :
    setField c p.weBit (BitVec.ofBool l) &&& ~~~ portCMask p = c &&& ~~~ portCMask p :=
  setField_and_not _ _ _ _ (fun i h1 h2 => by rw [getLsbD_portCMask]; simp; omega)
@[simp] theorem al_setAl (c : U16) (v : Byte) : getField (setField c Config.alLsb v) Config.alLsb 8 = v :=
  getField_setField_same _ _ _ (by decide)
@[simp] theorem al_setDout (c : U16) (v : Byte) :
    getField (setField c Config.dataLsb v) Config.alLsb 8 = getField c Config.alLsb 8 :=
  getField_setField_other _ _ _ _ _ (by decide) (by decide)
@[simp] theorem dout_setAl (c : U16) (v : Byte) :
    getField (setField c Config.alLsb v) Config.dataLsb 8 = getField c Config.dataLsb 8 :=
  getField_setField_other _ _ _ _ _ (by decide) (by decide)
@[simp] theorem dout_setDout (c : U16) (v : Byte) : getField (setField c Config.dataLsb v) Config.dataLsb 8 = v :=
  getField_setField_same _ _ _ (by decide)

/-- A sample's outcome reads the state; what it leaves differs in the trace and the draw counter alone. -/
theorem afterSample_eq (s : State) :
    afterSample s =
      { s with
        trace := s.trace ++ [⟨s.now, .sample s.sampled⟩]
        draws.count := if s.sampleValid then s.draws.count else s.draws.count + 1 } := rfl

/-! ### `afterSetMode` -/

@[simp] theorem afterSetMode_reN (m : BusMode) (s : State) : (afterSetMode m s).reN = s.reN := by
  simp [afterSetMode, State.reN]
@[simp] theorem afterSetMode_weN (m : BusMode) (s : State) : (afterSetMode m s).weN = s.weN := by
  simp [afterSetMode, State.weN]
@[simp] theorem afterSetMode_addrPins (m : BusMode) (s : State) : (afterSetMode m s).addrPins = s.addrPins := by
  simp [afterSetMode, State.addrPins, State.ah, State.al]
@[simp] theorem afterSetMode_dout (m : BusMode) (s : State) : (afterSetMode m s).dout = s.dout := by
  simp [afterSetMode, State.dout]
@[simp] theorem afterSetMode_unrelC (m : BusMode) (s : State) : (afterSetMode m s).unrelC = s.unrelC := by
  simp [afterSetMode, State.unrelC]
@[simp] theorem afterSetMode_cfg (m : BusMode) (s : State) : (afterSetMode m s).cfg = s.cfg := rfl
@[simp] theorem afterSetMode_mode (m : BusMode) (s : State) : (afterSetMode m s).mode = m := rfl
@[simp] theorem afterSetMode_timer (m : BusMode) (s : State) : (afterSetMode m s).timer = s.timer := rfl
@[simp] theorem afterSetMode_seq (m : BusMode) (s : State) : (afterSetMode m s).seq = s.seq := rfl
@[simp] theorem afterSetMode_fe (m : BusMode) (s : State) : (afterSetMode m s).fe = s.fe := rfl
@[simp] theorem afterSetMode_chip_mem (m : BusMode) (s : State) : (afterSetMode m s).chip.mem = s.chip.mem := rfl
@[simp] theorem afterSetMode_chip_cmd (m : BusMode) (s : State) : (afterSetMode m s).chip.cmd = s.chip.cmd := rfl
@[simp] theorem afterSetMode_chip_busyUntil (m : BusMode) (s : State) : (afterSetMode m s).chip.busyUntil = s.chip.busyUntil := rfl
@[simp] theorem afterSetMode_chip_tAddr (m : BusMode) (s : State) : (afterSetMode m s).chip.tAddr = s.chip.tAddr := rfl
@[simp] theorem afterSetMode_chip_tRe (m : BusMode) (s : State) : (afterSetMode m s).chip.tRe = s.chip.tRe := rfl
@[simp] theorem afterSetMode_chip_tWe (m : BusMode) (s : State) : (afterSetMode m s).chip.tWe = s.chip.tWe := rfl
@[simp] theorem afterSetMode_now (m : BusMode) (s : State) : (afterSetMode m s).now = s.now := rfl
@[simp] theorem afterSetMode_issue (m : BusMode) (s : State) : (afterSetMode m s).issue = s.issue := rfl
@[simp] theorem afterSetMode_trace (m : BusMode) (s : State) : (afterSetMode m s).trace = s.trace ++ [⟨s.now, .mode m⟩] := by
  simp [afterSetMode]

/-! ### `afterDrvAddr` -/

@[simp] theorem afterDrvAddr_reN (v : U16) (s : State) : (afterDrvAddr v s).reN = s.reN := by
  simp [afterDrvAddr, State.reN]
@[simp] theorem afterDrvAddr_weN (v : U16) (s : State) : (afterDrvAddr v s).weN = s.weN := by
  simp [afterDrvAddr, State.weN]
@[simp] theorem afterDrvAddr_addrPins (v : U16) (s : State) : (afterDrvAddr v s).addrPins = v := by
  simp [afterDrvAddr, State.addrPins, State.ah, State.al, append_extract_halves]
@[simp] theorem afterDrvAddr_dout (v : U16) (s : State) : (afterDrvAddr v s).dout = s.dout := by
  simp [afterDrvAddr, State.dout]
@[simp] theorem afterDrvAddr_unrelC (v : U16) (s : State) : (afterDrvAddr v s).unrelC = s.unrelC := by
  simp [afterDrvAddr, State.unrelC]
@[simp] theorem afterDrvAddr_cfg (v : U16) (s : State) : (afterDrvAddr v s).cfg = s.cfg := rfl
@[simp] theorem afterDrvAddr_mode (v : U16) (s : State) : (afterDrvAddr v s).mode = s.mode := rfl
@[simp] theorem afterDrvAddr_timer (v : U16) (s : State) : (afterDrvAddr v s).timer = s.timer := rfl
@[simp] theorem afterDrvAddr_seq (v : U16) (s : State) : (afterDrvAddr v s).seq = s.seq := rfl
@[simp] theorem afterDrvAddr_fe (v : U16) (s : State) : (afterDrvAddr v s).fe = s.fe := rfl
@[simp] theorem afterDrvAddr_chip_mem (v : U16) (s : State) : (afterDrvAddr v s).chip.mem = s.chip.mem := rfl
@[simp] theorem afterDrvAddr_chip_cmd (v : U16) (s : State) : (afterDrvAddr v s).chip.cmd = s.chip.cmd := rfl
@[simp] theorem afterDrvAddr_chip_busyUntil (v : U16) (s : State) : (afterDrvAddr v s).chip.busyUntil = s.chip.busyUntil := rfl
@[simp] theorem afterDrvAddr_chip_tAddr (v : U16) (s : State) : (afterDrvAddr v s).chip.tAddr = if s.addrPins = v then s.chip.tAddr else s.now := rfl
@[simp] theorem afterDrvAddr_chip_tRe (v : U16) (s : State) : (afterDrvAddr v s).chip.tRe = s.chip.tRe := rfl
@[simp] theorem afterDrvAddr_chip_tWe (v : U16) (s : State) : (afterDrvAddr v s).chip.tWe = s.chip.tWe := rfl
@[simp] theorem afterDrvAddr_now (v : U16) (s : State) : (afterDrvAddr v s).now = s.now := rfl
@[simp] theorem afterDrvAddr_issue (v : U16) (s : State) : (afterDrvAddr v s).issue = s.issue := rfl
@[simp] theorem afterDrvAddr_trace (v : U16) (s : State) : (afterDrvAddr v s).trace = s.trace ++ [⟨s.now, .addrHi (v.extractLsb' 8 8)⟩, ⟨s.now, .addrLo (v.extractLsb' 0 8)⟩] := by
  simp [afterDrvAddr]

/-! ### `afterDrvData` -/

@[simp] theorem afterDrvData_reN (v : Byte) (s : State) : (afterDrvData v s).reN = s.reN := by
  simp [afterDrvData, State.reN]
@[simp] theorem afterDrvData_weN (v : Byte) (s : State) : (afterDrvData v s).weN = s.weN := by
  simp [afterDrvData, State.weN]
@[simp] theorem afterDrvData_addrPins (v : Byte) (s : State) : (afterDrvData v s).addrPins = s.addrPins := by
  simp [afterDrvData, State.addrPins, State.ah, State.al]
@[simp] theorem afterDrvData_dout (v : Byte) (s : State) : (afterDrvData v s).dout = v := by
  simp [afterDrvData, State.dout]
@[simp] theorem afterDrvData_unrelC (v : Byte) (s : State) : (afterDrvData v s).unrelC = s.unrelC := by
  simp [afterDrvData, State.unrelC]
@[simp] theorem afterDrvData_cfg (v : Byte) (s : State) : (afterDrvData v s).cfg = s.cfg := rfl
@[simp] theorem afterDrvData_mode (v : Byte) (s : State) : (afterDrvData v s).mode = s.mode := rfl
@[simp] theorem afterDrvData_timer (v : Byte) (s : State) : (afterDrvData v s).timer = s.timer := rfl
@[simp] theorem afterDrvData_seq (v : Byte) (s : State) : (afterDrvData v s).seq = s.seq := rfl
@[simp] theorem afterDrvData_fe (v : Byte) (s : State) : (afterDrvData v s).fe = s.fe := rfl
@[simp] theorem afterDrvData_chip_mem (v : Byte) (s : State) : (afterDrvData v s).chip.mem = s.chip.mem := rfl
@[simp] theorem afterDrvData_chip_cmd (v : Byte) (s : State) : (afterDrvData v s).chip.cmd = s.chip.cmd := rfl
@[simp] theorem afterDrvData_chip_busyUntil (v : Byte) (s : State) : (afterDrvData v s).chip.busyUntil = s.chip.busyUntil := rfl
@[simp] theorem afterDrvData_chip_tAddr (v : Byte) (s : State) : (afterDrvData v s).chip.tAddr = s.chip.tAddr := rfl
@[simp] theorem afterDrvData_chip_tRe (v : Byte) (s : State) : (afterDrvData v s).chip.tRe = s.chip.tRe := rfl
@[simp] theorem afterDrvData_chip_tWe (v : Byte) (s : State) : (afterDrvData v s).chip.tWe = s.chip.tWe := rfl
@[simp] theorem afterDrvData_now (v : Byte) (s : State) : (afterDrvData v s).now = s.now := rfl
@[simp] theorem afterDrvData_issue (v : Byte) (s : State) : (afterDrvData v s).issue = s.issue := rfl
@[simp] theorem afterDrvData_trace (v : Byte) (s : State) : (afterDrvData v s).trace = s.trace ++ [⟨s.now, .data v⟩] := by
  simp [afterDrvData]

/-! ### `afterSample` -/

@[simp] theorem afterSample_reN (s : State) : (afterSample s).reN = s.reN := by
  rw [afterSample_eq]; rfl
@[simp] theorem afterSample_weN (s : State) : (afterSample s).weN = s.weN := by
  rw [afterSample_eq]; rfl
@[simp] theorem afterSample_addrPins (s : State) : (afterSample s).addrPins = s.addrPins := by
  rw [afterSample_eq]; rfl
@[simp] theorem afterSample_dout (s : State) : (afterSample s).dout = s.dout := by
  rw [afterSample_eq]; rfl
@[simp] theorem afterSample_unrelC (s : State) : (afterSample s).unrelC = s.unrelC := by
  rw [afterSample_eq]; rfl
@[simp] theorem afterSample_cfg (s : State) : (afterSample s).cfg = s.cfg := by
  rw [afterSample_eq]
@[simp] theorem afterSample_mode (s : State) : (afterSample s).mode = s.mode := by
  rw [afterSample_eq]
@[simp] theorem afterSample_timer (s : State) : (afterSample s).timer = s.timer := by
  rw [afterSample_eq]
@[simp] theorem afterSample_seq (s : State) : (afterSample s).seq = s.seq := by
  rw [afterSample_eq]
@[simp] theorem afterSample_fe (s : State) : (afterSample s).fe = s.fe := by
  rw [afterSample_eq]
@[simp] theorem afterSample_chip_mem (s : State) : (afterSample s).chip.mem = s.chip.mem := by
  rw [afterSample_eq]
@[simp] theorem afterSample_chip_cmd (s : State) : (afterSample s).chip.cmd = s.chip.cmd := by
  rw [afterSample_eq]
@[simp] theorem afterSample_chip_busyUntil (s : State) : (afterSample s).chip.busyUntil = s.chip.busyUntil := by
  rw [afterSample_eq]
@[simp] theorem afterSample_chip_tAddr (s : State) : (afterSample s).chip.tAddr = s.chip.tAddr := by
  rw [afterSample_eq]
@[simp] theorem afterSample_chip_tRe (s : State) : (afterSample s).chip.tRe = s.chip.tRe := by
  rw [afterSample_eq]
@[simp] theorem afterSample_chip_tWe (s : State) : (afterSample s).chip.tWe = s.chip.tWe := by
  rw [afterSample_eq]
@[simp] theorem afterSample_now (s : State) : (afterSample s).now = s.now := by
  rw [afterSample_eq]
@[simp] theorem afterSample_issue (s : State) : (afterSample s).issue = s.issue := by
  rw [afterSample_eq]
@[simp] theorem afterSample_trace (s : State) : (afterSample s).trace = s.trace ++ [⟨s.now, .sample s.sampled⟩] := by
  rw [afterSample_eq]

/-! ### `afterSetRe` -/

@[simp] theorem afterSetRe_reN (b : Bool) (s : State) : (afterSetRe b s).reN = !b := by
  simp [afterSetRe, State.reN]
@[simp] theorem afterSetRe_weN (b : Bool) (s : State) : (afterSetRe b s).weN = s.weN := by
  simp [afterSetRe, State.weN]
@[simp] theorem afterSetRe_addrPins (b : Bool) (s : State) : (afterSetRe b s).addrPins = s.addrPins := by
  simp [afterSetRe, State.addrPins, State.ah, State.al]
@[simp] theorem afterSetRe_dout (b : Bool) (s : State) : (afterSetRe b s).dout = s.dout := by
  simp [afterSetRe, State.dout]
@[simp] theorem afterSetRe_unrelC (b : Bool) (s : State) : (afterSetRe b s).unrelC = s.unrelC := by
  simp [afterSetRe, State.unrelC]
@[simp] theorem afterSetRe_cfg (b : Bool) (s : State) : (afterSetRe b s).cfg = s.cfg := rfl
@[simp] theorem afterSetRe_mode (b : Bool) (s : State) : (afterSetRe b s).mode = s.mode := rfl
@[simp] theorem afterSetRe_timer (b : Bool) (s : State) : (afterSetRe b s).timer = s.timer := rfl
@[simp] theorem afterSetRe_seq (b : Bool) (s : State) : (afterSetRe b s).seq = s.seq := rfl
@[simp] theorem afterSetRe_fe (b : Bool) (s : State) : (afterSetRe b s).fe = s.fe := rfl
@[simp] theorem afterSetRe_chip_mem (b : Bool) (s : State) : (afterSetRe b s).chip.mem = s.chip.mem := rfl
@[simp] theorem afterSetRe_chip_cmd (b : Bool) (s : State) : (afterSetRe b s).chip.cmd = s.chip.cmd := rfl
@[simp] theorem afterSetRe_chip_busyUntil (b : Bool) (s : State) : (afterSetRe b s).chip.busyUntil = s.chip.busyUntil := rfl
@[simp] theorem afterSetRe_chip_tAddr (b : Bool) (s : State) : (afterSetRe b s).chip.tAddr = s.chip.tAddr := rfl
@[simp] theorem afterSetRe_chip_tRe (b : Bool) (s : State) : (afterSetRe b s).chip.tRe = if b && s.reN then s.now else s.chip.tRe := rfl
@[simp] theorem afterSetRe_chip_tWe (b : Bool) (s : State) : (afterSetRe b s).chip.tWe = s.chip.tWe := rfl
@[simp] theorem afterSetRe_now (b : Bool) (s : State) : (afterSetRe b s).now = s.now := rfl
@[simp] theorem afterSetRe_issue (b : Bool) (s : State) : (afterSetRe b s).issue = s.issue := rfl
@[simp] theorem afterSetRe_trace (b : Bool) (s : State) : (afterSetRe b s).trace = s.trace ++ [⟨s.now, .re (!b)⟩] := by
  simp [afterSetRe]

/-! ### `afterSetWe` -/

@[simp] theorem afterSetWe_reN (b : Bool) (s : State) : (afterSetWe b s).reN = s.reN := by
  simp [afterSetWe, State.reN]
@[simp] theorem afterSetWe_weN (b : Bool) (s : State) : (afterSetWe b s).weN = !b := by
  simp [afterSetWe, State.weN]
@[simp] theorem afterSetWe_addrPins (b : Bool) (s : State) : (afterSetWe b s).addrPins = s.addrPins := by
  simp [afterSetWe, State.addrPins, State.ah, State.al]
@[simp] theorem afterSetWe_dout (b : Bool) (s : State) : (afterSetWe b s).dout = s.dout := by
  simp [afterSetWe, State.dout]
@[simp] theorem afterSetWe_unrelC (b : Bool) (s : State) : (afterSetWe b s).unrelC = s.unrelC := by
  simp [afterSetWe, State.unrelC]
@[simp] theorem afterSetWe_cfg (b : Bool) (s : State) : (afterSetWe b s).cfg = s.cfg := rfl
@[simp] theorem afterSetWe_mode (b : Bool) (s : State) : (afterSetWe b s).mode = s.mode := rfl
@[simp] theorem afterSetWe_timer (b : Bool) (s : State) : (afterSetWe b s).timer = s.timer := rfl
@[simp] theorem afterSetWe_seq (b : Bool) (s : State) : (afterSetWe b s).seq = s.seq := rfl
@[simp] theorem afterSetWe_fe (b : Bool) (s : State) : (afterSetWe b s).fe = s.fe := rfl
@[simp] theorem afterSetWe_chip_mem (b : Bool) (s : State) : (afterSetWe b s).chip.mem = s.chip.mem := rfl
@[simp] theorem afterSetWe_chip_cmd (b : Bool) (s : State) : (afterSetWe b s).chip.cmd = s.chip.cmd := rfl
@[simp] theorem afterSetWe_chip_busyUntil (b : Bool) (s : State) : (afterSetWe b s).chip.busyUntil = s.chip.busyUntil := rfl
@[simp] theorem afterSetWe_chip_tAddr (b : Bool) (s : State) : (afterSetWe b s).chip.tAddr = s.chip.tAddr := rfl
@[simp] theorem afterSetWe_chip_tRe (b : Bool) (s : State) : (afterSetWe b s).chip.tRe = s.chip.tRe := rfl
@[simp] theorem afterSetWe_chip_tWe (b : Bool) (s : State) : (afterSetWe b s).chip.tWe = if b && s.weN then s.now else s.chip.tWe := rfl
@[simp] theorem afterSetWe_now (b : Bool) (s : State) : (afterSetWe b s).now = s.now := rfl
@[simp] theorem afterSetWe_issue (b : Bool) (s : State) : (afterSetWe b s).issue = s.issue := rfl
@[simp] theorem afterSetWe_trace (b : Bool) (s : State) : (afterSetWe b s).trace = s.trace ++ [⟨s.now, .we (!b)⟩] := by
  simp [afterSetWe]

/-! ### `afterWait` -/

@[simp] theorem afterWait_reN (n : U16) (s : State) : (afterWait n s).reN = s.reN := by
  unfold afterWait; split <;> simp [State.reN]
@[simp] theorem afterWait_weN (n : U16) (s : State) : (afterWait n s).weN = s.weN := by
  unfold afterWait; split <;> simp [State.weN]
@[simp] theorem afterWait_addrPins (n : U16) (s : State) : (afterWait n s).addrPins = s.addrPins := by
  unfold afterWait; split <;> simp [State.addrPins, State.ah, State.al]
@[simp] theorem afterWait_dout (n : U16) (s : State) : (afterWait n s).dout = s.dout := by
  unfold afterWait; split <;> simp [State.dout]
@[simp] theorem afterWait_unrelC (n : U16) (s : State) : (afterWait n s).unrelC = s.unrelC := by
  unfold afterWait; split <;> simp [State.unrelC]
@[simp] theorem afterWait_cfg (n : U16) (s : State) : (afterWait n s).cfg = s.cfg := by
  unfold afterWait; split <;> simp
@[simp] theorem afterWait_mode (n : U16) (s : State) : (afterWait n s).mode = s.mode := by
  unfold afterWait; split <;> simp
@[simp] theorem afterWait_timer (n : U16) (s : State) : (afterWait n s).timer = s.timer.afterWait s.cfg.ticksPerMs n := by
  unfold afterWait; split <;> simp
@[simp] theorem afterWait_seq (n : U16) (s : State) : (afterWait n s).seq = s.seq := by
  unfold afterWait; split <;> simp
@[simp] theorem afterWait_fe (n : U16) (s : State) : (afterWait n s).fe = s.fe := by
  unfold afterWait; split <;> simp
@[simp] theorem afterWait_chip_mem (n : U16) (s : State) : (afterWait n s).chip.mem = s.chip.mem := by
  unfold afterWait; split <;> simp
@[simp] theorem afterWait_chip_cmd (n : U16) (s : State) : (afterWait n s).chip.cmd = s.chip.cmd := by
  unfold afterWait; split <;> simp
@[simp] theorem afterWait_chip_busyUntil (n : U16) (s : State) : (afterWait n s).chip.busyUntil = s.chip.busyUntil := by
  unfold afterWait; split <;> simp
@[simp] theorem afterWait_chip_tAddr (n : U16) (s : State) : (afterWait n s).chip.tAddr = s.chip.tAddr := by
  unfold afterWait; split <;> simp
@[simp] theorem afterWait_chip_tRe (n : U16) (s : State) : (afterWait n s).chip.tRe = s.chip.tRe := by
  unfold afterWait; split <;> simp
@[simp] theorem afterWait_chip_tWe (n : U16) (s : State) : (afterWait n s).chip.tWe = s.chip.tWe := by
  unfold afterWait; split <;> simp
@[simp] theorem afterWait_now (n : U16) (s : State) : (afterWait n s).now = s.now + s.waitTime n := by
  unfold afterWait; split <;> simp
@[simp] theorem afterWait_issue (n : U16) (s : State) : (afterWait n s).issue = s.issue := by
  unfold afterWait; split <;> simp
@[simp] theorem afterWait_trace (n : U16) (s : State) : (afterWait n s).trace = s.trace ++ [⟨s.now, .waitBegin n⟩, ⟨s.now + s.waitTime n, .waitEnd n⟩] := by
  unfold afterWait; split <;> simp

end Sys2Proof.Machine
end

