-- ==== Sys2Proof/Laws/Memory.lean ====
section
/-! SUPPORT. The flash array: read after write, every write keeps the canonical form, and over one background equal
contents are equal data. -/

namespace Sys2Proof.Machine

@[simp] theorem FlashMem.write_erased (m : FlashMem) (a : U16) (v : Byte) : (m.write a v).erased = m.erased := by
  unfold FlashMem.write; split <;> rfl

theorem FlashMem.unlisted_congr {m n : FlashMem} (h : m.erased = n.erased) (k : Nat) :
    m.unlisted k = n.unlisted k := by
  simp [FlashMem.unlisted, h]

/-! ### Lists of cells with rising addresses -/

/-- Every address of the list is above `k`. -/
def above (k : Nat) (cs : List Host.Cell) : Prop := ∀ c ∈ cs, k < c.1

theorem risingCells_cons {c : Host.Cell} {cs : List Host.Cell} :
    risingCells (c :: cs) = true ↔ above c.1 cs ∧ risingCells cs = true := by
  induction cs generalizing c with
  | nil => simp [risingCells, above]
  | cons d cs ih =>
    have hd := ih (c := d)
    simp only [risingCells, Bool.and_eq_true, decide_eq_true_eq]
    rw [hd]
    constructor
    · rintro ⟨h1, h2, h3⟩
      refine ⟨?_, h2, h3⟩
      intro e he
      rcases List.mem_cons.1 he with rfl | he
      · exact h1
      · exact Nat.lt_trans h1 (h2 e he)
    · rintro ⟨h1, h2, h3⟩
      exact ⟨h1 d (by simp), h2, h3⟩

theorem lookupCell_above {k : Nat} {cs : List Host.Cell} (h : above k cs) : lookupCell k cs = none := by
  induction cs with
  | nil => rfl
  | cons c cs ih =>
    have hc : k < c.1 := h c (by simp)
    have : ¬ c.1 = k := by omega
    simp only [lookupCell, this, if_false]
    exact ih fun d hd => h d (by simp [hd])

theorem mem_insertCell {k : Nat} {v : Byte} {cs : List Host.Cell} {c : Host.Cell} (h : c ∈ insertCell k v cs) :
    c = (k, v) ∨ c ∈ cs := by
  induction cs with
  | nil => simpa [insertCell] using h
  | cons d cs ih =>
    simp only [insertCell] at h
    split at h
    · simpa using h
    · split at h
      · rcases List.mem_cons.1 h with h | h
        · exact .inl h
        · exact .inr (by simp [h])
      · rcases List.mem_cons.1 h with h | h
        · exact .inr (by simp [h])
        · rcases ih h with h | h
          · exact .inl h
          · exact .inr (by simp [h])

theorem mem_removeCell {k : Nat} {cs : List Host.Cell} {c : Host.Cell} (h : c ∈ removeCell k cs) : c ∈ cs := by
  induction cs with
  | nil => simp [removeCell] at h
  | cons d cs ih =>
    simp only [removeCell] at h
    split at h
    · simp [h]
    · rcases List.mem_cons.1 h with h | h
      · simp [h]
      · simp [ih h]

theorem risingCells_insertCell {k : Nat} {v : Byte} {cs : List Host.Cell} (h : risingCells cs = true) :
    risingCells (insertCell k v cs) = true := by
  induction cs with
  | nil => rfl
  | cons c cs ih =>
    have ⟨ha, hr⟩ := risingCells_cons.1 h
    simp only [insertCell]
    split
    · next hlt =>
      refine risingCells_cons.2 ⟨?_, h⟩
      intro d hd
      rcases List.mem_cons.1 hd with rfl | hd
      · exact hlt
      · exact Nat.lt_trans hlt (ha d hd)
    · split
      · next hk => exact risingCells_cons.2 ⟨by rw [hk]; exact ha, hr⟩
      · refine risingCells_cons.2 ⟨?_, ih hr⟩
        intro d hd
        rcases mem_insertCell hd with rfl | hd
        · show c.1 < k
          omega
        · exact ha d hd

theorem risingCells_removeCell {k : Nat} {cs : List Host.Cell} (h : risingCells cs = true) :
    risingCells (removeCell k cs) = true := by
  induction cs with
  | nil => rfl
  | cons c cs ih =>
    have ⟨ha, hr⟩ := risingCells_cons.1 h
    simp only [removeCell]
    split
    · exact hr
    · exact risingCells_cons.2 ⟨fun d hd => ha d (mem_removeCell hd), ih hr⟩

theorem lookupCell_insertCell {k j : Nat} {v : Byte} {cs : List Host.Cell} :
    lookupCell j (insertCell k v cs) = if j = k then some v else lookupCell j cs := by
  induction cs with
  | nil =>
    by_cases h : j = k
    · simp [insertCell, lookupCell, h]
    · simp [insertCell, lookupCell, h, Ne.symm h]
  | cons c cs ih =>
    simp only [insertCell]
    split
    · by_cases h : j = k
      · simp [lookupCell, h]
      · simp [lookupCell, h, Ne.symm h]
    · split
      · next hk =>
        by_cases h : j = k
        · simp [lookupCell, h]
        · have : ¬ c.1 = j := by omega
          simp [lookupCell, h, Ne.symm h, this]
      · next hk =>
        simp only [lookupCell, ih]
        by_cases h : j = k
        · have : ¬ c.1 = j := by omega
          simp [h]
          omega
        · simp [h]

theorem lookupCell_removeCell {k j : Nat} {cs : List Host.Cell} (hr : risingCells cs = true) :
    lookupCell j (removeCell k cs) = if j = k then none else lookupCell j cs := by
  induction cs with
  | nil => simp [removeCell, lookupCell]
  | cons c cs ih =>
    have ⟨ha, hr'⟩ := risingCells_cons.1 hr
    simp only [removeCell]
    split
    · next hc =>
      by_cases h : j = k
      · rw [if_pos h, h, ← hc]; exact lookupCell_above ha
      · have : ¬ c.1 = j := by omega
        simp [h, lookupCell, this]
    · next hc =>
      simp only [lookupCell, ih hr']
      by_cases h : j = k
      · have : ¬ c.1 = j := by omega
        simp [h, hc]
      · simp [h]

/-! ### The flash array -/

theorem FlashMem.wf_iff {m : FlashMem} :
    m.wf = true ↔ risingCells m.cells = true ∧ ∀ c ∈ m.cells, c.1 < 65536 ∧ c.2 ≠ m.unlisted c.1 := by
  simp [FlashMem.wf, Bool.and_eq_true, List.all_eq_true]

/-- A write keeps the canonical form. -/
theorem FlashMem.write_wf {m : FlashMem} (h : m.wf = true) (a : U16) (v : Byte) : (m.write a v).wf = true := by
  have ⟨hr, hc⟩ := FlashMem.wf_iff.1 h
  have hu : ∀ k, (m.write a v).unlisted k = m.unlisted k := FlashMem.unlisted_congr (by simp)
  refine FlashMem.wf_iff.2 ?_
  simp only [hu]
  unfold FlashMem.write
  split
  · exact ⟨risingCells_removeCell hr, fun c hm => hc c (mem_removeCell hm)⟩
  · next hv =>
    refine ⟨risingCells_insertCell hr, fun c hm => ?_⟩
    rcases mem_insertCell hm with rfl | hm
    · exact ⟨a.isLt, hv⟩
    · exact hc c hm

@[simp] theorem FlashMem.eraseAll_wf : FlashMem.eraseAll.wf = true := rfl

/-- Every cell of the erased array reads as 0xFF (R59). -/
@[simp] theorem FlashMem.eraseAll_read (a : U16) : FlashMem.eraseAll.read a = 0xFF := rfl

/-- Read after write. -/
theorem FlashMem.write_read {m : FlashMem} (h : risingCells m.cells = true) (a b : U16) (v : Byte) :
    (m.write a v).read b = if b = a then v else m.read b := by
  have hj : (b.toNat = a.toNat) = (b = a) := propext BitVec.toNat_inj
  unfold FlashMem.write
  split
  · next hv =>
    have hu : FlashMem.unlisted { m with cells := removeCell a.toNat m.cells } b.toNat = m.unlisted b.toNat :=
      FlashMem.unlisted_congr rfl _
    simp only [FlashMem.read, lookupCell_removeCell h, hj, hu]
    by_cases hb : b = a
    · simp [hb, hv]
    · simp [hb]
  · have hu : FlashMem.unlisted { m with cells := insertCell a.toNat v m.cells } b.toNat = m.unlisted b.toNat :=
      FlashMem.unlisted_congr rfl _
    simp only [FlashMem.read, lookupCell_insertCell, hj, hu]
    by_cases hb : b = a
    · simp [hb]
    · simp [hb]

theorem lookupCell_mem {k : Nat} {v : Byte} {cs : List Host.Cell} (h : lookupCell k cs = some v) : (k, v) ∈ cs := by
  induction cs with
  | nil => simp [lookupCell] at h
  | cons c cs ih =>
    simp only [lookupCell] at h
    split at h
    · next hc =>
      have hv : c.2 = v := Option.some.inj h
      have : c = (k, v) := Prod.ext hc hv
      simp [this]
    · simp [ih h]

theorem lookupCell_of_mem {c : Host.Cell} {cs : List Host.Cell} (hr : risingCells cs = true) (h : c ∈ cs) :
    lookupCell c.1 cs = some c.2 := by
  induction cs with
  | nil => simp at h
  | cons d cs ih =>
    have ⟨ha, hr'⟩ := risingCells_cons.1 hr
    rcases List.mem_cons.1 h with rfl | h
    · simp [lookupCell]
    · have : d.1 < c.1 := ha c h
      have : ¬ d.1 = c.1 := by omega
      simp [lookupCell, this, ih hr' h]

/-- Two rising lists with the same lookups are equal. -/
theorem risingCells_unique {cs ds : List Host.Cell} (hc : risingCells cs = true) (hd : risingCells ds = true)
    (h : ∀ k, lookupCell k cs = lookupCell k ds) : cs = ds := by
  induction cs generalizing ds with
  | nil =>
    cases ds with
    | nil => rfl
    | cons d ds => have := h d.1; simp [lookupCell] at this
  | cons c cs ih =>
    cases ds with
    | nil => have := h c.1; simp [lookupCell] at this
    | cons d ds =>
      have ⟨hca, hcr⟩ := risingCells_cons.1 hc
      have ⟨hda, hdr⟩ := risingCells_cons.1 hd
      have h1 : lookupCell c.1 (d :: ds) = some c.2 := by rw [← h]; simp [lookupCell]
      have h2 : lookupCell d.1 (c :: cs) = some d.2 := by rw [h]; simp [lookupCell]
      have hcd : c = d := by
        rcases List.mem_cons.1 (lookupCell_mem h1) with e | e
        · exact e
        · rcases List.mem_cons.1 (lookupCell_mem h2) with e' | e'
          · exact e'.symm
          · have a1 := hda _ e
            have a2 := hca _ e'
            simp only at a1 a2
            omega
      subst hcd
      congr 1
      refine ih hcr hdr fun k => ?_
      have hk := h k
      simp only [lookupCell] at hk
      by_cases hck : c.1 = k
      · rw [← hck, lookupCell_above hca, lookupCell_above hda]
      · simpa [hck] using hk

end Sys2Proof.Machine
end

