-- ==== Sys2Proof/Laws/Chip.lean ====
section
/-! SUPPORT. What the chip does with a write bus cycle (R55, R58, R59, R61): all it can change is `F_MEM`, `F_CMD` and
`F_BUSY_UNTIL`. -/

namespace Sys2Proof.Machine

@[simp] theorem chipAccept_cfg (a : U16) (d : Byte) (s : State) : (chipAccept a d s).cfg = s.cfg := by
  unfold chipAccept; split <;> (try split) <;> rfl
@[simp] theorem chipAccept_outC (a : U16) (d : Byte) (s : State) : (chipAccept a d s).outC = s.outC := by
  unfold chipAccept; split <;> (try split) <;> rfl
@[simp] theorem chipAccept_outS (a : U16) (d : Byte) (s : State) : (chipAccept a d s).outS = s.outS := by
  unfold chipAccept; split <;> (try split) <;> rfl
@[simp] theorem chipAccept_mode (a : U16) (d : Byte) (s : State) : (chipAccept a d s).mode = s.mode := by
  unfold chipAccept; split <;> (try split) <;> rfl
@[simp] theorem chipAccept_timer (a : U16) (d : Byte) (s : State) : (chipAccept a d s).timer = s.timer := by
  unfold chipAccept; split <;> (try split) <;> rfl
@[simp] theorem chipAccept_seq (a : U16) (d : Byte) (s : State) : (chipAccept a d s).seq = s.seq := by
  unfold chipAccept; split <;> (try split) <;> rfl
@[simp] theorem chipAccept_fe (a : U16) (d : Byte) (s : State) : (chipAccept a d s).fe = s.fe := by
  unfold chipAccept; split <;> (try split) <;> rfl
@[simp] theorem chipAccept_chip_tAddr (a : U16) (d : Byte) (s : State) : (chipAccept a d s).chip.tAddr = s.chip.tAddr := by
  unfold chipAccept; split <;> (try split) <;> rfl
@[simp] theorem chipAccept_chip_tRe (a : U16) (d : Byte) (s : State) : (chipAccept a d s).chip.tRe = s.chip.tRe := by
  unfold chipAccept; split <;> (try split) <;> rfl
@[simp] theorem chipAccept_chip_tWe (a : U16) (d : Byte) (s : State) : (chipAccept a d s).chip.tWe = s.chip.tWe := by
  unfold chipAccept; split <;> (try split) <;> rfl
@[simp] theorem chipAccept_now (a : U16) (d : Byte) (s : State) : (chipAccept a d s).now = s.now := by
  unfold chipAccept; split <;> (try split) <;> rfl
@[simp] theorem chipAccept_trace (a : U16) (d : Byte) (s : State) : (chipAccept a d s).trace = s.trace := by
  unfold chipAccept; split <;> (try split) <;> rfl
@[simp] theorem chipAccept_draws (a : U16) (d : Byte) (s : State) : (chipAccept a d s).draws = s.draws := by
  unfold chipAccept; split <;> (try split) <;> rfl
@[simp] theorem chipAccept_issue (a : U16) (d : Byte) (s : State) : (chipAccept a d s).issue = s.issue := by
  unfold chipAccept; split <;> (try split) <;> rfl
@[simp] theorem chipAccept_reN (a : U16) (d : Byte) (s : State) : (chipAccept a d s).reN = s.reN := by
  simp [State.reN]
@[simp] theorem chipAccept_weN (a : U16) (d : Byte) (s : State) : (chipAccept a d s).weN = s.weN := by
  simp [State.weN]
@[simp] theorem chipAccept_addrPins (a : U16) (d : Byte) (s : State) : (chipAccept a d s).addrPins = s.addrPins := by
  simp [State.addrPins, State.ah, State.al]
@[simp] theorem chipAccept_dout (a : U16) (d : Byte) (s : State) : (chipAccept a d s).dout = s.dout := by
  simp [State.dout]
@[simp] theorem chipAccept_unrelC (a : U16) (d : Byte) (s : State) : (chipAccept a d s).unrelC = s.unrelC := by
  simp [State.unrelC]

/-- What the chip's part of a write bus cycle reads of the state: nothing but the chip, the chip times and `now`. -/
theorem chipAccept_chip_congr {s t : State} (a : U16) (d : Byte) (hm : s.chip.mem = t.chip.mem)
    (hc : s.chip.cmd = t.chip.cmd) (hb : s.chip.busyUntil = t.chip.busyUntil) (hn : s.now = t.now)
    (hg : s.cfg = t.cfg) :
    (chipAccept a d s).chip.mem = (chipAccept a d t).chip.mem
      ∧ (chipAccept a d s).chip.cmd = (chipAccept a d t).chip.cmd
      ∧ (chipAccept a d s).chip.busyUntil = (chipAccept a d t).chip.busyUntil := by
  unfold chipAccept
  rw [← hc]
  cases s.chip.cmd <;> simp [chipProgram, chipEraseAll, State.setCmd, hm, hb, hn, hg]
  split <;> simp_all

/-- Outside `Pgm` and the last erase cycle, a write bus cycle moves the recogniser and nothing else. -/
theorem chipAccept_moves (a : U16) (d : Byte) (s : State) (h1 : s.chip.cmd ≠ .pgm) (h2 : s.chip.cmd ≠ .e3) :
    (chipAccept a d s).chip.mem = s.chip.mem ∧ (chipAccept a d s).chip.busyUntil = s.chip.busyUntil := by
  unfold chipAccept
  cases h : s.chip.cmd <;> simp_all [State.setCmd]

/-- The recogniser's next state (R55). -/
def nextCmd (c : ChipCmd) (a : U16) (d : Byte) : ChipCmd :=
  match c with
  | .idle => if a = 0x5555 ∧ d = 0xAA then .u1 else .idle
  | .u1 => if a = 0x2AAA ∧ d = 0x55 then .u2 else .idle
  | .u2 => if a = 0x5555 ∧ d = 0xA0 then .pgm else if a = 0x5555 ∧ d = 0x80 then .e1 else .idle
  | .pgm => .idle
  | .e1 => if a = 0x5555 ∧ d = 0xAA then .e2 else .idle
  | .e2 => if a = 0x2AAA ∧ d = 0x55 then .e3 else .idle
  | .e3 => .idle

theorem chipAccept_cmd (a : U16) (d : Byte) (s : State) :
    (chipAccept a d s).chip.cmd = nextCmd s.chip.cmd a d := by
  unfold chipAccept nextCmd
  cases s.chip.cmd <;> simp only [State.setCmd_chip]
  split <;> rfl

/-- A write bus cycle keeps the flash array in canonical form. -/
theorem chipAccept_wf (a : U16) (d : Byte) (s : State) (h : s.chip.mem.wf = true) :
    (chipAccept a d s).chip.mem.wf = true := by
  unfold chipAccept
  cases s.chip.cmd <;> simp [chipProgram, chipEraseAll, State.setCmd, h, FlashMem.write_wf h]
  split <;> simp [h]

/-- What delivering a write bus cycle can do when it answers a next state. -/
theorem memWrite_eq_next {o : Origin} {a : U16} {d : Byte} {s t : State} :
    memWrite o a d s = .next t ↔ s.chip.busyUntil ≤ s.now ∧ t = chipAccept a d s := by
  unfold memWrite
  split
  · next h => simp [not_le.2 h]
  · next h => simp [not_lt.1 h, eq_comm]

theorem memWrite_idle (o : Origin) (a : U16) (d : Byte) (s : State) (h : s.chip.busyUntil ≤ s.now) :
    memWrite o a d s = .next (chipAccept a d s) := memWrite_eq_next.2 ⟨h, rfl⟩

end Sys2Proof.Machine
end

