-- ==== Sys2Proof/Laws/Timer.lean ====
section
/-! SUPPORT. The delay timer (R101 to R103): what the busy-wait leaves, from the timer agent's single step. -/

namespace Sys2Proof.Machine

theorem Timer.ticks_stopped (k : Nat) (t : Timer) (h : t.run = false) : Timer.ticks k t = t := by
  induction k with
  | zero => rfl
  | succ k ih => simp [Timer.ticks, Timer.tick, h, ih]

/-- While the count is not reached, `k` ticks count down by `k`. -/
theorem Timer.ticks_running (k : Nat) (c : U16) (e : Bool) (h : k < c.toNat) :
    Timer.ticks k { cnt := c, run := true, exp := e } = { cnt := c - BitVec.ofNat 16 k, run := true, exp := e } := by
  induction k generalizing c with
  | zero => simp [Timer.ticks]
  | succ k ih =>
    have hc : ¬ c = 0 := by rintro rfl; simp at h
    have hone : (1 : U16).toNat = 1 := rfl
    have h1 : (c - 1).toNat = c.toNat - 1 := by
      have := c.isLt
      rw [BitVec.toNat_sub, hone]
      omega
    have hc1 : ¬ c - 1 = 0 := by
      intro h0
      have : (c - 1).toNat = 0 := by rw [h0]; rfl
      omega
    have hk : k < (c - 1).toNat := by omega
    have hs : c - BitVec.ofNat 16 (k + 1) = c - 1 - BitVec.ofNat 16 k := by
      apply BitVec.eq_of_toNat_eq
      have := c.isLt
      rw [BitVec.toNat_sub, BitVec.toNat_sub, h1, BitVec.toNat_ofNat, BitVec.toNat_ofNat]
      omega
    simp only [Timer.ticks, Timer.tick, hc, hc1, if_true, if_false]
    rw [ih (c - 1) hk, hs]

/-- The last tick sets the flag and stops the run (one-shot, R102). -/
theorem Timer.ticks_expired (c : U16) (e : Bool) (h : c ≠ 0) :
    Timer.ticks c.toNat { cnt := c, run := true, exp := e } = { cnt := 0, run := false, exp := true } := by
  have hpos : 0 < c.toNat := by
    rcases Nat.eq_zero_or_pos c.toNat with h0 | h0
    · exact absurd (BitVec.eq_of_toNat_eq (by simpa using h0)) h
    · exact h0
  obtain ⟨k, hk⟩ : ∃ k, c.toNat = k + 1 := ⟨c.toNat - 1, by omega⟩
  have hadd : ∀ (m n : Nat) (t : Timer), Timer.ticks (m + n) t = Timer.ticks n (Timer.ticks m t) := by
    intro m n
    induction m with
    | zero => intro t; simp [Timer.ticks]
    | succ m ih => intro t; rw [Nat.succ_add]; exact ih _
  rw [hk, hadd k 1, Timer.ticks_running k c e (by omega)]
  have h1 : c - BitVec.ofNat 16 k = 1 := by
    apply BitVec.eq_of_toNat_eq
    have := c.isLt
    have hone : (1 : U16).toNat = 1 := rfl
    rw [BitVec.toNat_sub, BitVec.toNat_ofNat, hone]
    omega
  rw [h1]
  cases e <;> decide

/-- The timer after WAIT n (R101 "State after", R103): the same for every `TICKS_PER_MS`. -/
theorem Timer.afterWait_eq (t : Timer) (tpm : Nat) (n : U16) :
    t.afterWait tpm n = if n = 0 then { t with exp := false } else { cnt := 0, run := false, exp := false } := by
  unfold Timer.afterWait
  split
  · rfl
  · by_cases hc : BitVec.ofNat 16 (n.toNat * tpm) = 0
    · simp [Timer.arm, hc, Timer.ticks, Timer.tick, Timer.clear]
    · have h1 : max 1 (BitVec.ofNat 16 (n.toNat * tpm)).toNat = (BitVec.ofNat 16 (n.toNat * tpm)).toNat := by
        refine max_eq_right (Nat.pos_of_ne_zero fun h0 => hc (BitVec.eq_of_toNat_eq ?_))
        simpa using h0
      simp only [Timer.arm, h1, Timer.ticks_expired _ t.exp hc]
      rfl

/-- An idle timer with its flag clear stays so. -/
theorem Timer.afterWait_idle (tpm : Nat) (n : U16) :
    Timer.afterWait { cnt := 0, run := false, exp := false } tpm n = { cnt := 0, run := false, exp := false } := by
  simp [Timer.afterWait_eq]

/-! ### How long a wait lasts (R105) -/

theorem State.waitTime_ge (s : State) (n : U16) : (n.toNat : Time) ≤ s.waitTime n := by
  unfold State.waitTime
  split
  · next h => simp [h]
  · exact le_max_left _ _

theorem State.waitTime_nonneg (s : State) (n : U16) : 0 ≤ s.waitTime n :=
  le_trans (by positivity) (s.waitTime_ge n)

@[simp] theorem State.waitTime_zero (s : State) : s.waitTime 0 = 0 := rfl

end Sys2Proof.Machine
end

