-- ==== Sys2Proof/Laws/Pulse.lean ====
section
/-! SUPPORT. Runs of micro-operations, and PULSE (R131): from idle lines it delivers exactly one well-formed write bus
cycle. -/

namespace Sys2Proof.Machine

@[simp] theorem runMicros_nil (s : State) : runMicros [] s = .next s := rfl
@[simp] theorem runMicros_cons (u : MicroOp) (us : List MicroOp) (s : State) :
    runMicros (u :: us) s = andThen (runMicro u s) (runMicros us) := rfl

theorem andThen_assoc (r : Result) (f g : State → Result) :
    andThen (andThen r f) g = andThen r (fun s => andThen (f s) g) := by
  cases r <;> rfl

theorem runMicros_append (us vs : List MicroOp) (s : State) :
    runMicros (us ++ vs) s = andThen (runMicros us s) (runMicros vs) := by
  induction us generalizing s with
  | nil => rfl
  | cons u us ih =>
    simp only [List.cons_append, runMicros_cons, andThen_assoc]
    congr 1
    funext t
    exact ih t

/-! ### Micro-operations that pass their checks -/

theorem runMicro_setMode (m : BusMode) (s : State) (hr : s.reN = true) (hw : s.weN = true ∨ m = .write) :
    runMicro (.setMode m) s = .next (afterSetMode m s) := pinCheck_reHigh _ _ (by simpa using hr) (by simpa using hw)

theorem runMicro_drvAddr (v : U16) (s : State) (hr : s.reN = true) (hw : s.weN = true) :
    runMicro (.drvAddr v) s = .next (afterDrvAddr v s) := by
  simpa [runMicro, execDrvAddr, hw] using pinCheck_reHigh _ (afterDrvAddr v s) (by simpa using hr) (.inl (by simpa using hw))

theorem runMicro_drvData (v : Byte) (s : State) (hr : s.reN = true) (hw : s.weN = true) :
    runMicro (.drvData v) s = .next (afterDrvData v s) := by
  simpa [runMicro, execDrvData, hw] using pinCheck_reHigh _ (afterDrvData v s) (by simpa using hr) (.inl (by simpa using hw))

theorem runMicro_wait (n : U16) (s : State) (hr : s.reN = true) (hw : s.weN = true ∨ s.mode = .write) :
    runMicro (.wait n) s = .next (afterWait n s) := pinCheck_reHigh _ _ (by simpa using hr) (by simpa using hw)

theorem runMicro_assertWe (s : State) (hr : s.reN = true) (hm : s.mode = .write) :
    runMicro (.setWe true) s = .next (afterSetWe true s) := by
  simp [runMicro, execSetWe, pinCheck_reHigh, hr, hm]

theorem runMicro_releaseRe (s : State) (hw : s.weN = true ∨ s.mode = .write) :
    runMicro (.setRe false) s = .next (afterSetRe false s) := pinCheck_reHigh _ _ (by simp) (by simpa using hw)

theorem runMicro_releaseWe_idle (s : State) (hr : s.reN = true) (hw : s.weN = true) :
    runMicro (.setWe false) s = .next (afterSetWe false s) := by
  simpa [runMicro, execSetWe, hw] using
    pinCheck_reHigh (.setWe false) (afterSetWe false s) (by simpa using hr) (.inl (by simp))

theorem runMicro_releaseWe_cycle (s : State) (hr : s.reN = true) (hw : s.weN = false)
    (hc : s.cycleWellFormed = true) (hb : s.chip.busyUntil ≤ s.now) :
    runMicro (.setWe false) s = .next (chipAccept s.addrPins s.dout (afterSetWe false s)) := by
  have h1 : memWrite (.uop (.setWe false)) s.addrPins s.dout (afterSetWe false s) =
      .next (chipAccept s.addrPins s.dout (afterSetWe false s)) := memWrite_idle _ _ _ _ (by simpa using hb)
  simp [runMicro, execSetWe, hw, hc, h1, pinCheck_reHigh, hr]

/-- The state PULSE leaves. -/
def afterPulse (a : U16) (d : Byte) (s : State) : State :=
  chipAccept a d (afterSetWe false (afterWait s.cfg.tWeHold (afterSetWe true (afterDrvData d
    (afterDrvAddr a (afterSetMode .write s))))))

/-- How long a PULSE lasts: its hold (R131). -/
def pulseTime (a : U16) (d : Byte) (s : State) : Time :=
  (afterSetWe true (afterDrvData d (afterDrvAddr a (afterSetMode .write s)))).waitTime s.cfg.tWeHold

theorem pulseTime_ge (a : U16) (d : Byte) (s : State) : (s.cfg.tWeHold.toNat : Time) ≤ pulseTime a d s :=
  State.waitTime_ge _ _

/-- PULSE from idle lines (R131): under `T_WP ≤ T_WE_HOLD` (R217) and with the chip no longer busy when the pulse
ends, it runs to its end and delivers one write bus cycle. -/
theorem execPulse_next (a : U16) (d : Byte) (s : State) (hr : s.reN = true) (hw : s.weN = true)
    (hwp : s.cfg.tWp ≤ (s.cfg.tWeHold.toNat : Time)) (hb : s.chip.busyUntil ≤ s.now + pulseTime a d s) :
    execPulse a d s = .next (afterPulse a d s) := by
  have hge := pulseTime_ge a d s
  unfold pulseTime at hge hb
  have e1 := runMicro_setMode .write s hr (.inr rfl)
  have e2 := runMicro_drvAddr a (afterSetMode .write s) (by simpa using hr) (by simpa using hw)
  have e3 := runMicro_drvData d (afterDrvAddr a (afterSetMode .write s)) (by simpa using hr) (by simpa using hw)
  have e4 := runMicro_assertWe (afterDrvData d (afterDrvAddr a (afterSetMode .write s))) (by simpa using hr) (by simp)
  have e5 := runMicro_wait s.cfg.tWeHold
    (afterSetWe true (afterDrvData d (afterDrvAddr a (afterSetMode .write s)))) (by simpa using hr) (by simp)
  have e6 := runMicro_releaseWe_cycle
    (afterWait s.cfg.tWeHold (afterSetWe true (afterDrvData d (afterDrvAddr a (afterSetMode .write s)))))
    (by simpa using hr) (by simp)
    (by simp [State.cycleWellFormed, hr, hw]; linarith)
    (by simpa using hb)
  simp only [execPulse, pulseOps, runMicros_cons, runMicros_nil, e1, e2, e3, e4, e5, e6, andThen_next]
  simp [afterPulse]

/-! ### `afterPulse` (R131 postcondition, R136) -/

@[simp] theorem afterPulse_reN (a : U16) (d : Byte) (s : State) : (afterPulse a d s).reN = s.reN := by
  simp [afterPulse]
@[simp] theorem afterPulse_weN (a : U16) (d : Byte) (s : State) : (afterPulse a d s).weN = true := by
  simp [afterPulse]
@[simp] theorem afterPulse_addrPins (a : U16) (d : Byte) (s : State) : (afterPulse a d s).addrPins = a := by
  simp [afterPulse]
@[simp] theorem afterPulse_dout (a : U16) (d : Byte) (s : State) : (afterPulse a d s).dout = d := by
  simp [afterPulse]
@[simp] theorem afterPulse_unrelC (a : U16) (d : Byte) (s : State) : (afterPulse a d s).unrelC = s.unrelC := by
  simp [afterPulse]
@[simp] theorem afterPulse_cfg (a : U16) (d : Byte) (s : State) : (afterPulse a d s).cfg = s.cfg := by
  simp [afterPulse]
@[simp] theorem afterPulse_mode (a : U16) (d : Byte) (s : State) : (afterPulse a d s).mode = .write := by
  simp [afterPulse]
@[simp] theorem afterPulse_timer (a : U16) (d : Byte) (s : State) : (afterPulse a d s).timer = s.timer.afterWait s.cfg.ticksPerMs s.cfg.tWeHold := by
  simp [afterPulse]
@[simp] theorem afterPulse_seq (a : U16) (d : Byte) (s : State) : (afterPulse a d s).seq = s.seq := by
  simp [afterPulse]
@[simp] theorem afterPulse_fe (a : U16) (d : Byte) (s : State) : (afterPulse a d s).fe = s.fe := by
  simp [afterPulse]
@[simp] theorem afterPulse_chip_tAddr (a : U16) (d : Byte) (s : State) : (afterPulse a d s).chip.tAddr = if s.addrPins = a then s.chip.tAddr else s.now := by
  simp [afterPulse]
@[simp] theorem afterPulse_chip_tRe (a : U16) (d : Byte) (s : State) : (afterPulse a d s).chip.tRe = s.chip.tRe := by
  simp [afterPulse]
@[simp] theorem afterPulse_now (a : U16) (d : Byte) (s : State) : (afterPulse a d s).now = s.now + pulseTime a d s := by
  simp [afterPulse, pulseTime]
@[simp] theorem afterPulse_issue (a : U16) (d : Byte) (s : State) : (afterPulse a d s).issue = s.issue := by
  simp [afterPulse]

/-- The events of a PULSE, in order (R131). -/
def pulseEvents (a : U16) (d : Byte) (s : State) : List Stamped :=
  [⟨s.now, .mode .write⟩, ⟨s.now, .addrHi (a.extractLsb' 8 8)⟩, ⟨s.now, .addrLo (a.extractLsb' 0 8)⟩,
    ⟨s.now, .data d⟩, ⟨s.now, .we false⟩, ⟨s.now, .waitBegin s.cfg.tWeHold⟩,
    ⟨s.now + pulseTime a d s, .waitEnd s.cfg.tWeHold⟩, ⟨s.now + pulseTime a d s, .we true⟩]

@[simp] theorem afterPulse_trace (a : U16) (d : Byte) (s : State) :
    (afterPulse a d s).trace = s.trace ++ pulseEvents a d s := by
  simp [afterPulse, pulseEvents, pulseTime]

/-- The chip after a PULSE is the chip after one write bus cycle at the rising edge (R52). -/
theorem afterPulse_chip (a : U16) (d : Byte) (s : State) :
    (afterPulse a d s).chip.mem = (chipAccept a d { s with now := s.now + pulseTime a d s }).chip.mem
      ∧ (afterPulse a d s).chip.cmd = (chipAccept a d { s with now := s.now + pulseTime a d s }).chip.cmd
      ∧ (afterPulse a d s).chip.busyUntil =
        (chipAccept a d { s with now := s.now + pulseTime a d s }).chip.busyUntil :=
  chipAccept_chip_congr a d (by simp) (by simp) (by simp) (by simp [pulseTime]) (by simp)

end Sys2Proof.Machine
end

