-- ==== Sys2Proof/Laws/Sequencer.lean ====
section
/-! SUPPORT. The sequencer (R20, R130): running an operation one micro-operation a step is running its micro-program,
since no micro-operation reads or writes the sequencer's latches. -/

namespace Sys2Proof.Machine

/-- `s` with other sequencer latches. -/
def State.withSeq (s : State) (q : Sequencer) : State := { s with seq := q }

@[simp] theorem State.withSeq_seq (s : State) (q : Sequencer) : (s.withSeq q).seq = q := rfl
@[simp] theorem State.withSeq_self (s : State) : s.withSeq s.seq = s := rfl
@[simp] theorem State.withSeq_withSeq (s : State) (q r : Sequencer) : (s.withSeq q).withSeq r = s.withSeq r := rfl
@[simp] theorem State.withSeq_cfg (s : State) (q : Sequencer) : (s.withSeq q).cfg = s.cfg := rfl
@[simp] theorem State.withSeq_sampled (s : State) (q : Sequencer) : (s.withSeq q).sampled = s.sampled := rfl

/-- A result mapped under `next`. -/
def mapNext (f : State → State) (r : Result) : Result := andThen r (fun t => .next (f t))

@[simp] theorem mapNext_next (f : State → State) (s : State) : mapNext f (.next s) = .next (f s) := rfl
@[simp] theorem mapNext_fault (f : State → State) (e : Fault) : mapNext f (.fault e) = .fault e := rfl
@[simp] theorem mapNext_refused (f : State → State) (e : Refusal) : mapNext f (.refused e) = .refused e := rfl

theorem andThen_mapNext (f : State → State) (r : Result) (g : State → Result) :
    andThen (mapNext f r) g = andThen r (fun t => g (f t)) := by
  cases r <;> rfl

theorem mapNext_andThen (f : State → State) (r : Result) (g : State → Result) :
    mapNext f (andThen r g) = andThen r (fun t => mapNext f (g t)) := by
  cases r <;> rfl

theorem mapNext_mapNext (f g : State → State) (r : Result) : mapNext f (mapNext g r) = mapNext (f ∘ g) r := by
  cases r <;> rfl

/-! ### No micro-operation touches the latches -/

theorem pinCheck_withSeq (u : MicroOp) (s : State) (q : Sequencer) :
    pinCheck u (s.withSeq q) = mapNext (State.withSeq · q) (pinCheck u s) := by
  have h1 : (s.withSeq q).pinsUndefined = s.pinsUndefined := rfl
  have h2 : (s.withSeq q).contention = s.contention := rfl
  have h3 : (s.withSeq q).now = s.now := rfl
  unfold pinCheck
  rw [h1, h2, h3]
  split
  · rfl
  · split <;> rfl

theorem chipAccept_withSeq (a : U16) (d : Byte) (s : State) (q : Sequencer) :
    chipAccept a d (s.withSeq q) = (chipAccept a d s).withSeq q := by
  unfold chipAccept
  have h : (s.withSeq q).chip = s.chip := rfl
  rw [h]
  split <;> (try split) <;> rfl

theorem memWrite_withSeq (o : Origin) (a : U16) (d : Byte) (s : State) (q : Sequencer) :
    memWrite o a d (s.withSeq q) = mapNext (State.withSeq · q) (memWrite o a d s) := by
  unfold memWrite
  have h : (s.withSeq q).chip = s.chip := rfl
  have h3 : (s.withSeq q).now = s.now := rfl
  rw [h, h3, chipAccept_withSeq]
  split <;> rfl

theorem runMicro_withSeq (u : MicroOp) (s : State) (q : Sequencer) :
    runMicro u (s.withSeq q) = mapNext (State.withSeq · q) (runMicro u s) := by
  cases u with
  | setMode m => exact pinCheck_withSeq _ (afterSetMode m s) q
  | drvAddr v =>
    have h1 : (s.withSeq q).weN = s.weN := rfl
    have h2 : (s.withSeq q).now = s.now := rfl
    simp only [runMicro, execDrvAddr, h1, h2]
    split
    · rfl
    · exact pinCheck_withSeq _ (afterDrvAddr v s) q
  | drvData v =>
    have h1 : (s.withSeq q).weN = s.weN := rfl
    have h2 : (s.withSeq q).now = s.now := rfl
    simp only [runMicro, execDrvData, h1, h2]
    split
    · rfl
    · exact pinCheck_withSeq _ (afterDrvData v s) q
  | sample =>
    have h : afterSample (s.withSeq q) = (afterSample s).withSeq q := by
      simp only [afterSample_eq]; rfl
    simp only [runMicro, execSample, h]
    exact pinCheck_withSeq _ (afterSample s) q
  | setRe b => exact pinCheck_withSeq _ (afterSetRe b s) q
  | setWe b =>
    have h1 : (s.withSeq q).weN = s.weN := rfl
    have h2 : (s.withSeq q).cycleWellFormed = s.cycleWellFormed := rfl
    have h3 : (s.withSeq q).now = s.now := rfl
    have h4 : afterSetWe b (s.withSeq q) = (afterSetWe b s).withSeq q := rfl
    have h5 : (s.withSeq q).addrPins = s.addrPins := rfl
    have h6 : (s.withSeq q).dout = s.dout := rfl
    simp only [runMicro, execSetWe, h1, h2, h3, h4, h5, h6, memWrite_withSeq, pinCheck_withSeq]
    split
    · split
      · rw [andThen_mapNext, mapNext_andThen]
        congr 1
        funext t
        exact pinCheck_withSeq _ t q
      · rfl
    · rfl
  | wait n =>
    have h : afterWait n (s.withSeq q) = (afterWait n s).withSeq q := by
      have hd : (s.withSeq q).draws = s.draws := rfl
      simp only [afterWait, State.dropElapsed, State.emit_draws, hd]
      split
      · rfl
      · split <;> rfl
    simp only [runMicro, execWait, h]
    exact pinCheck_withSeq _ (afterWait n s) q

/-- What a micro-operation leaves unchanged whenever it answers a next state: the parameters, the latches, the front
end and the issue queue. -/
theorem runMicro_frame {u : MicroOp} {s t : State} (h : runMicro u s = .next t) :
    t.cfg = s.cfg ∧ t.seq = s.seq ∧ t.fe = s.fe ∧ t.issue = s.issue ∧ t.unrelC = s.unrelC := by
  cases u with
  | setMode m => obtain ⟨rfl, -, -⟩ := pinCheck_eq_next.1 h; simp
  | drvAddr v =>
    simp only [runMicro, execDrvAddr] at h
    split at h
    · exact absurd h (by simp)
    · obtain ⟨rfl, -, -⟩ := pinCheck_eq_next.1 h; simp
  | drvData v =>
    simp only [runMicro, execDrvData] at h
    split at h
    · exact absurd h (by simp)
    · obtain ⟨rfl, -, -⟩ := pinCheck_eq_next.1 h; simp
  | sample => obtain ⟨rfl, -, -⟩ := pinCheck_eq_next.1 h; simp
  | setRe b => obtain ⟨rfl, -, -⟩ := pinCheck_eq_next.1 h; simp
  | setWe b =>
    simp only [runMicro, execSetWe] at h
    split at h
    · split at h
      · obtain ⟨w, hw, hp⟩ := andThen_eq_next.1 h
        obtain ⟨-, rfl⟩ := memWrite_eq_next.1 hw
        obtain ⟨rfl, -, -⟩ := pinCheck_eq_next.1 hp
        simp
      · exact absurd h (by simp)
    · obtain ⟨rfl, -, -⟩ := pinCheck_eq_next.1 h; simp
  | wait n => obtain ⟨rfl, -, -⟩ := pinCheck_eq_next.1 h; simp

/-! ### The micro-program as a list -/

/-- Micro-operations of a micro-program in order, SAMPLE latching `SEQ_RDATA`. -/
def runSeqMicros : List MicroOp → State → Result
  | [], s => .next s
  | u :: us, s => andThen (runSeqMicro u s) (runSeqMicros us)

/-- `SEQ_UPC <- n`. -/
def State.setUpc (s : State) (n : Nat) : State := { s with seq.upc := n }

/-- The end of an operation (R130): `SEQ_UPC` past the last index, `SEQ_BUSY <- 0`. -/
def State.seqDone (s : State) (n : Nat) : State := { s with seq.upc := n, seq.busy := false }

theorem runSeqMicro_setUpc (u : MicroOp) (s : State) (n : Nat) :
    runSeqMicro u (s.setUpc n) = mapNext (State.setUpc · n) (runSeqMicro u s) := by
  have hs : s.setUpc n = s.withSeq { s.seq with upc := n } := rfl
  have hr : ∀ w, runMicro w (s.setUpc n) = mapNext (State.setUpc · n) (runMicro w s) := by
    intro w
    rw [hs, runMicro_withSeq]
    cases h : runMicro w s with
    | next t =>
      have hq := (runMicro_frame h).2.1
      simp only [mapNext_next, State.setUpc, State.withSeq, hq]
    | fault e => rfl
    | refused e => rfl
  cases u with
  | sample =>
    simp only [runSeqMicro, hr, andThen_mapNext, mapNext_andThen]
    rfl
  | setMode m => exact hr (.setMode m)
  | drvAddr v => exact hr (.drvAddr v)
  | drvData v => exact hr (.drvData v)
  | setRe b => exact hr (.setRe b)
  | setWe b => exact hr (.setWe b)
  | wait k => exact hr (.wait k)

theorem runSeqMicros_setUpc (us : List MicroOp) (s : State) (n : Nat) :
    runSeqMicros us (s.setUpc n) = mapNext (State.setUpc · n) (runSeqMicros us s) := by
  induction us generalizing s with
  | nil => rfl
  | cons u us ih =>
    simp only [runSeqMicros, runSeqMicro_setUpc, andThen_mapNext, mapNext_andThen]
    congr 1
    funext t
    exact ih t

/-- What a micro-operation of a micro-program leaves of the latches: all but `SEQ_RDATA`. -/
theorem runSeqMicro_frame {u : MicroOp} {s t : State} (h : runSeqMicro u s = .next t) :
    t.cfg = s.cfg ∧ t.seq = { s.seq with rdata := t.seq.rdata } ∧ t.fe = s.fe ∧ t.issue = s.issue
      ∧ t.unrelC = s.unrelC := by
  have plain : ∀ {w : State}, runMicro u s = .next w →
      w.cfg = s.cfg ∧ w.seq = { s.seq with rdata := w.seq.rdata } ∧ w.fe = s.fe ∧ w.issue = s.issue
        ∧ w.unrelC = s.unrelC := by
    intro w hw
    have hf := runMicro_frame hw
    exact ⟨hf.1, by rw [hf.2.1], hf.2.2⟩
  cases u with
  | sample =>
    simp only [runSeqMicro] at h
    obtain ⟨w, hw, he⟩ := andThen_eq_next.1 h
    have hf := runMicro_frame hw
    have he' : t = { w with seq.rdata := s.sampled } := by simpa using he.symm
    subst he'
    exact ⟨hf.1, by simp [hf.2.1], hf.2.2⟩
  | setMode m => exact plain h
  | drvAddr v => exact plain h
  | drvData v => exact plain h
  | setRe b => exact plain h
  | setWe b => exact plain h
  | wait n => exact plain h

/-- Draining a busy sequencer is running the rest of its micro-program. -/
theorem seqDrain_busy (us : List MicroOp) :
    ∀ (fuel : Nat) (s : State), s.seq.busy = true → s.program.drop s.seq.upc = us →
      s.seq.upc ≤ s.program.length → us.length < fuel →
      seqDrain fuel s = mapNext (State.seqDone · s.program.length) (runSeqMicros us s) := by
  induction us with
  | nil =>
    intro fuel s hb hd hle hf
    obtain ⟨n, rfl⟩ : ∃ n, fuel = n + 1 := ⟨fuel - 1, by simp at hf; omega⟩
    have hlen : s.program.length ≤ s.seq.upc := List.drop_eq_nil_iff.1 hd
    have hupc : s.seq.upc = s.program.length := by omega
    have hnone : s.program[s.seq.upc]? = none := List.getElem?_eq_none hlen
    simp only [seqDrain, hb, if_true, seqStep, hnone, andThen_next, runSeqMicros, mapNext_next]
    have : seqDrain n { s with seq.busy := false } = .next { s with seq.busy := false } := by
      cases n <;> rfl
    rw [this]
    simp only [State.seqDone, ← hupc]
  | cons u us ih =>
    intro fuel s hb hd hle hf
    obtain ⟨n, rfl⟩ : ∃ n, fuel = n + 1 := ⟨fuel - 1, by simp at hf; omega⟩
    have hlt : s.seq.upc < s.program.length := by
      rcases Nat.lt_or_ge s.seq.upc s.program.length with h | h
      · exact h
      · rw [List.drop_eq_nil_of_le h] at hd; simp at hd
    have hget := List.drop_eq_getElem_cons hlt
    rw [hd] at hget
    obtain ⟨hu, hus⟩ := List.cons.inj hget
    have hsome : s.program[s.seq.upc]? = some u := by rw [List.getElem?_eq_getElem hlt, hu]
    simp only [seqDrain, hb, if_true, seqStep, hsome, runSeqMicros]
    cases h : runSeqMicro u s with
    | fault e => rfl
    | refused e => rfl
    | next t =>
      have hf' := runSeqMicro_frame h
      simp only [andThen_next]
      have hseq : t.seq = { s.seq with rdata := t.seq.rdata } := hf'.2.1
      have hprog : State.program { t with seq.upc := s.seq.upc + 1 } = s.program := by
        simp only [State.program]
        rw [hf'.1, hseq]
      have := ih n (t.setUpc (s.seq.upc + 1)) (by simp only [State.setUpc]; rw [hseq]; exact hb)
        (by rw [show (t.setUpc (s.seq.upc + 1)).program = s.program from hprog]; exact hus.symm)
        (by rw [show (t.setUpc (s.seq.upc + 1)).program = s.program from hprog]; exact hlt)
        (by simp at hf; omega)
      rw [show (t.setUpc (s.seq.upc + 1)).program = s.program from hprog, runSeqMicros_setUpc,
        mapNext_mapNext] at this
      exact this

theorem microProgram_length (cfg : Config) (op : SeqOp) (a : U16) (b : Byte) :
    (microProgram cfg op a b).length = match op with
      | .readByte => 8
      | .writeByte => 26
      | .eraseChip => 37 := by
  cases op <;> rfl

theorem microProgram_length_lt (cfg : Config) (op : SeqOp) (a : U16) (b : Byte) :
    (microProgram cfg op a b).length < seqFuel := by
  cases op <;> simp [microProgram_length, seqFuel]

theorem seqDrain_idle (n : Nat) (s : State) (h : s.seq.busy = false) : seqDrain n s = .next s := by
  cases n <;> simp [seqDrain, h]

/-- A request to an idle sequencer: latch, run the micro-program, done (R130). -/
theorem request_idle (op : SeqOp) (a : U16) (b : Byte) (s : State) (h : s.seq.busy = false) :
    request op a b s =
      mapNext (State.seqDone · (microProgram s.cfg op a b).length)
        (runSeqMicros (microProgram s.cfg op a b) (acceptRequest op a b s)) := by
  unfold request
  rw [seqDrain_idle _ _ h, andThen_next]
  exact seqDrain_busy _ seqFuel (acceptRequest op a b s) rfl rfl (Nat.zero_le _) (microProgram_length_lt _ _ _ _)

/-- A list without SAMPLE runs as plain micro-operations. -/
theorem runSeqMicros_eq (us : List MicroOp) (h : .sample ∉ us) (s : State) : runSeqMicros us s = runMicros us s := by
  induction us generalizing s with
  | nil => rfl
  | cons u us ih =>
    have hu : u ≠ .sample := fun e => h (by simp [e])
    have hus : .sample ∉ us := fun e => h (by simp [e])
    have h1 : runSeqMicro u s = runMicro u s := by
      cases u with
      | sample => exact absurd rfl hu
      | setMode m => rfl
      | drvAddr v => rfl
      | drvData v => rfl
      | setRe b => rfl
      | setWe b => rfl
      | wait n => rfl
    simp only [runSeqMicros, runMicros_cons, h1]
    congr 1
    funext t
    exact ih hus t

end Sys2Proof.Machine
end

