-- ==== Sys2Proof/Laws/DeviceOps.lean ====
section
/-! SUPPORT. READBYTE, WRITEBYTE and ERASECHIP as one step each (R132 to R134, R136): the state each leaves, written as
the chain of what its micro-operations leave. -/

namespace Sys2Proof.Machine

/-! ### READBYTE -/

/-- READBYTE just before its SAMPLE (R141, indices 0 to 5). -/
def readReady (a : U16) (s : State) : State :=
  afterWait s.cfg.tReadSettle (afterSetRe true (afterDrvAddr a (afterSetMode .read (afterSetWe false
    (afterSetRe false s)))))

/-- How long READBYTE takes: its settle delay (R138). -/
def readTime (a : U16) (s : State) : Time :=
  (afterSetRe true (afterDrvAddr a (afterSetMode .read (afterSetWe false (afterSetRe false s))))).waitTime
    s.cfg.tReadSettle

theorem readTime_ge (a : U16) (s : State) : (s.cfg.tReadSettle.toNat : Time) ≤ readTime a s :=
  State.waitTime_ge _ _

@[simp] theorem readReady_mode (a : U16) (s : State) : (readReady a s).mode = .read := by simp [readReady]
@[simp] theorem readReady_reN (a : U16) (s : State) : (readReady a s).reN = false := by simp [readReady]
@[simp] theorem readReady_weN (a : U16) (s : State) : (readReady a s).weN = true := by simp [readReady]
@[simp] theorem readReady_addrPins (a : U16) (s : State) : (readReady a s).addrPins = a := by simp [readReady]
@[simp] theorem readReady_dout (a : U16) (s : State) : (readReady a s).dout = s.dout := by simp [readReady]
@[simp] theorem readReady_unrelC (a : U16) (s : State) : (readReady a s).unrelC = s.unrelC := by simp [readReady]
@[simp] theorem readReady_cfg (a : U16) (s : State) : (readReady a s).cfg = s.cfg := by simp [readReady]
@[simp] theorem readReady_now (a : U16) (s : State) : (readReady a s).now = s.now + readTime a s := by
  simp [readReady, readTime]
@[simp] theorem readReady_timer (a : U16) (s : State) :
    (readReady a s).timer = s.timer.afterWait s.cfg.ticksPerMs s.cfg.tReadSettle := by simp [readReady]
@[simp] theorem readReady_seq (a : U16) (s : State) : (readReady a s).seq = s.seq := by simp [readReady]
@[simp] theorem readReady_fe (a : U16) (s : State) : (readReady a s).fe = s.fe := by simp [readReady]
@[simp] theorem readReady_issue (a : U16) (s : State) : (readReady a s).issue = s.issue := by simp [readReady]
@[simp] theorem readReady_mem (a : U16) (s : State) : (readReady a s).chip.mem = s.chip.mem := by simp [readReady]
@[simp] theorem readReady_cmd (a : U16) (s : State) : (readReady a s).chip.cmd = s.chip.cmd := by simp [readReady]
@[simp] theorem readReady_busyUntil (a : U16) (s : State) : (readReady a s).chip.busyUntil = s.chip.busyUntil := by
  simp [readReady]
@[simp] theorem readReady_tRe (a : U16) (s : State) : (readReady a s).chip.tRe = s.now := by simp [readReady]
@[simp] theorem readReady_tAddr (a : U16) (s : State) :
    (readReady a s).chip.tAddr = if s.addrPins = a then s.chip.tAddr else s.now := by
  have h : (afterSetMode .read (afterSetWe false (afterSetRe false s))).addrPins = s.addrPins := by simp
  simp [readReady]
@[simp] theorem readReady_tWe (a : U16) (s : State) : (readReady a s).chip.tWe = s.chip.tWe := by simp [readReady]

/-- Events of READBYTE (R132). -/
def readEvents (a : U16) (s : State) : List Stamped :=
  [⟨s.now, .re true⟩, ⟨s.now, .we true⟩, ⟨s.now, .mode .read⟩, ⟨s.now, .addrHi (a.extractLsb' 8 8)⟩,
    ⟨s.now, .addrLo (a.extractLsb' 0 8)⟩, ⟨s.now, .re false⟩, ⟨s.now, .waitBegin s.cfg.tReadSettle⟩,
    ⟨s.now + readTime a s, .waitEnd s.cfg.tReadSettle⟩,
    ⟨s.now + readTime a s, .sample (readReady a s).sampled⟩, ⟨s.now + readTime a s, .re true⟩]

theorem readReady_trace (a : U16) (s : State) :
    (readReady a s).trace ++ [⟨s.now + readTime a s, .sample (readReady a s).sampled⟩,
      ⟨s.now + readTime a s, .re true⟩] = s.trace ++ readEvents a s := by
  have : (readReady a s).trace = s.trace ++ [⟨s.now, .re true⟩, ⟨s.now, .we true⟩, ⟨s.now, .mode .read⟩,
      ⟨s.now, .addrHi (a.extractLsb' 8 8)⟩, ⟨s.now, .addrLo (a.extractLsb' 0 8)⟩, ⟨s.now, .re false⟩,
      ⟨s.now, .waitBegin s.cfg.tReadSettle⟩, ⟨s.now + readTime a s, .waitEnd s.cfg.tReadSettle⟩] := by
    simp [readReady, readTime]
  rw [this]
  simp [readEvents]

/-- The state READBYTE's micro-program leaves. -/
def afterReadByte (a : U16) (s : State) : State :=
  afterSetRe false { afterSample (readReady a s) with seq.rdata := (readReady a s).sampled }

/-- READBYTE's micro-program runs to its end from any state with WE# high (R137, R213). -/
theorem runSeqMicros_readByte (a : U16) (b : Byte) (s : State) (hw : s.weN = true) :
    runSeqMicros (microProgram s.cfg .readByte a b) s = .next (afterReadByte a s) := by
  have e1 := runMicro_releaseRe s (.inl hw)
  have e2 := runMicro_releaseWe_idle (afterSetRe false s) (by simp) (by simpa using hw)
  have e3 := runMicro_setMode .read (afterSetWe false (afterSetRe false s)) (by simp) (by simp)
  have e4 := runMicro_drvAddr a (afterSetMode .read (afterSetWe false (afterSetRe false s))) (by simp) (by simp)
  have e5 : runMicro (.setRe true) (afterDrvAddr a (afterSetMode .read (afterSetWe false (afterSetRe false s)))) =
      .next (afterSetRe true (afterDrvAddr a (afterSetMode .read (afterSetWe false (afterSetRe false s))))) :=
    pinCheck_readMode _ _ (by simp) (by simp)
  have e6 : runMicro (.wait s.cfg.tReadSettle)
      (afterSetRe true (afterDrvAddr a (afterSetMode .read (afterSetWe false (afterSetRe false s))))) =
      .next (readReady a s) := pinCheck_readMode _ _ (by simp) (by simp)
  have e7 : runMicro .sample (readReady a s) = .next (afterSample (readReady a s)) :=
    pinCheck_readMode _ _ (by simp) (by simp)
  have e8 : runMicro (.setRe false)
      { afterSample (readReady a s) with seq.rdata := (readReady a s).sampled } = .next (afterReadByte a s) :=
    pinCheck_reHigh _ _ (by simp)
      (.inl ((afterSetRe_weN false _).trans ((afterSample_weN (readReady a s)).trans (by simp))))
  simp only [microProgram, runSeqMicros, runSeqMicro, e1, e2, e3, e4, e5, e6, e7, e8, andThen_next]

/-- READBYTE from an idle sequencer with WE# high. -/
theorem request_readByte (a : U16) (b : Byte) (s : State) (hs : s.seq.busy = false) (hw : s.weN = true) :
    request .readByte a b s = .next ((afterReadByte a (acceptRequest .readByte a b s)).seqDone 8) := by
  rw [request_idle _ _ _ _ hs, microProgram_length]
  have : runSeqMicros (microProgram s.cfg .readByte a b) (acceptRequest .readByte a b s) =
      .next (afterReadByte a (acceptRequest .readByte a b s)) := runSeqMicros_readByte a b _ hw
  rw [this]
  rfl

/-- What the SAMPLE of READBYTE obtains: the array byte, when the settle delay covers the access time and the chip
is not busy at the sample (R132, R57). -/
theorem readReady_sampled (a : U16) (s : State) (hacc : s.cfg.tAcc ≤ (s.cfg.tReadSettle.toNat : Time))
    (hta : s.chip.tAddr ≤ s.now) (hb : s.chip.busyUntil ≤ s.now + readTime a s) :
    (readReady a s).sampled = s.chip.mem.read a := by
  have hge := readTime_ge a s
  have hmax : max s.now (if s.addrPins = a then s.chip.tAddr else s.now) = s.now := by
    split
    · exact max_eq_left hta
    · exact max_self _
  have hv : (readReady a s).sampleValid = true := by
    simp [State.sampleValid, State.chipDrives, hmax, hb]
    linarith
  simp [State.sampled, hv]

/-! ### WRITEBYTE -/

theorem runMicros_pulseOps (h : U16) (a : U16) (d : Byte) (s : State) (hh : s.cfg.tWeHold = h) :
    runMicros (pulseOps h a d) s = execPulse a d s := by
  subst hh; rfl

/-- The first three cycles of WRITEBYTE and of ERASECHIP. -/
def afterUnlock (third : Byte) (s : State) : State :=
  afterPulse 0x5555 third (afterPulse 0x2AAA 0x55 (afterPulse 0x5555 0xAA s))

@[simp] theorem afterUnlock_reN (third : Byte) (s : State) : (afterUnlock third s).reN = s.reN := by
  simp [afterUnlock]
@[simp] theorem afterUnlock_weN (third : Byte) (s : State) : (afterUnlock third s).weN = true := by
  simp [afterUnlock]
@[simp] theorem afterUnlock_mode (third : Byte) (s : State) : (afterUnlock third s).mode = .write := by
  simp [afterUnlock]
@[simp] theorem afterUnlock_addrPins (third : Byte) (s : State) : (afterUnlock third s).addrPins = 0x5555 := by
  simp [afterUnlock]
@[simp] theorem afterUnlock_dout (third : Byte) (s : State) : (afterUnlock third s).dout = third := by
  simp [afterUnlock]
@[simp] theorem afterUnlock_unrelC (third : Byte) (s : State) : (afterUnlock third s).unrelC = s.unrelC := by
  simp [afterUnlock]
@[simp] theorem afterUnlock_cfg (third : Byte) (s : State) : (afterUnlock third s).cfg = s.cfg := by
  simp [afterUnlock]
@[simp] theorem afterUnlock_seq (third : Byte) (s : State) : (afterUnlock third s).seq = s.seq := by
  simp [afterUnlock]
@[simp] theorem afterUnlock_fe (third : Byte) (s : State) : (afterUnlock third s).fe = s.fe := by
  simp [afterUnlock]
@[simp] theorem afterUnlock_issue (third : Byte) (s : State) : (afterUnlock third s).issue = s.issue := by
  simp [afterUnlock]
@[simp] theorem afterUnlock_chip_tRe (third : Byte) (s : State) : (afterUnlock third s).chip.tRe = s.chip.tRe := by
  simp [afterUnlock]

/-- A pulse that is neither a payload nor the last erase cycle keeps the array and the busy window. -/
theorem afterPulse_moves (a : U16) (d : Byte) (s : State) (h1 : s.chip.cmd ≠ .pgm) (h2 : s.chip.cmd ≠ .e3) :
    (afterPulse a d s).chip.mem = s.chip.mem ∧ (afterPulse a d s).chip.busyUntil = s.chip.busyUntil := by
  have hc := afterPulse_chip a d s
  have hm := chipAccept_moves a d { s with now := s.now + pulseTime a d s } h1 h2
  exact ⟨hc.1.trans hm.1, hc.2.2.trans hm.2⟩

theorem afterPulse_cmd (a : U16) (d : Byte) (s : State) :
    (afterPulse a d s).chip.cmd = nextCmd s.chip.cmd a d :=
  (afterPulse_chip a d s).2.1.trans (chipAccept_cmd _ _ _)

/-- The unlock cycles lead from `Idle` to `U2`, then by the third cycle to `Pgm` or `E1` (R55). -/
theorem unlock_cmds (s : State) (hc : s.chip.cmd = .idle) :
    (afterPulse 0x5555 0xAA s).chip.cmd = .u1
      ∧ (afterPulse 0x2AAA 0x55 (afterPulse 0x5555 0xAA s)).chip.cmd = .u2
      ∧ (afterUnlock 0xA0 s).chip.cmd = .pgm ∧ (afterUnlock 0x80 s).chip.cmd = .e1 := by
  have h1 : (afterPulse 0x5555 0xAA s).chip.cmd = .u1 := by
    rw [afterPulse_cmd, hc]; rfl
  have h2 : (afterPulse 0x2AAA 0x55 (afterPulse 0x5555 0xAA s)).chip.cmd = .u2 := by
    rw [afterPulse_cmd, h1]; rfl
  have h3 : (afterUnlock 0xA0 s).chip.cmd = .pgm := by
    rw [afterUnlock, afterPulse_cmd, h2]; rfl
  have h4 : (afterUnlock 0x80 s).chip.cmd = .e1 := by
    rw [afterUnlock, afterPulse_cmd, h2]; rfl
  exact ⟨h1, h2, h3, h4⟩

/-- The premises of a run of write bus cycles: idle lines, the hold covers the chip's pulse width, and the chip is
free by the end of the next pulse (R137, R217). -/
structure PulseReady (s : State) : Prop where
  re : s.reN = true
  we : s.weN = true
  wp : s.cfg.tWp ≤ (s.cfg.tWeHold.toNat : Time)
  free : s.chip.busyUntil ≤ s.now + (s.cfg.tWeHold.toNat : Time)

theorem PulseReady.pulse {s : State} (h : PulseReady s) (a : U16) (d : Byte) :
    execPulse a d s = .next (afterPulse a d s) :=
  execPulse_next a d s h.re h.we h.wp (le_trans h.free (by have := pulseTime_ge a d s; linarith))

theorem PulseReady.afterPulse {s : State} (h : PulseReady s) (a : U16) (d : Byte) (h1 : s.chip.cmd ≠ .pgm)
    (h2 : s.chip.cmd ≠ .e3) : PulseReady (afterPulse a d s) where
  re := by simpa using h.re
  we := by simp
  wp := by simpa using h.wp
  free := by
    rw [(afterPulse_moves a d s h1 h2).2]
    have := pulseTime_ge a d s
    have := h.free
    have h0 : (0 : Time) ≤ (s.cfg.tWeHold.toNat : Time) := by positivity
    simp
    linarith

theorem PulseReady.afterWait {s : State} (h : PulseReady s) (n : U16) : PulseReady (afterWait n s) where
  re := by simpa using h.re
  we := by simpa using h.we
  wp := by simpa using h.wp
  free := by
    have := s.waitTime_nonneg n
    have := h.free
    simp
    linarith

theorem PulseReady.accept {s : State} (h : PulseReady s) (op : SeqOp) (a : U16) (b : Byte) :
    PulseReady (acceptRequest op a b s) := ⟨h.re, h.we, h.wp, h.free⟩

/-- The three unlock cycles from `Idle`, by PULSE. -/
theorem runMicros_unlock (third : Byte) (s : State) (h : PulseReady s) (hc : s.chip.cmd = .idle)
    (rest : List MicroOp) :
    runMicros (pulseOps s.cfg.tWeHold 0x5555 0xAA ++ (pulseOps s.cfg.tWeHold 0x2AAA 0x55
      ++ (pulseOps s.cfg.tWeHold 0x5555 third ++ rest))) s = runMicros rest (afterUnlock third s) := by
  have hu := unlock_cmds s hc
  have r1 := h.afterPulse 0x5555 0xAA (by rw [hc]; decide) (by rw [hc]; decide)
  have r2 := r1.afterPulse 0x2AAA 0x55 (by rw [hu.1]; decide) (by rw [hu.1]; decide)
  rw [runMicros_append, runMicros_pulseOps _ _ _ _ rfl, h.pulse, andThen_next,
    runMicros_append, runMicros_pulseOps _ _ _ _ (by simp), r1.pulse, andThen_next,
    runMicros_append, runMicros_pulseOps _ _ _ _ (by simp), r2.pulse, andThen_next]
  rfl

theorem PulseReady.afterUnlock {s : State} (h : PulseReady s) (hc : s.chip.cmd = .idle) (third : Byte) :
    PulseReady (afterUnlock third s) := by
  have hu := unlock_cmds s hc
  have r1 := h.afterPulse 0x5555 0xAA (by rw [hc]; decide) (by rw [hc]; decide)
  have r2 := r1.afterPulse 0x2AAA 0x55 (by rw [hu.1]; decide) (by rw [hu.1]; decide)
  exact r2.afterPulse 0x5555 third (by rw [hu.2.1]; decide) (by rw [hu.2.1]; decide)

/-- The unlock cycles change neither the array nor the busy window. -/
theorem afterUnlock_moves (s : State) (hc : s.chip.cmd = .idle) (third : Byte) :
    (afterUnlock third s).chip.mem = s.chip.mem ∧ (afterUnlock third s).chip.busyUntil = s.chip.busyUntil := by
  have hu := unlock_cmds s hc
  have m1 := afterPulse_moves 0x5555 0xAA s (by rw [hc]; decide) (by rw [hc]; decide)
  have m2 := afterPulse_moves 0x2AAA 0x55 (afterPulse 0x5555 0xAA s) (by rw [hu.1]; decide) (by rw [hu.1]; decide)
  have m3 := afterPulse_moves 0x5555 third _ (by rw [hu.2.1]; decide) (by rw [hu.2.1]; decide)
  exact ⟨m3.1.trans (m2.1.trans m1.1), m3.2.trans (m2.2.trans m1.2)⟩

/-- WRITEBYTE just before its payload pulse. -/
def writeReady (s : State) : State := afterWait s.cfg.tProgSettle (afterUnlock 0xA0 s)

/-- The state WRITEBYTE's micro-program leaves. -/
def afterWriteByte (a : U16) (b : Byte) (s : State) : State := afterDrvData 0x00 (afterPulse a b (writeReady s))

@[simp] theorem writeReady_reN (s : State) : (writeReady s).reN = s.reN := by simp [writeReady]
@[simp] theorem writeReady_weN (s : State) : (writeReady s).weN = true := by simp [writeReady]
@[simp] theorem writeReady_mode (s : State) : (writeReady s).mode = .write := by simp [writeReady]
@[simp] theorem writeReady_unrelC (s : State) : (writeReady s).unrelC = s.unrelC := by simp [writeReady]
@[simp] theorem writeReady_cfg (s : State) : (writeReady s).cfg = s.cfg := by simp [writeReady]
@[simp] theorem writeReady_seq (s : State) : (writeReady s).seq = s.seq := by simp [writeReady]
@[simp] theorem writeReady_fe (s : State) : (writeReady s).fe = s.fe := by simp [writeReady]
@[simp] theorem writeReady_issue (s : State) : (writeReady s).issue = s.issue := by simp [writeReady]
@[simp] theorem writeReady_chip_tRe (s : State) : (writeReady s).chip.tRe = s.chip.tRe := by simp [writeReady]

theorem writeReady_ready {s : State} (h : PulseReady s) (hc : s.chip.cmd = .idle) : PulseReady (writeReady s) :=
  (h.afterUnlock hc 0xA0).afterWait _

theorem writeReady_cmd (s : State) (hc : s.chip.cmd = .idle) : (writeReady s).chip.cmd = .pgm := by
  simpa [writeReady] using (unlock_cmds s hc).2.2.1

theorem runMicros_writeByte (a : U16) (b : Byte) (s : State) (h : PulseReady s) (hc : s.chip.cmd = .idle) :
    runMicros (microProgram s.cfg .writeByte a b) s = .next (afterWriteByte a b s) := by
  have r := writeReady_ready h hc
  have hu := h.afterUnlock hc 0xA0
  simp only [microProgram, List.append_assoc]
  rw [runMicros_unlock _ _ h hc, List.singleton_append, runMicros_cons, runMicro_wait _ _ hu.re (.inl hu.we), andThen_next,
    runMicros_append, runMicros_pulseOps _ _ _ _ (by simp)]
  have e := r.pulse a b
  unfold writeReady at e
  rw [e, andThen_next, runMicros_cons, runMicro_drvData _ _ (by simpa using h.re) (by simp), andThen_next]
  rfl

theorem request_writeByte (a : U16) (b : Byte) (s : State) (hs : s.seq.busy = false) (h : PulseReady s)
    (hc : s.chip.cmd = .idle) :
    request .writeByte a b s = .next ((afterWriteByte a b (acceptRequest .writeByte a b s)).seqDone 26) := by
  rw [request_idle _ _ _ _ hs, microProgram_length, runSeqMicros_eq _ (by simp [microProgram, pulseOps])]
  have : runMicros (microProgram s.cfg .writeByte a b) (acceptRequest .writeByte a b s) =
      .next (afterWriteByte a b (acceptRequest .writeByte a b s)) :=
    runMicros_writeByte a b _ (h.accept _ _ _) hc
  rw [this]
  rfl

/-! ### ERASECHIP -/

/-- After the first five cycles of ERASECHIP. -/
def eraseReady (s : State) : State := afterPulse 0x2AAA 0x55 (afterPulse 0x5555 0xAA (afterUnlock 0x80 s))

/-- The state ERASECHIP's micro-program leaves. -/
def afterEraseChip (s : State) : State := afterWait s.cfg.tEraseWait (afterPulse 0x5555 0x10 (eraseReady s))

@[simp] theorem eraseReady_reN (s : State) : (eraseReady s).reN = s.reN := by simp [eraseReady]
@[simp] theorem eraseReady_weN (s : State) : (eraseReady s).weN = true := by simp [eraseReady]
@[simp] theorem eraseReady_mode (s : State) : (eraseReady s).mode = .write := by simp [eraseReady]
@[simp] theorem eraseReady_unrelC (s : State) : (eraseReady s).unrelC = s.unrelC := by simp [eraseReady]
@[simp] theorem eraseReady_cfg (s : State) : (eraseReady s).cfg = s.cfg := by simp [eraseReady]
@[simp] theorem eraseReady_seq (s : State) : (eraseReady s).seq = s.seq := by simp [eraseReady]
@[simp] theorem eraseReady_fe (s : State) : (eraseReady s).fe = s.fe := by simp [eraseReady]
@[simp] theorem eraseReady_issue (s : State) : (eraseReady s).issue = s.issue := by simp [eraseReady]
@[simp] theorem eraseReady_chip_tRe (s : State) : (eraseReady s).chip.tRe = s.chip.tRe := by simp [eraseReady]

theorem erase_cmds (s : State) (hc : s.chip.cmd = .idle) :
    (afterPulse 0x5555 0xAA (afterUnlock 0x80 s)).chip.cmd = .e2 ∧ (eraseReady s).chip.cmd = .e3 := by
  have h4 := (unlock_cmds s hc).2.2.2
  have h5 : (afterPulse 0x5555 0xAA (afterUnlock 0x80 s)).chip.cmd = .e2 := by
    rw [afterPulse_cmd, h4]; rfl
  have h6 : (eraseReady s).chip.cmd = .e3 := by
    rw [eraseReady, afterPulse_cmd, h5]; rfl
  exact ⟨h5, h6⟩

theorem eraseReady_ready {s : State} (h : PulseReady s) (hc : s.chip.cmd = .idle) :
    PulseReady (afterPulse 0x5555 0xAA (afterUnlock 0x80 s)) ∧ PulseReady (eraseReady s) := by
  have h4 := (unlock_cmds s hc).2.2.2
  have h5 := (erase_cmds s hc).1
  have r4 := (h.afterUnlock hc 0x80).afterPulse 0x5555 0xAA (by rw [h4]; decide) (by rw [h4]; decide)
  exact ⟨r4, r4.afterPulse 0x2AAA 0x55 (by rw [h5]; decide) (by rw [h5]; decide)⟩

theorem runMicros_eraseChip (a : U16) (b : Byte) (s : State) (h : PulseReady s) (hc : s.chip.cmd = .idle) :
    runMicros (microProgram s.cfg .eraseChip a b) s = .next (afterEraseChip s) := by
  have hu := h.afterUnlock hc 0x80
  have r := eraseReady_ready h hc
  simp only [microProgram, List.append_assoc]
  rw [runMicros_unlock _ _ h hc, runMicros_append, runMicros_pulseOps _ _ _ _ (by simp), hu.pulse, andThen_next,
    runMicros_append, runMicros_pulseOps _ _ _ _ (by simp), r.1.pulse, andThen_next,
    runMicros_append, runMicros_pulseOps _ _ _ _ (by simp)]
  have e := r.2.pulse 0x5555 0x10
  unfold eraseReady at e
  rw [e, andThen_next, runMicros_cons, runMicro_wait _ _ (by simpa using h.re) (by simp), andThen_next]
  rfl

theorem request_eraseChip (a : U16) (b : Byte) (s : State) (hs : s.seq.busy = false) (h : PulseReady s)
    (hc : s.chip.cmd = .idle) :
    request .eraseChip a b s = .next ((afterEraseChip (acceptRequest .eraseChip a b s)).seqDone 37) := by
  rw [request_idle _ _ _ _ hs, microProgram_length, runSeqMicros_eq _ (by simp [microProgram, pulseOps])]
  have : runMicros (microProgram s.cfg .eraseChip a b) (acceptRequest .eraseChip a b s) =
      .next (afterEraseChip (acceptRequest .eraseChip a b s)) :=
    runMicros_eraseChip a b _ (h.accept _ _ _) hc
  rw [this]
  rfl

end Sys2Proof.Machine
end

