-- ==== Sys2Proof/Laws/Encoding.lean ====
section
/-! SUPPORT. Fields of words (R86, R87, R89), bytes of tokens (R42), and what the decoder reads from each kind of word
the encoder writes. -/

namespace Sys2Proof

open Sys2Proof.Machine

/-! ### Fields of appended words -/

theorem extract_append_low {m n : Nat} (a : BitVec m) (b : BitVec n) : (a ++ b).extractLsb' 0 n = b := by
  apply BitVec.eq_of_getLsbD_eq
  intro i hi
  rw [BitVec.getLsbD_extractLsb', BitVec.getLsbD_append]
  simp [hi]

theorem extract_append_high {m n : Nat} (a : BitVec m) (b : BitVec n) (i k : Nat) :
    (a ++ b).extractLsb' (n + i) k = a.extractLsb' i k := by
  apply BitVec.eq_of_getLsbD_eq
  intro j hj
  rw [BitVec.getLsbD_extractLsb', BitVec.getLsbD_extractLsb', BitVec.getLsbD_append]
  have h1 : ¬ n + i + j < n := by omega
  have h2 : n + i + j - n = i + j := by omega
  simp [hj, h1, h2]

theorem extract_append_within {m n : Nat} (a : BitVec m) (b : BitVec n) (i k : Nat) (h : i + k ≤ n) :
    (a ++ b).extractLsb' i k = b.extractLsb' i k := by
  apply BitVec.eq_of_getLsbD_eq
  intro j hj
  rw [BitVec.getLsbD_extractLsb', BitVec.getLsbD_extractLsb', BitVec.getLsbD_append]
  have h1 : i + j < n := by omega
  simp [hj, h1]

theorem extract_whole {m : Nat} (a : BitVec m) : a.extractLsb' 0 m = a := by
  apply BitVec.eq_of_getLsbD_eq
  intro j hj
  simp [hj]

theorem append_extracts {m n : Nat} (w : BitVec (m + n)) : w.extractLsb' n m ++ w.extractLsb' 0 n = w := by
  apply BitVec.eq_of_getLsbD_eq
  intro i hi
  rw [BitVec.getLsbD_append]
  by_cases h : i < n
  · simp [h]
  · have h1 : i - n < m := by omega
    have h2 : n + (i - n) = i := by omega
    simp [h, h1, h2]

/-! ### Words and their fields -/

theorem op_fields (op : BitVec 2) (a : U16) (d : Byte) :
    (op ++ a ++ d : BitVec (2 + 16 + 8)).extractLsb' 24 2 = op ∧ (op ++ a ++ d : BitVec (2 + 16 + 8)).extractLsb' 8 16 = a
      ∧ (op ++ a ++ d : BitVec (2 + 16 + 8)).extractLsb' 0 8 = d := by
  refine ⟨?_, ?_, extract_append_low _ _⟩
  · exact (extract_append_high (op ++ a) d 16 2).trans ((extract_append_high op a 0 2).trans (extract_whole _))
  · exact (extract_append_high (op ++ a) d 0 16).trans (extract_append_low _ _)


theorem decodeOp_append (op : BitVec 2) (a : U16) (d : Byte) (i : Instr)
    (h : (match op.toNat with
      | 0 => Instr.readByte a d
      | 1 => .writeByte d a
      | 2 => .eraseChip a d
      | _ => .opReserved ((op ++ a ++ d : BitVec 26).extractLsb' 0 24)) = i) : decodeOp (op ++ a ++ d) = i := by
  have hf := op_fields op a d
  subst h
  unfold decodeOp
  simp only [hf.1, hf.2.1, hf.2.2]
  all_goals rfl

theorem decodeOp_readByte (a : U16) (d : Byte) : decodeOp ((0 : BitVec 2) ++ a ++ d) = .readByte a d :=
  decodeOp_append 0 a d _ rfl
theorem decodeOp_writeByte (a : U16) (d : Byte) : decodeOp ((1 : BitVec 2) ++ a ++ d) = .writeByte d a :=
  decodeOp_append 1 a d _ rfl
theorem decodeOp_eraseChip (a : U16) (d : Byte) : decodeOp ((2 : BitVec 2) ++ a ++ d) = .eraseChip a d :=
  decodeOp_append 2 a d _ rfl

theorem op3_fields (x : BitVec 24) :
    ((3 : BitVec 2) ++ x : BitVec (2 + 24)).extractLsb' 24 2 = 3 ∧ ((3 : BitVec 2) ++ x : BitVec (2 + 24)).extractLsb' 0 24 = x :=
  ⟨(extract_append_high (3 : BitVec 2) x 0 2).trans (extract_whole _), extract_append_low _ _⟩

theorem decodeOp_reserved (x : BitVec 24) : decodeOp ((3 : BitVec 2) ++ x) = .opReserved x := by
  unfold decodeOp
  simp only [(op3_fields x).1, (op3_fields x).2]
  rfl

theorem uop_fields (c : BitVec 3) (x : U16) :
    (c ++ x : BitVec (3 + 16)).extractLsb' 16 3 = c ∧ (c ++ x : BitVec (3 + 16)).extractLsb' 0 16 = x :=
  ⟨(extract_append_high c x 0 3).trans (extract_whole _), extract_append_low _ _⟩

theorem bus_fields (a : U16) (d : Byte) :
    (a ++ d : BitVec (16 + 8)).extractLsb' 8 16 = a ∧ (a ++ d : BitVec (16 + 8)).extractLsb' 0 8 = d :=
  ⟨(extract_append_high a d 0 16).trans (extract_whole _), extract_append_low _ _⟩

theorem decodeUop_word (u : MicroOp) (inPgm : Bool) : decode inPgm u.word = .ok (microInstr u) := by
  cases u with
  | setMode m => cases m <;> rfl
  | sample => rfl
  | setRe b => cases b <;> rfl
  | setWe b => cases b <;> rfl
  | drvAddr v =>
    have h := uop_fields 1 v
    simp only [MicroOp.word, uopWord, decode, decodeIssue, decodeUop, h.1, h.2]
    rfl
  | wait v =>
    have h := uop_fields 6 v
    simp only [MicroOp.word, uopWord, decode, decodeIssue, decodeUop, h.1, h.2]
    rfl
  | drvData v =>
    have h := uop_fields 2 (v.setWidth 16)
    have h1 : (v.setWidth 16).extractLsb' 8 8 = (0 : Byte) := by
      apply BitVec.eq_of_getLsbD_eq
      intro i hi
      simp [hi]
    have h2 : (v.setWidth 16).extractLsb' 0 8 = v := by
      apply BitVec.eq_of_getLsbD_eq
      intro i hi
      have : i < 16 := by omega
      simp [hi, this]
    simp only [MicroOp.word, uopWord, decode, decodeIssue, decodeUop, h.1, h.2, h1, h2]
    rfl

theorem decodeUop_reserved (x : U16) : decodeUop ((7 : BitVec 3) ++ x) = .ok (.uopReserved x) := by
  have h := uop_fields 7 x
  simp only [decodeUop, h.1, h.2]
  rfl

/-- A word is its fields. -/
theorem op_word (w : BitVec 26) : (w.extractLsb' 24 2 ++ w.extractLsb' 8 16 ++ w.extractLsb' 0 8 : BitVec 26) = w := by
  apply BitVec.eq_of_getLsbD_eq
  intro i hi
  rw [BitVec.getLsbD_append, BitVec.getLsbD_append]
  by_cases h : i < 8
  · simp [h]
  · by_cases h2 : i < 24
    · have h1 : i - 8 < 16 := by omega
      have h3 : 8 + (i - 8) = i := by omega
      simp [h, h1, h3]
    · have h1 : ¬ i - 8 < 16 := by omega
      have h4 : i - 8 - 16 < 2 := by omega
      have h3 : 24 + (i - 8 - 16) = i := by omega
      simp only [h, h1, if_false]
      simp [h3, h4]

theorem toNat2_cases (x : BitVec 2) : x = 0 ∨ x = 1 ∨ x = 2 ∨ x = 3 := by revert x; decide
theorem toNat3_cases (x : BitVec 3) : x = 0 ∨ x = 1 ∨ x = 2 ∨ x = 3 ∨ x = 4 ∨ x = 5 ∨ x = 6 ∨ x = 7 := by revert x; decide

theorem bitArg_getLsbD (x : U16) (h : x.extractLsb' 1 15 = 0) : bitArg (x.getLsbD 0) = x := by
  apply BitVec.eq_of_getLsbD_eq
  intro i hi
  rcases Nat.eq_zero_or_pos i with rfl | hp
  · simp [bitArg]
  · have h2 := congrArg (fun y => y.getLsbD (i - 1)) h
    have h3 : 1 + (i - 1) = i := by omega
    have h4 : i - 1 < 15 := by omega
    have h5 : ¬ i < 1 := by omega
    simp [h3, h4] at h2
    rw [h2]
    simp [bitArg]
    omega

theorem byte_zext (x : U16) (h : x.extractLsb' 8 8 = 0) : (x.extractLsb' 0 8).setWidth 16 = x := by
  apply BitVec.eq_of_getLsbD_eq
  intro i hi
  by_cases hp : i < 8
  · simp [hi, hp]
  · have h2 := congrArg (fun y => y.getLsbD (i - 8)) h
    have h3 : 8 + (i - 8) = i := by omega
    have h4 : i - 8 < 8 := by omega
    simp [h3, h4] at h2
    rw [h2]
    simp [hp]

theorem bitOfMode_modeOfBit (b : Bool) : bitOfMode (modeOfBit b) = b := by cases b <;> rfl

theorem uop_word (w : BitVec 19) : (w.extractLsb' 16 3 ++ w.extractLsb' 0 16 : BitVec 19) = w :=
  append_extracts (m := 3) (n := 16) w
theorem bus_word (w : BitVec 24) : (w.extractLsb' 8 16 ++ w.extractLsb' 0 8 : BitVec 24) = w :=
  append_extracts (m := 16) (n := 8) w


/-! ### Bytes of tokens -/

theorem beNat_append (bs : List Byte) (b : Byte) : beNat (bs ++ [b]) = 256 * beNat bs + b.toNat := by
  simp [beNat]
theorem beBytes_length (n w : Nat) : (beBytes n w).length = n := by
  induction n generalizing w with
  | zero => rfl
  | succ n ih => simp [beBytes, ih]
theorem beNat_beBytes (n w : Nat) : beNat (beBytes n w) = w % 256 ^ n := by
  induction n generalizing w with
  | zero => simp [beBytes, beNat, Nat.mod_one]
  | succ n ih =>
    have h8 : w % 2 ^ 8 = w % 256 := rfl
    rw [beBytes, beNat_append, ih, BitVec.toNat_ofNat, h8, pow_succ, mul_comm (256 ^ n) 256, Nat.mod_mul]
    omega
theorem decodeBytes_h8 (w : BitVec 64) : decodeBytes (beBytes 8 w.toNat) = .ok (decodeH8 w) := by
  have h := w.isLt
  have : BitVec.ofNat 64 (w.toNat % 256 ^ 8) = w := by
    apply BitVec.eq_of_toNat_eq; rw [BitVec.toNat_ofNat]; omega
  simp only [decodeBytes, beBytes_length, if_true, beNat_beBytes, this]
theorem decodeBytes_h4 (w : BitVec 32) : decodeBytes (beBytes 4 w.toNat) = .ok (decodeH4 w) := by
  have h := w.isLt
  have : BitVec.ofNat 32 (w.toNat % 256 ^ 4) = w := by
    apply BitVec.eq_of_toNat_eq; rw [BitVec.toNat_ofNat]; omega
  simp only [decodeBytes, beBytes_length, beNat_beBytes, this]
  rfl

theorem beBytes_beNat : ∀ (n : Nat) (bs : List Byte), bs.length = n → beBytes n (beNat bs) = bs ∧ beNat bs < 256 ^ n := by
  intro n
  induction n with
  | zero => intro bs h; obtain rfl := List.length_eq_zero_iff.1 h; simp [beBytes, beNat]
  | succ n ih =>
    intro bs h
    have hne : bs ≠ [] := by rintro rfl; simp at h
    obtain ⟨cs, c, rfl⟩ : ∃ cs c, bs = cs ++ [c] := ⟨bs.dropLast, bs.getLast hne, (List.dropLast_append_getLast hne).symm⟩
    have hl : cs.length = n := by simpa using h
    have ⟨h1, h2⟩ := ih cs hl
    have hc := c.isLt
    have e1 : (256 * beNat cs + c.toNat) / 256 = beNat cs := by omega
    refine ⟨?_, ?_⟩
    · rw [beBytes, beNat_append, e1, h1]
      congr 2
      apply BitVec.eq_of_toNat_eq
      rw [BitVec.toNat_ofNat]; omega
    · rw [beNat_append, pow_succ]; omega

end Sys2Proof
end

