-- ==== Sys2Proof/Laws/Operations.lean ====
section
/-! SUPPORT. What a device operation leaves in every register (R136): accepting a request, the end of an operation, and
the state each micro-program leaves, one lemma per observation. -/

namespace Sys2Proof.Machine

/-! ### Accepting a request and the end of an operation -/

@[simp] theorem acceptRequest_cfg (op : SeqOp) (a : U16) (b : Byte) (s : State) : (acceptRequest op a b s).cfg = s.cfg := rfl
@[simp] theorem acceptRequest_outC (op : SeqOp) (a : U16) (b : Byte) (s : State) : (acceptRequest op a b s).outC = s.outC := rfl
@[simp] theorem acceptRequest_outS (op : SeqOp) (a : U16) (b : Byte) (s : State) : (acceptRequest op a b s).outS = s.outS := rfl
@[simp] theorem acceptRequest_mode (op : SeqOp) (a : U16) (b : Byte) (s : State) : (acceptRequest op a b s).mode = s.mode := rfl
@[simp] theorem acceptRequest_timer (op : SeqOp) (a : U16) (b : Byte) (s : State) : (acceptRequest op a b s).timer = s.timer := rfl
@[simp] theorem acceptRequest_fe (op : SeqOp) (a : U16) (b : Byte) (s : State) : (acceptRequest op a b s).fe = s.fe := rfl
@[simp] theorem acceptRequest_chip (op : SeqOp) (a : U16) (b : Byte) (s : State) : (acceptRequest op a b s).chip = s.chip := rfl
@[simp] theorem acceptRequest_now (op : SeqOp) (a : U16) (b : Byte) (s : State) : (acceptRequest op a b s).now = s.now := rfl
@[simp] theorem acceptRequest_trace (op : SeqOp) (a : U16) (b : Byte) (s : State) : (acceptRequest op a b s).trace = s.trace := rfl
@[simp] theorem acceptRequest_draws (op : SeqOp) (a : U16) (b : Byte) (s : State) : (acceptRequest op a b s).draws = s.draws := rfl
@[simp] theorem acceptRequest_issue (op : SeqOp) (a : U16) (b : Byte) (s : State) : (acceptRequest op a b s).issue = s.issue := rfl
@[simp] theorem acceptRequest_reN (op : SeqOp) (a : U16) (b : Byte) (s : State) : (acceptRequest op a b s).reN = s.reN := rfl
@[simp] theorem acceptRequest_weN (op : SeqOp) (a : U16) (b : Byte) (s : State) : (acceptRequest op a b s).weN = s.weN := rfl
@[simp] theorem acceptRequest_addrPins (op : SeqOp) (a : U16) (b : Byte) (s : State) : (acceptRequest op a b s).addrPins = s.addrPins := rfl
@[simp] theorem acceptRequest_dout (op : SeqOp) (a : U16) (b : Byte) (s : State) : (acceptRequest op a b s).dout = s.dout := rfl
@[simp] theorem acceptRequest_unrelC (op : SeqOp) (a : U16) (b : Byte) (s : State) : (acceptRequest op a b s).unrelC = s.unrelC := rfl
@[simp] theorem acceptRequest_seq (op : SeqOp) (a : U16) (b : Byte) (s : State) :
    (acceptRequest op a b s).seq = { s.seq with busy := true, op := op, addr := a, wdata := b, upc := 0 } := rfl
@[simp] theorem seqDone_cfg (s : State) (n : Nat) : (s.seqDone n).cfg = s.cfg := rfl
@[simp] theorem seqDone_outC (s : State) (n : Nat) : (s.seqDone n).outC = s.outC := rfl
@[simp] theorem seqDone_outS (s : State) (n : Nat) : (s.seqDone n).outS = s.outS := rfl
@[simp] theorem seqDone_mode (s : State) (n : Nat) : (s.seqDone n).mode = s.mode := rfl
@[simp] theorem seqDone_timer (s : State) (n : Nat) : (s.seqDone n).timer = s.timer := rfl
@[simp] theorem seqDone_fe (s : State) (n : Nat) : (s.seqDone n).fe = s.fe := rfl
@[simp] theorem seqDone_chip (s : State) (n : Nat) : (s.seqDone n).chip = s.chip := rfl
@[simp] theorem seqDone_now (s : State) (n : Nat) : (s.seqDone n).now = s.now := rfl
@[simp] theorem seqDone_trace (s : State) (n : Nat) : (s.seqDone n).trace = s.trace := rfl
@[simp] theorem seqDone_draws (s : State) (n : Nat) : (s.seqDone n).draws = s.draws := rfl
@[simp] theorem seqDone_issue (s : State) (n : Nat) : (s.seqDone n).issue = s.issue := rfl
@[simp] theorem seqDone_reN (s : State) (n : Nat) : (s.seqDone n).reN = s.reN := rfl
@[simp] theorem seqDone_weN (s : State) (n : Nat) : (s.seqDone n).weN = s.weN := rfl
@[simp] theorem seqDone_addrPins (s : State) (n : Nat) : (s.seqDone n).addrPins = s.addrPins := rfl
@[simp] theorem seqDone_dout (s : State) (n : Nat) : (s.seqDone n).dout = s.dout := rfl
@[simp] theorem seqDone_unrelC (s : State) (n : Nat) : (s.seqDone n).unrelC = s.unrelC := rfl
@[simp] theorem seqDone_seq (s : State) (n : Nat) : (s.seqDone n).seq = { s.seq with upc := n, busy := false } := rfl

/-! ### READBYTE -/

@[simp] theorem afterReadByte_mode (a : U16) (s : State) : (afterReadByte a s).mode = .read := by simp [afterReadByte]
@[simp] theorem afterReadByte_cfg (a : U16) (s : State) : (afterReadByte a s).cfg = s.cfg := by simp [afterReadByte]
@[simp] theorem afterReadByte_fe (a : U16) (s : State) : (afterReadByte a s).fe = s.fe := by simp [afterReadByte]
@[simp] theorem afterReadByte_issue (a : U16) (s : State) : (afterReadByte a s).issue = s.issue := by simp [afterReadByte]
@[simp] theorem afterReadByte_now (a : U16) (s : State) : (afterReadByte a s).now = s.now + readTime a s := by simp [afterReadByte]
@[simp] theorem afterReadByte_timer (a : U16) (s : State) : (afterReadByte a s).timer = s.timer.afterWait s.cfg.ticksPerMs s.cfg.tReadSettle := by simp [afterReadByte]
@[simp] theorem afterReadByte_chip_mem (a : U16) (s : State) : (afterReadByte a s).chip.mem = s.chip.mem := by simp [afterReadByte]
@[simp] theorem afterReadByte_chip_cmd (a : U16) (s : State) : (afterReadByte a s).chip.cmd = s.chip.cmd := by simp [afterReadByte]
@[simp] theorem afterReadByte_chip_busyUntil (a : U16) (s : State) : (afterReadByte a s).chip.busyUntil = s.chip.busyUntil := by simp [afterReadByte]
@[simp] theorem afterReadByte_chip_tRe (a : U16) (s : State) : (afterReadByte a s).chip.tRe = s.now := by simp [afterReadByte]
@[simp] theorem afterReadByte_chip_tWe (a : U16) (s : State) : (afterReadByte a s).chip.tWe = s.chip.tWe := by simp [afterReadByte]
@[simp] theorem afterReadByte_chip_tAddr (a : U16) (s : State) : (afterReadByte a s).chip.tAddr = if s.addrPins = a then s.chip.tAddr else s.now := by simp [afterReadByte]
@[simp] theorem afterReadByte_seq (a : U16) (s : State) :
    (afterReadByte a s).seq = { s.seq with rdata := (readReady a s).sampled } := by simp [afterReadByte]
@[simp] theorem afterReadByte_reN (a : U16) (s : State) : (afterReadByte a s).reN = true := by simp [afterReadByte]
@[simp] theorem afterReadByte_weN (a : U16) (s : State) : (afterReadByte a s).weN = true :=
  (afterSetRe_weN false _).trans ((afterSample_weN (readReady a s)).trans (by simp))
@[simp] theorem afterReadByte_addrPins (a : U16) (s : State) : (afterReadByte a s).addrPins = a :=
  (afterSetRe_addrPins false _).trans ((afterSample_addrPins (readReady a s)).trans (by simp))
@[simp] theorem afterReadByte_dout (a : U16) (s : State) : (afterReadByte a s).dout = s.dout :=
  (afterSetRe_dout false _).trans ((afterSample_dout (readReady a s)).trans (by simp))
@[simp] theorem afterReadByte_unrelC (a : U16) (s : State) : (afterReadByte a s).unrelC = s.unrelC :=
  (afterSetRe_unrelC false _).trans ((afterSample_unrelC (readReady a s)).trans (by simp))
@[simp] theorem afterReadByte_trace (a : U16) (s : State) : (afterReadByte a s).trace = s.trace ++ readEvents a s := by
  rw [← readReady_trace]
  simp [afterReadByte]

/-! ### WRITEBYTE -/

/-- How long WRITEBYTE takes at least (R138). -/
theorem afterUnlock_now_ge (third : Byte) (s : State) :
    s.now + 3 * (s.cfg.tWeHold.toNat : Time) ≤ (afterUnlock third s).now := by
  have h1 := pulseTime_ge 0x5555 0xAA s
  have h2 := pulseTime_ge 0x2AAA 0x55 (afterPulse 0x5555 0xAA s)
  have h3 := pulseTime_ge 0x5555 third (afterPulse 0x2AAA 0x55 (afterPulse 0x5555 0xAA s))
  simp only [afterPulse_cfg] at h2 h3
  simp only [afterUnlock, afterPulse_now]
  linarith

theorem writeReady_now_ge (s : State) :
    s.now + (3 * (s.cfg.tWeHold.toNat : Time) + (s.cfg.tProgSettle.toNat : Time)) ≤ (writeReady s).now := by
  have h1 := afterUnlock_now_ge 0xA0 s
  have h2 := (afterUnlock 0xA0 s).waitTime_ge s.cfg.tProgSettle
  simp only [writeReady, afterWait_now]
  linarith

theorem afterWriteByte_now_ge (a : U16) (b : Byte) (s : State) :
    s.now + (4 * (s.cfg.tWeHold.toNat : Time) + (s.cfg.tProgSettle.toNat : Time)) ≤ (afterWriteByte a b s).now := by
  have h1 := writeReady_now_ge s
  have h2 := pulseTime_ge a b (writeReady s)
  simp only [writeReady_cfg] at h2
  simp only [afterWriteByte, afterDrvData_now, afterPulse_now]
  linarith

@[simp] theorem afterWriteByte_mode (a : U16) (b : Byte) (s : State) : (afterWriteByte a b s).mode = .write := by
  simp [afterWriteByte]
@[simp] theorem afterWriteByte_cfg (a : U16) (b : Byte) (s : State) : (afterWriteByte a b s).cfg = s.cfg := by
  simp [afterWriteByte]
@[simp] theorem afterWriteByte_seq (a : U16) (b : Byte) (s : State) : (afterWriteByte a b s).seq = s.seq := by
  simp [afterWriteByte]
@[simp] theorem afterWriteByte_fe (a : U16) (b : Byte) (s : State) : (afterWriteByte a b s).fe = s.fe := by
  simp [afterWriteByte]
@[simp] theorem afterWriteByte_issue (a : U16) (b : Byte) (s : State) : (afterWriteByte a b s).issue = s.issue := by
  simp [afterWriteByte]
@[simp] theorem afterWriteByte_chip_tRe (a : U16) (b : Byte) (s : State) : (afterWriteByte a b s).chip.tRe = s.chip.tRe := by
  simp [afterWriteByte]
@[simp] theorem afterWriteByte_reN (a : U16) (b : Byte) (s : State) : (afterWriteByte a b s).reN = s.reN := by
  simp [afterWriteByte]
@[simp] theorem afterWriteByte_weN (a : U16) (b : Byte) (s : State) : (afterWriteByte a b s).weN = true := by
  simp [afterWriteByte]
@[simp] theorem afterWriteByte_addrPins (a : U16) (b : Byte) (s : State) : (afterWriteByte a b s).addrPins = a := by
  simp [afterWriteByte]
@[simp] theorem afterWriteByte_dout (a : U16) (b : Byte) (s : State) : (afterWriteByte a b s).dout = 0 := by
  simp [afterWriteByte]
@[simp] theorem afterWriteByte_unrelC (a : U16) (b : Byte) (s : State) : (afterWriteByte a b s).unrelC = s.unrelC := by
  simp [afterWriteByte]

/-- The payload pulse of WRITEBYTE programs the cell (R133, R58). -/
theorem afterWriteByte_chip (a : U16) (b : Byte) (s : State) (hc : s.chip.cmd = .idle) :
    (afterWriteByte a b s).chip.mem = s.chip.mem.write a (s.chip.mem.read a &&& b)
      ∧ (afterWriteByte a b s).chip.cmd = .idle
      ∧ (afterWriteByte a b s).chip.busyUntil = (afterWriteByte a b s).now + s.cfg.tBp := by
  have hp := writeReady_cmd s hc
  have hm : (writeReady s).chip.mem = s.chip.mem := by
    simpa [writeReady] using (afterUnlock_moves s hc 0xA0).1
  have hx := afterPulse_chip a b (writeReady s)
  have he : chipAccept a b { writeReady s with now := (writeReady s).now + pulseTime a b (writeReady s) } =
      (chipProgram a b ((writeReady s).now + pulseTime a b (writeReady s))
        { writeReady s with now := (writeReady s).now + pulseTime a b (writeReady s) }).setCmd .idle := by
    simp only [chipAccept, hp]
  rw [he] at hx
  refine ⟨?_, ?_, ?_⟩
  · simp [afterWriteByte, hx.1, chipProgram, hm]
  · simp [afterWriteByte, hx.2.1]
  · simp [afterWriteByte, hx.2.2, chipProgram]

/-! ### ERASECHIP -/

theorem eraseReady_now_ge (s : State) : s.now + 5 * (s.cfg.tWeHold.toNat : Time) ≤ (eraseReady s).now := by
  have h1 := afterUnlock_now_ge 0x80 s
  have h2 := pulseTime_ge 0x5555 0xAA (afterUnlock 0x80 s)
  have h3 := pulseTime_ge 0x2AAA 0x55 (afterPulse 0x5555 0xAA (afterUnlock 0x80 s))
  simp only [afterPulse_cfg, afterUnlock_cfg] at h2 h3
  simp only [eraseReady, afterPulse_now]
  linarith

theorem afterEraseChip_now_ge (s : State) :
    (afterPulse 0x5555 0x10 (eraseReady s)).now + (s.cfg.tEraseWait.toNat : Time) ≤ (afterEraseChip s).now := by
  have h := (afterPulse 0x5555 0x10 (eraseReady s)).waitTime_ge s.cfg.tEraseWait
  simp only [afterEraseChip, afterWait_now]
  linarith

theorem afterEraseChip_total_ge (s : State) :
    s.now + (6 * (s.cfg.tWeHold.toNat : Time) + (s.cfg.tEraseWait.toNat : Time)) ≤ (afterEraseChip s).now := by
  have h1 := eraseReady_now_ge s
  have h2 := pulseTime_ge 0x5555 0x10 (eraseReady s)
  have h3 := afterEraseChip_now_ge s
  simp only [eraseReady_cfg] at h2
  simp only [afterPulse_now] at h3
  linarith

@[simp] theorem afterEraseChip_mode (s : State) : (afterEraseChip s).mode = .write := by
  simp [afterEraseChip]
@[simp] theorem afterEraseChip_cfg (s : State) : (afterEraseChip s).cfg = s.cfg := by
  simp [afterEraseChip]
@[simp] theorem afterEraseChip_seq (s : State) : (afterEraseChip s).seq = s.seq := by
  simp [afterEraseChip]
@[simp] theorem afterEraseChip_fe (s : State) : (afterEraseChip s).fe = s.fe := by
  simp [afterEraseChip]
@[simp] theorem afterEraseChip_issue (s : State) : (afterEraseChip s).issue = s.issue := by
  simp [afterEraseChip]
@[simp] theorem afterEraseChip_chip_tRe (s : State) : (afterEraseChip s).chip.tRe = s.chip.tRe := by
  simp [afterEraseChip]
@[simp] theorem afterEraseChip_reN (s : State) : (afterEraseChip s).reN = s.reN := by
  simp [afterEraseChip]
@[simp] theorem afterEraseChip_weN (s : State) : (afterEraseChip s).weN = true := by
  simp [afterEraseChip]
@[simp] theorem afterEraseChip_addrPins (s : State) : (afterEraseChip s).addrPins = 0x5555 := by
  simp [afterEraseChip]
@[simp] theorem afterEraseChip_dout (s : State) : (afterEraseChip s).dout = 0x10 := by
  simp [afterEraseChip]
@[simp] theorem afterEraseChip_unrelC (s : State) : (afterEraseChip s).unrelC = s.unrelC := by
  simp [afterEraseChip]

/-- The last pulse of ERASECHIP erases the array (R134, R59). -/
theorem afterEraseChip_chip (s : State) (hc : s.chip.cmd = .idle) :
    (afterEraseChip s).chip.mem = FlashMem.eraseAll ∧ (afterEraseChip s).chip.cmd = .idle
      ∧ (afterEraseChip s).chip.busyUntil = (afterPulse 0x5555 0x10 (eraseReady s)).now + s.cfg.tSce := by
  have hp := (erase_cmds s hc).2
  have hx := afterPulse_chip 0x5555 0x10 (eraseReady s)
  have he : chipAccept 0x5555 0x10
        { eraseReady s with now := (eraseReady s).now + pulseTime 0x5555 0x10 (eraseReady s) } =
      (chipEraseAll ((eraseReady s).now + pulseTime 0x5555 0x10 (eraseReady s))
        { eraseReady s with now := (eraseReady s).now + pulseTime 0x5555 0x10 (eraseReady s) }).setCmd .idle := by
    simp [chipAccept, hp]
  rw [he] at hx
  refine ⟨?_, ?_, ?_⟩
  · exact (afterWait_chip_mem _ _).trans hx.1
  · exact (afterWait_chip_cmd _ _).trans hx.2.1
  · rw [afterPulse_now, ← eraseReady_cfg s]
    exact (afterWait_chip_busyUntil _ _).trans hx.2.2

/-! ### The three operations as one step each: everything the commands above them rely on -/

theorem afterPulse_tAddr_le (a : U16) (d : Byte) (s : State) (h : s.chip.tAddr ≤ s.now) :
    (afterPulse a d s).chip.tAddr ≤ (afterPulse a d s).now := by
  have := pulseTime_ge a d s
  have h0 : (0 : Time) ≤ (s.cfg.tWeHold.toNat : Time) := by positivity
  rw [afterPulse_chip_tAddr, afterPulse_now]
  split <;> linarith

theorem afterWait_tAddr_le (n : U16) (s : State) (h : s.chip.tAddr ≤ s.now) :
    (afterWait n s).chip.tAddr ≤ (afterWait n s).now := by
  have := s.waitTime_nonneg n
  rw [afterWait_chip_tAddr, afterWait_now]
  linarith

/-- What every completed operation leaves of the rest of the machine. -/
structure OperationDone (s t : State) : Prop where
  cfg : t.cfg = s.cfg
  fe : t.fe = s.fe
  issue : t.issue = s.issue
  reN : t.reN = true
  weN : t.weN = true
  unrelC : t.unrelC = s.unrelC
  busy : t.seq.busy = false
  tAddr : s.chip.tAddr ≤ s.now → t.chip.tAddr ≤ t.now
  timer : s.timer = { cnt := 0, run := false, exp := false } → t.timer = { cnt := 0, run := false, exp := false }

/-- Everything READBYTE does (R132, R136). -/
structure ReadDone (a : U16) (b : Byte) (s t : State) : Prop extends OperationDone s t where
  mode : t.mode = .read
  addrPins : t.addrPins = a
  dout : t.dout = s.dout
  seq : t.seq = { busy := false, op := .readByte, addr := a, wdata := b, upc := 8, rdata := t.seq.rdata }
  mem : t.chip.mem = s.chip.mem
  cmd : t.chip.cmd = s.chip.cmd
  busyUntil : t.chip.busyUntil = s.chip.busyUntil
  now : s.now + (s.cfg.tReadSettle.toNat : Time) ≤ t.now
  rdata : s.cfg.tAcc ≤ (s.cfg.tReadSettle.toNat : Time) → s.chip.tAddr ≤ s.now →
    s.chip.busyUntil ≤ s.now + (s.cfg.tReadSettle.toNat : Time) → t.seq.rdata = s.chip.mem.read a

/-- Everything WRITEBYTE does (R133, R136). -/
structure WriteDone (a : U16) (b : Byte) (s t : State) : Prop extends OperationDone s t where
  mode : t.mode = .write
  addrPins : t.addrPins = a
  dout : t.dout = 0
  seq : t.seq = { busy := false, op := .writeByte, addr := a, wdata := b, upc := 26, rdata := s.seq.rdata }
  mem : t.chip.mem = s.chip.mem.write a (s.chip.mem.read a &&& b)
  cmd : t.chip.cmd = .idle
  busyUntil : t.chip.busyUntil = t.now + s.cfg.tBp
  now : s.now + (4 * (s.cfg.tWeHold.toNat : Time) + (s.cfg.tProgSettle.toNat : Time)) ≤ t.now

/-- Everything ERASECHIP does (R134, R136). -/
structure EraseDone (a : U16) (b : Byte) (s t : State) : Prop extends OperationDone s t where
  mode : t.mode = .write
  addrPins : t.addrPins = 0x5555
  dout : t.dout = 0x10
  seq : t.seq = { busy := false, op := .eraseChip, addr := a, wdata := b, upc := 37, rdata := s.seq.rdata }
  mem : t.chip.mem = FlashMem.eraseAll
  cmd : t.chip.cmd = .idle
  busyUntil : s.cfg.tSce ≤ (s.cfg.tEraseWait.toNat : Time) → t.chip.busyUntil ≤ t.now
  now : s.now + (6 * (s.cfg.tWeHold.toNat : Time) + (s.cfg.tEraseWait.toNat : Time)) ≤ t.now

theorem request_readByte_done (a : U16) (b : Byte) (s : State) (hs : s.seq.busy = false) (hw : s.weN = true) :
    ∃ t, request .readByte a b s = .next t ∧ ReadDone a b s t := by
  have hge := readTime_ge a (acceptRequest .readByte a b s)
  have h0 : (0 : Time) ≤ (s.cfg.tReadSettle.toNat : Time) := by positivity
  simp only [acceptRequest_cfg] at hge
  refine ⟨_, request_readByte a b s hs hw, ?_⟩
  constructor
  case rdata =>
    intro h1 h2 h3
    refine (congrArg Sequencer.rdata (afterReadByte_seq a (acceptRequest .readByte a b s))).trans ?_
    exact readReady_sampled a (acceptRequest .readByte a b s) h1 h2 (le_trans h3 (by simp; linarith))
  case toOperationDone =>
    constructor
    case tAddr =>
      intro h
      simp only [seqDone_chip, seqDone_now, afterReadByte_chip_tAddr, afterReadByte_now, acceptRequest_chip,
        acceptRequest_now]
      split <;> linarith
    case timer =>
      intro ht
      simp only [seqDone_timer, afterReadByte_timer, acceptRequest_timer, ht, Timer.afterWait_idle]
    all_goals simp
  case now => simpa using hge
  all_goals simp

theorem request_writeByte_done (a : U16) (b : Byte) (s : State) (hs : s.seq.busy = false) (h : PulseReady s)
    (hc : s.chip.cmd = .idle) : ∃ t, request .writeByte a b s = .next t ∧ WriteDone a b s t := by
  have hx := afterWriteByte_chip a b (acceptRequest .writeByte a b s) hc
  have hn := afterWriteByte_now_ge a b (acceptRequest .writeByte a b s)
  refine ⟨_, request_writeByte a b s hs h hc, ?_⟩
  constructor
  case mem => exact hx.1
  case cmd => exact hx.2.1
  case busyUntil => exact hx.2.2
  case now => exact hn
  case toOperationDone =>
    constructor
    case reN => simpa using h.re
    case tAddr =>
      intro ht
      refine afterPulse_tAddr_le _ _ _ (afterWait_tAddr_le _ _ ?_)
      exact afterPulse_tAddr_le _ _ _ (afterPulse_tAddr_le _ _ _ (afterPulse_tAddr_le _ _ _ ht))
    case timer =>
      intro ht
      simp only [seqDone_timer, afterWriteByte, writeReady, afterUnlock, afterDrvData_timer, afterPulse_timer,
        afterWait_timer, acceptRequest_timer, ht, Timer.afterWait_idle]
    all_goals simp
  all_goals simp

theorem request_eraseChip_done (a : U16) (b : Byte) (s : State) (hs : s.seq.busy = false) (h : PulseReady s)
    (hc : s.chip.cmd = .idle) : ∃ t, request .eraseChip a b s = .next t ∧ EraseDone a b s t := by
  have hx := afterEraseChip_chip (acceptRequest .eraseChip a b s) hc
  have hn := afterEraseChip_total_ge (acceptRequest .eraseChip a b s)
  have hn2 := afterEraseChip_now_ge (acceptRequest .eraseChip a b s)
  refine ⟨_, request_eraseChip a b s hs h hc, ?_⟩
  constructor
  case mem => exact hx.1
  case cmd => exact hx.2.1
  case busyUntil =>
    intro hs
    refine le_trans (le_of_eq hx.2.2) (le_trans ?_ hn2)
    simpa using hs
  case now => exact hn
  case toOperationDone =>
    constructor
    case reN => simpa using h.re
    case tAddr =>
      intro ht
      refine afterWait_tAddr_le _ _
        (afterPulse_tAddr_le _ _ _ (afterPulse_tAddr_le _ _ _ (afterPulse_tAddr_le _ _ _ ?_)))
      exact afterPulse_tAddr_le _ _ _ (afterPulse_tAddr_le _ _ _ (afterPulse_tAddr_le _ _ _ ht))
    case timer =>
      intro ht
      simp only [seqDone_timer, afterEraseChip, eraseReady, afterUnlock, afterPulse_timer,
        afterWait_timer, acceptRequest_timer, ht, Timer.afterWait_idle]
    all_goals simp
  all_goals simp

end Sys2Proof.Machine
end

