-- ==== Sys2Proof/Laws/PerInstr.lean ====
section
/-! SUPPORT. Statements made of every instruction: its word carries the fixed bits that its row of
spec/opcode_table.json gives. -/

namespace Sys2Proof.Laws.RowMatch

open Sys2Proof

/-- `word` has the bits of `value` under `mask`, and is of the same format. -/
def carries (word mask value : CodeWord) : Prop :=
  match word, mask, value with
  | .h8 w, .h8 m, .h8 v => w &&& m = v
  | .h4 w, .h4 m, .h4 v => w &&& m = v
  | .issue (.op w), .issue (.op m), .issue (.op v) => w &&& m = v
  | .issue (.uop w), .issue (.uop m), .issue (.uop v) => w &&& m = v
  | .issue (.bus w), .issue (.bus m), .issue (.bus v) => w &&& m = v
  | _, _, _ => False

/-- The mask and the match of each row; PULSE has no word of its own (R88). -/
def row : Instr → Option (CodeWord × CodeWord)
  | .handshake => some (.h8 0xFFFFFFFFFFFFFFFF, .h8 0x554152545F4F4B3F)
  | .handshakeBadProbe _ => some (.h8 0x0, .h8 0x0)
  | .read => some (.h4 0xFFFFFFFF, .h4 0x52454144)
  | .writ => some (.h4 0xFFFFFFFF, .h4 0x57524954)
  | .eras => some (.h4 0xFFFFFFFF, .h4 0x45524153)
  | .cmdUnrecog _ => some (.h4 0x0, .h4 0x0)
  | .readByte _ _ => some (.issue (.op 0x3000000), .issue (.op 0x0000000))
  | .writeByte _ _ => some (.issue (.op 0x3000000), .issue (.op 0x1000000))
  | .eraseChip _ _ => some (.issue (.op 0x3000000), .issue (.op 0x2000000))
  | .opReserved _ => some (.issue (.op 0x3000000), .issue (.op 0x3000000))
  | .setMode _ => some (.issue (.uop 0x7FFFE), .issue (.uop 0x00000))
  | .drvAddr _ => some (.issue (.uop 0x70000), .issue (.uop 0x10000))
  | .drvData _ => some (.issue (.uop 0x7FF00), .issue (.uop 0x20000))
  | .sample => some (.issue (.uop 0x7FFFF), .issue (.uop 0x30000))
  | .setRe _ => some (.issue (.uop 0x7FFFE), .issue (.uop 0x40000))
  | .setWe _ => some (.issue (.uop 0x7FFFE), .issue (.uop 0x50000))
  | .wait _ => some (.issue (.uop 0x70000), .issue (.uop 0x60000))
  | .uopReserved _ => some (.issue (.uop 0x70000), .issue (.uop 0x70000))
  | .pulse _ _ => none
  | .unlock1 => some (.issue (.bus 0xFFFFFF), .issue (.bus 0x5555AA))
  | .unlock2 => some (.issue (.bus 0xFFFFFF), .issue (.bus 0x2AAA55))
  | .cmdProgram => some (.issue (.bus 0xFFFFFF), .issue (.bus 0x5555A0))
  | .cmdEraseSetup => some (.issue (.bus 0xFFFFFF), .issue (.bus 0x555580))
  | .cmdChipErase => some (.issue (.bus 0xFFFFFF), .issue (.bus 0x555510))
  | .payload _ _ => some (.issue (.bus 0x000000), .issue (.bus 0x000000))

/-- An instruction's one word carries its row's bits; PULSE is written as six words. -/
def Statement (i : Instr) : Prop :=
  ∀ hold : U16, match row i with
    | some r => ∃ word, encode hold i = [word] ∧ carries word r.1 r.2
    | none => (encode hold i).length = 6

theorem high_masked {m n : Nat} (c : BitVec m) (x : BitVec n) :
    (c ++ x) &&& (BitVec.allOnes m ++ (0 : BitVec n)) = c ++ (0 : BitVec n) := by
  apply BitVec.eq_of_getLsbD_eq
  intro i hi
  simp only [BitVec.getLsbD_and, BitVec.getLsbD_append]
  by_cases h : i < n
  · simp [h]
  · have : i - n < m := by omega
    simp [h, this]

theorem op_masked (op : BitVec 2) (a : U16) (d : Byte) :
    (op ++ a ++ d : BitVec 26) &&& 0x3000000 = op ++ (0 : U16) ++ (0 : Byte) := by
  have h := high_masked (m := 2) (n := 24) op (a ++ d)
  have e1 : (op ++ a ++ d : BitVec 26) = op ++ (a ++ d) := by
    apply BitVec.eq_of_getLsbD_eq
    intro i hi
    simp only [BitVec.getLsbD_append]
    by_cases h8 : i < 8
    · have : i < 24 := by omega
      simp [h8, this]
    · by_cases h24 : i < 24
      · have : i - 8 < 16 := by omega
        simp [h8, h24, this]
      · have : ¬ i - 8 < 16 := by omega
        have e : i - 8 - 16 = i - 24 := by omega
        simp [h8, h24, this, e]
  rw [e1]
  refine h.trans ?_
  clear h e1
  revert op
  decide

theorem drvData_masked (v : Byte) : ((2 : BitVec 3) ++ v.setWidth 16 : BitVec 19) &&& 0x7FF00 = 0x20000 := by
  have h : (v.setWidth 16 : U16) &&& 0xFF00 = 0 := by
    revert v; decide
  apply BitVec.eq_of_getLsbD_eq
  intro i hi
  have h2 := congrArg (fun y => y.getLsbD i) h
  have h3 : (0x7FF00 : BitVec 19) = (7 : BitVec 3) ++ (0xFF00 : U16) := by decide
  have h4 : (0x20000 : BitVec 19) = (2 : BitVec 3) ++ (0 : U16) := by decide
  rw [h3, h4]
  simp only [BitVec.getLsbD_and, BitVec.getLsbD_append] at h2 ⊢
  by_cases hl : i < 16
  · simpa [hl] using h2
  · have : i = 16 ∨ i = 17 ∨ i = 18 := by omega
    rcases this with rfl | rfl | rfl <;> rfl

theorem handshake : Statement .handshake := fun _ => ⟨_, rfl, rfl⟩
theorem handshakeBadProbe (probe : BitVec 64) : Statement (.handshakeBadProbe probe) := fun _ => ⟨_, rfl, by simp [carries]⟩
theorem read : Statement .read := fun _ => ⟨_, rfl, rfl⟩
theorem writ : Statement .writ := fun _ => ⟨_, rfl, rfl⟩
theorem eras : Statement .eras := fun _ => ⟨_, rfl, rfl⟩
theorem cmdUnrecog (tok : BitVec 32) : Statement (.cmdUnrecog tok) := fun _ => ⟨_, rfl, by simp [carries]⟩
theorem readByte (a : U16) (d : Byte) : Statement (.readByte a d) := fun _ => ⟨_, rfl, op_masked 0 a d⟩
theorem writeByte (d : Byte) (a : U16) : Statement (.writeByte d a) := fun _ => ⟨_, rfl, op_masked 1 a d⟩
theorem eraseChip (a : U16) (d : Byte) : Statement (.eraseChip a d) := fun _ => ⟨_, rfl, op_masked 2 a d⟩
theorem opReserved (x : BitVec 24) : Statement (.opReserved x) := fun _ => ⟨_, rfl, high_masked (m := 2) (n := 24) 3 x⟩
theorem setMode (m : BusMode) : Statement (.setMode m) := fun _ => ⟨_, rfl, by cases m <;> rfl⟩
theorem drvAddr (v : U16) : Statement (.drvAddr v) := fun _ => ⟨_, rfl, high_masked (m := 3) (n := 16) 1 v⟩
theorem drvData (v : Byte) : Statement (.drvData v) := fun _ => ⟨_, rfl, drvData_masked v⟩
theorem sample : Statement .sample := fun _ => ⟨_, rfl, rfl⟩
theorem setRe (b : Bool) : Statement (.setRe b) := fun _ => ⟨_, rfl, by cases b <;> rfl⟩
theorem setWe (b : Bool) : Statement (.setWe b) := fun _ => ⟨_, rfl, by cases b <;> rfl⟩
theorem wait (n : U16) : Statement (.wait n) := fun _ => ⟨_, rfl, high_masked (m := 3) (n := 16) 6 n⟩
theorem uopReserved (x : U16) : Statement (.uopReserved x) := fun _ => ⟨_, rfl, high_masked (m := 3) (n := 16) 7 x⟩
theorem pulse (a : U16) (d : Byte) : Statement (.pulse a d) := fun _ => rfl
theorem unlock1 : Statement .unlock1 := fun _ => ⟨_, rfl, rfl⟩
theorem unlock2 : Statement .unlock2 := fun _ => ⟨_, rfl, rfl⟩
theorem cmdProgram : Statement .cmdProgram := fun _ => ⟨_, rfl, rfl⟩
theorem cmdEraseSetup : Statement .cmdEraseSetup := fun _ => ⟨_, rfl, rfl⟩
theorem cmdChipErase : Statement .cmdChipErase := fun _ => ⟨_, rfl, rfl⟩
theorem payload (a : U16) (d : Byte) : Statement (.payload a d) := fun _ => ⟨_, rfl, show (a ++ d : BitVec 24) &&& 0 = 0 by simp⟩

end Sys2Proof.Laws.RowMatch
end

