-- ==== Sys2Proof/Laws/Step.lean ====
section
/-! SUPPORT. What a micro-operation and a step can do: inversion lemmas that say everything, once. -/

namespace Sys2Proof.Machine

theorem exec_microInstr (u : MicroOp) (s : State) : exec (microInstr u) s = runMicro u s := by cases u <;> rfl

/-- The state a micro-operation leaves, if it completes. -/
def afterMicro (u : MicroOp) (s : State) : State :=
  match u with
  | .setMode m => afterSetMode m s
  | .drvAddr v => afterDrvAddr v s
  | .drvData v => afterDrvData v s
  | .sample => afterSample s
  | .setRe b => afterSetRe b s
  | .setWe b => if b = false ∧ s.weN = false then chipAccept s.addrPins s.dout (afterSetWe b s) else afterSetWe b s
  | .wait n => afterWait n s

/-- The guard of a micro-operation, beside the pin check (R50, R61, R119). -/
def microGuard (u : MicroOp) (s : State) : Prop :=
  match u with
  | .drvAddr _ | .drvData _ => s.weN = true
  | .setWe b => b = false → s.weN = false → s.cycleWellFormed = true ∧ s.chip.busyUntil ≤ s.now
  | _ => True

/-- Everything a micro-operation can do when it answers a next state. -/
theorem runMicro_eq_next {u : MicroOp} {s t : State} :
    runMicro u s = .next t ↔ t = afterMicro u s ∧ microGuard u s ∧ t.pinsUndefined = false ∧ t.contention = false := by
  have key : ∀ r : State, pinCheck u r = .next t ↔ t = r ∧ t.pinsUndefined = false ∧ t.contention = false := by
    intro r
    rw [pinCheck_eq_next]
    constructor <;> (rintro ⟨rfl, h⟩; exact ⟨rfl, h⟩)
  cases u with
  | setMode m => simpa [runMicro, execSetMode, afterMicro, microGuard] using key (afterSetMode m s)
  | sample => simpa [runMicro, execSample, afterMicro, microGuard] using key (afterSample s)
  | setRe b => simpa [runMicro, execSetRe, afterMicro, microGuard] using key (afterSetRe b s)
  | wait n => simpa [runMicro, execWait, afterMicro, microGuard] using key (afterWait n s)
  | drvAddr v =>
    cases h : s.weN <;> simp [runMicro, execDrvAddr, microGuard, afterMicro, key, h]
  | drvData v =>
    cases h : s.weN <;> simp [runMicro, execDrvData, microGuard, afterMicro, key, h]
  | setWe b =>
    by_cases h : b = false ∧ s.weN = false
    · have hg : microGuard (.setWe b) s ↔ s.cycleWellFormed = true ∧ s.chip.busyUntil ≤ s.now := by
        simp [microGuard, h.1, h.2]
      rw [hg]
      simp only [runMicro, execSetWe, if_pos h, afterMicro]
      by_cases hc : s.cycleWellFormed = true
      · rw [if_pos hc, andThen_eq_next]
        simp only [memWrite_eq_next, key, hc, true_and]
        constructor
        · rintro ⟨w, ⟨h1, h4⟩, h2, h3⟩; exact ⟨h2.trans h4, h1, h3⟩
        · rintro ⟨h1, h2, h3⟩; exact ⟨_, ⟨h2, rfl⟩, h1, h3⟩
      · simp [hc]
    · have hg : microGuard (.setWe b) s := fun h1 h2 => absurd ⟨h1, h2⟩ h
      simp only [runMicro, execSetWe, if_neg h, afterMicro, key, hg, true_and]

theorem pinCheck_eq_fault {u : MicroOp} {s : State} {f : Fault} :
    pinCheck u s = .fault f ↔ (s.pinsUndefined = true ∧ f = .chipUndefined (.uop u) s.now)
      ∨ (s.pinsUndefined = false ∧ s.contention = true ∧ f = .busContention u s.now) := by
  unfold pinCheck
  cases h1 : s.pinsUndefined <;> cases h2 : s.contention <;> simp [eq_comm]

theorem pinCheck_ne_refused {u : MicroOp} {s : State} {r : Refusal} : pinCheck u s ≠ .refused r := by
  unfold pinCheck
  split
  · simp
  · split <;> simp

theorem runMicro_ne_refused {u : MicroOp} {s : State} {r : Refusal} : runMicro u s ≠ .refused r := by
  cases u with
  | setMode m => exact pinCheck_ne_refused
  | sample => exact pinCheck_ne_refused
  | setRe b => exact pinCheck_ne_refused
  | wait n => exact pinCheck_ne_refused
  | drvAddr v => 
    simp only [runMicro, execDrvAddr]
    split
    · simp
    · exact pinCheck_ne_refused
  | drvData v => 
    simp only [runMicro, execDrvData]
    split
    · simp
    · exact pinCheck_ne_refused
  | setWe b =>
    simp only [runMicro, execSetWe]
    split
    · split
      · unfold memWrite
        split
        · simp
        · exact pinCheck_ne_refused
      · simp
    · exact pinCheck_ne_refused

/-- Everything a micro-operation can do when it faults. -/
theorem runMicro_fault {u : MicroOp} {s : State} {f : Fault} (h : runMicro u s = .fault f) :
    ∃ time, s.now ≤ time ∧ ((∀ n, u ≠ .wait n) → time = s.now)
        ∧ (f = .chipUndefined (.uop u) time ∨ (f = .busContention u time ∧ s.weN = true)) := by
  have key : ∀ t : State, (t.contention = true → s.weN = true) → s.now ≤ t.now → ((∀ n, u ≠ .wait n) → t.now = s.now) →
      pinCheck u t = .fault f → ∃ time, s.now ≤ time ∧ ((∀ n, u ≠ .wait n) → time = s.now)
        ∧ (f = .chipUndefined (.uop u) time ∨ (f = .busContention u time ∧ s.weN = true)) := by
    intro t hc hn hw hp
    rcases pinCheck_eq_fault.1 hp with ⟨-, rfl⟩ | ⟨-, h2, rfl⟩
    · exact ⟨_, hn, hw, .inl rfl⟩
    · exact ⟨_, hn, hw, .inr ⟨rfl, hc h2⟩⟩
  have hcon : ∀ t : State, t.contention = true → t.weN = true := by
    intro t; simp [State.contention, State.chipDrives]
  have hnow : s.now ≤ s.now := le_refl _
  cases u with
  | setMode m => exact key (afterSetMode m s) (fun hc => by simpa using hcon _ hc) hnow (fun _ => rfl) h
  | sample => exact key (afterSample s) (fun hc => by simpa using hcon _ hc) (by simp) (by simp) h
  | setRe b => exact key (afterSetRe b s) (fun hc => by simpa using hcon _ hc) hnow (fun _ => rfl) h
  | wait n => 
    refine key (afterWait n s) (fun hc => by simpa using hcon _ hc) ?_ (fun h => absurd rfl (h n)) h
    rw [afterWait_now]
    have := s.waitTime_nonneg n
    linarith
  | drvAddr v => 
    simp only [runMicro, execDrvAddr] at h
    split at h
    · exact ⟨s.now, hnow, fun _ => rfl, .inl (by simpa using h.symm)⟩
    · exact key (afterDrvAddr v s) (fun hc => by simpa using hcon _ hc) hnow (fun _ => rfl) h
  | drvData v => 
    simp only [runMicro, execDrvData] at h
    split at h
    · exact ⟨s.now, hnow, fun _ => rfl, .inl (by simpa using h.symm)⟩
    · exact key (afterDrvData v s) (fun hc => by simpa using hcon _ hc) hnow (fun _ => rfl) h
  | setWe b =>
    simp only [runMicro, execSetWe] at h
    split at h
    · next hb =>
      split at h
      · next hw =>
        unfold memWrite at h
        split at h
        · exact ⟨s.now, hnow, fun _ => rfl, .inl (by simpa using h.symm)⟩
        · simp only [andThen_next] at h
          have hc : s.mode = .write ∧ s.reN = true := by
            simp only [State.cycleWellFormed, Bool.and_eq_true, decide_eq_true_eq] at hw
            exact hw.1
          rw [pinCheck_reHigh _ _ (by simpa using hc.2) (.inr (by simpa using hc.1))] at h
          exact absurd h (by simp)
      · exact ⟨s.now, hnow, fun _ => rfl, .inl (by simpa using h.symm)⟩
    · next hb =>
      refine key (afterSetWe b s) (fun hc => ?_) hnow (fun _ => rfl) h
      have := hcon _ hc
      simp at this
      subst this
      simpa using hb

/-- The pin check in a safe configuration. -/
theorem pinCheck_safe (u : MicroOp) (s : State) (h : PinsSafe s) : pinCheck u s = .next s := by
  rcases h with ⟨h1, h2⟩ | ⟨h1, h2⟩
  · exact pinCheck_reHigh u s h1 h2
  · exact pinCheck_readMode u s h1 h2

theorem pinCheck_undefined (u : MicroOp) (s : State) (hw : s.weN = false) (h : s.reN = false ∨ s.mode = .read) :
    pinCheck u s = .fault (.chipUndefined (.uop u) s.now) :=
  pinCheck_eq_fault.2 (.inl ⟨s.pinsUndefined_iff.2 ⟨hw, h⟩, rfl⟩)
theorem pinCheck_contention (u : MicroOp) (s : State) (hr : s.reN = false) (hw : s.weN = true) (hm : s.mode = .write) :
    pinCheck u s = .fault (.busContention u s.now) := by
  simp [pinCheck, State.pinsUndefined, State.bothLow, State.cycleModeBroken, State.contention, State.chipDrives, hr, hw, hm]

theorem PinsSafe.congr {s t : State} (h : PinsSafe s) (hr : t.reN = s.reN) (hw : t.weN = s.weN) (hm : t.mode = s.mode) : PinsSafe t := by
  unfold PinsSafe; rw [hr, hw, hm]; exact h

/-! ### Reset, events and address halves -/

theorem powerOn_reN (cfg : Config) (mem : FlashMem) : (State.powerOn cfg mem).reN = true :=
  (getLsbD_idle cfg.place cfg.place.reBit).trans (by simp)
theorem powerOn_weN (cfg : Config) (mem : FlashMem) : (State.powerOn cfg mem).weN = true :=
  (getLsbD_idle cfg.place cfg.place.weBit).trans (by simp)
theorem powerOn_ah (cfg : Config) (mem : FlashMem) : (State.powerOn cfg mem).ah = 0 := by
  apply BitVec.eq_of_getLsbD_eq
  intro i hi
  have := placement_facts cfg.place
  have h : ¬ (cfg.place.ahLsb + i = cfg.place.reBit ∨ cfg.place.ahLsb + i = cfg.place.weBit) := by omega
  simp [State.ah, State.powerOn, getField, getLsbD_idle, h]
theorem powerOn_unrelC (cfg : Config) (mem : FlashMem) : (State.powerOn cfg mem).unrelC = 0 := by
  apply BitVec.eq_of_getLsbD_eq
  intro i hi
  rw [State.getLsbD_unrelC, getLsbD_portCMask]
  by_cases h : i = cfg.place.reBit ∨ i = cfg.place.weBit <;> simp [State.powerOn, getLsbD_idle, h]
  rcases h with h | h <;> simp [h]
theorem powerOn_al (cfg : Config) (mem : FlashMem) : (State.powerOn cfg mem).al = 0 :=
  show getField 0 0 8 = 0 from by decide
theorem powerOn_dout (cfg : Config) (mem : FlashMem) : (State.powerOn cfg mem).dout = 0 :=
  show getField 0 8 8 = 0 from by decide

theorem pulseEvents_events (a : U16) (d : Byte) (s : State) :
    (pulseEvents a d s).map Stamped.event = pulseTrace s.cfg.tWeHold a d := rfl

theorem events_afterPulse (a : U16) (d : Byte) (s : State) :
    (afterPulse a d s).events = s.events ++ pulseTrace s.cfg.tWeHold a d := by
  simp [State.events, pulseEvents_events]

theorem events_afterWait (n : U16) (s : State) : (afterWait n s).events = s.events ++ [.waitBegin n, .waitEnd n] := by
  simp [State.events]
theorem events_afterDrvData (n : Byte) (s : State) : (afterDrvData n s).events = s.events ++ [.data n] := by
  simp [State.events]

@[simp] theorem afterDrvAddr_ah (v : U16) (s : State) : (afterDrvAddr v s).ah = v.extractLsb' 8 8 := by
  simp [afterDrvAddr, State.ah]
@[simp] theorem afterDrvAddr_al (v : U16) (s : State) : (afterDrvAddr v s).al = v.extractLsb' 0 8 := by
  simp [afterDrvAddr, State.al]

@[simp] theorem afterSetRe_ah (b : Bool) (s : State) : (afterSetRe b s).ah = s.ah := ah_setRe s.cfg.place s.outC (!b)
@[simp] theorem afterSetWe_ah (b : Bool) (s : State) : (afterSetWe b s).ah = s.ah := ah_setWe s.cfg.place s.outC (!b)
@[simp] theorem afterDrvData_al (v : Byte) (s : State) : (afterDrvData v s).al = s.al := al_setDout s.outS v
@[simp] theorem chipAccept_ah (a : U16) (d : Byte) (s : State) : (chipAccept a d s).ah = s.ah := State.ah_congr (by simp) (by simp)

/-! ### What the host commands do -/

@[simp] theorem send_addrPins (s : State) (bs : List Byte) : (s.send bs).addrPins = s.addrPins := rfl
@[simp] theorem send_reN (s : State) (bs : List Byte) : (s.send bs).reN = s.reN := rfl
@[simp] theorem send_weN (s : State) (bs : List Byte) : (s.send bs).weN = s.weN := rfl
@[simp] theorem send_dout (s : State) (bs : List Byte) : (s.send bs).dout = s.dout := rfl
@[simp] theorem send_unrelC (s : State) (bs : List Byte) : (s.send bs).unrelC = s.unrelC := rfl

theorem execRead_done (s : State) (hb : s.seq.busy = false) (hw : s.weN = true) :
    ∃ t, execRead s = .next ((t.send (hexbuf t.cfg.hexbufLen t.seq.rdata)).send okBytes) ∧ ReadDone s.cfg.fixedAddr 0 s t := by
  obtain ⟨t, h, hd⟩ := request_readByte_done s.cfg.fixedAddr 0 s hb hw
  exact ⟨t, by rw [execRead, h, andThen_next], hd⟩

theorem execEras_done (s : State) (hb : s.seq.busy = false) (hp : PulseReady s) (hc : s.chip.cmd = .idle) :
    ∃ t, execEras s = .next (t.send okBytes) ∧ EraseDone 0 0 s t := by
  obtain ⟨t, h, hd⟩ := request_eraseChip_done 0 0 s hb hp hc
  exact ⟨t, by rw [execEras, h, andThen_next], hd⟩

/-- WRIT once its operand is consumed. -/
def State.takeOperand (s : State) : State := { s.recv 3 with fe.writPending := false }

theorem writOperand_done (s : State) (b : Byte) (hb : s.seq.busy = false) (hp : PulseReady s) (hc : s.chip.cmd = .idle)
    (h3 : 3 ≤ s.fe.rx.length) (hv : parseD3 (s.fe.rx.take 3) = some b) :
    ∃ t, writOperand s = .next (t.send okBytes) ∧ WriteDone s.cfg.fixedAddr b s.takeOperand t := by
  obtain ⟨t, h, hd⟩ := request_writeByte_done s.cfg.fixedAddr b s.takeOperand hb ⟨hp.re, hp.we, hp.wp, hp.free⟩ hc
  refine ⟨t, ?_, hd⟩
  have : ¬ s.fe.rx.length < 3 := by omega
  unfold writOperand
  simp only [this, if_false, hv]
  change andThen (request .writeByte s.cfg.fixedAddr b s.takeOperand) _ = _
  rw [h, andThen_next]

theorem busCycle_idle (a : U16) (d : Byte) (s : State) (h : s.chip.busyUntil ≤ s.now) :
    busCycle a d s = .next (chipAccept a d s) := memWrite_idle _ _ _ _ h

/-- Everything WRIT from its `recv(3)` on can do. -/
theorem writOperand_cases {s t : State} (h : writOperand s = .next t) :
    (s.fe.rx.length < 3 ∧ t = { s with fe.writPending := true })
      ∨ (3 ≤ s.fe.rx.length ∧ parseD3 (s.fe.rx.take 3) = none ∧ t = takeDecodeFail s.takeOperand)
      ∨ (3 ≤ s.fe.rx.length ∧ ∃ b u, parseD3 (s.fe.rx.take 3) = some b
        ∧ request .writeByte s.cfg.fixedAddr b s.takeOperand = .next u ∧ t = u.send okBytes) := by
  unfold writOperand at h
  split at h
  · next hl => exact .inl ⟨hl, (Host.Outcome.next.inj h).symm⟩
  · next hl =>
    split at h
    · next hv => exact .inr (.inl ⟨by omega, hv, (Host.Outcome.next.inj h).symm⟩)
    · next b hv =>
      obtain ⟨u, hu, hx⟩ := andThen_eq_next.1 h
      exact .inr (.inr ⟨by omega, b, u, hv, hu, (Host.Outcome.next.inj hx).symm⟩)

theorem busCycle_eq_next {a : U16} {d : Byte} {s t : State} :
    busCycle a d s = .next t ↔
    s.chip.busyUntil ≤ s.now ∧ t = chipAccept a d s := memWrite_eq_next

theorem WriteReady.pulseReady {s : State} (h : WriteReady s) : PulseReady s := ⟨h.1.1, h.1.2, h.2.1, h.2.2⟩

theorem OperationReady.pulseReady {s : State} (h : OperationReady s) : PulseReady s := h.1.pulseReady

theorem exec_opInstr (op : SeqOp) (a : U16) (b : Byte) (s : State) : exec (opInstr op a b) s = request op a b s := by
  cases op <;> rfl

/-! ### What a step does -/

/-- What an issued word decodes to: an operation, a micro-operation, a bus cycle, or a refusal. -/
theorem decodeIssue_cases {p : Bool} {w : IssueWord} {i : Instr} (h : decodeIssue p w = .ok i) :
    (∃ op a b, i = opInstr op a b) ∨ (∃ u, i = microInstr u) ∨ (∃ a d, ∀ s, exec i s = busCycle a d s)
      ∨ ∃ r, ∀ s, exec i s = .refused r := by
  cases w with
  | op w =>
    obtain rfl : decodeOp w = i := Except.ok.inj h
    rcases toNat2_cases (w.extractLsb' 24 2) with h | h | h | h <;> simp only [decodeOp, h]
    · exact .inl ⟨.readByte, _, _, rfl⟩
    · exact .inl ⟨.writeByte, _, _, rfl⟩
    · exact .inl ⟨.eraseChip, _, _, rfl⟩
    · exact .inr (.inr (.inr ⟨_, fun s => rfl⟩))
  | uop w =>
    have key : ∀ (c : Bool) (u : MicroOp),
        (if c then Except.ok (microInstr u) else Except.error (DecodeError.mustBeZero w)) = .ok i →
          ∃ u, i = microInstr u := by
      intro c u hc
      cases c with
      | false => simp at hc
      | true => exact ⟨u, (Except.ok.inj hc).symm⟩
    rcases toNat3_cases (w.extractLsb' 16 3) with hc | hc | hc | hc | hc | hc | hc | hc <;>
      simp only [decodeIssue, decodeUop, hc] at h
    · exact .inr (.inl (key _ (.setMode _) h))
    · exact .inr (.inl ⟨.drvAddr _, (Except.ok.inj h).symm⟩)
    · exact .inr (.inl (key _ (.drvData _) h))
    · exact .inr (.inl (key _ .sample h))
    · exact .inr (.inl (key _ (.setRe _) h))
    · exact .inr (.inl (key _ (.setWe _) h))
    · exact .inr (.inl ⟨.wait _, (Except.ok.inj h).symm⟩)
    · obtain rfl := Except.ok.inj h
      exact .inr (.inr (.inr ⟨_, fun s => rfl⟩))
  | bus w =>
    obtain rfl : decodeBus p w = i := Except.ok.inj h
    refine .inr (.inr (.inl ?_))
    unfold decodeBus
    split
    · exact ⟨_, _, fun s => rfl⟩
    split
    · exact ⟨_, _, fun s => rfl⟩
    split
    · exact ⟨_, _, fun s => rfl⟩
    split
    · exact ⟨_, _, fun s => rfl⟩
    split
    · exact ⟨_, _, fun s => rfl⟩
    split
    · exact ⟨_, _, fun s => rfl⟩
    exact ⟨_, _, fun s => rfl⟩

/-- The ways a step answers a next state. -/
inductive StepCase (s t : State) : Prop where
  /-- A running operation goes on (R130). -/
  | sequencer (hb : s.seq.busy = true) (h : seqStep s = .next t)
  /-- An issued request word. -/
  | operation (op : SeqOp) (a : U16) (b : Byte) (w : IssueWord) (rest : List IssueWord) (hb : s.seq.busy = false)
      (hi : s.issue = w :: rest) (h : request op a b { s with issue := rest } = .next t)
  /-- An issued micro-operation word. -/
  | micro (u : MicroOp) (w : IssueWord) (rest : List IssueWord) (hb : s.seq.busy = false)
      (hi : s.issue = w :: rest) (h : runMicro u { s with issue := rest } = .next t)
  /-- An issued bus word. -/
  | cycle (a : U16) (d : Byte) (w : IssueWord) (rest : List IssueWord) (hb : s.seq.busy = false)
      (hi : s.issue = w :: rest) (h : busCycle a d { s with issue := rest } = .next t)
  /-- The front end is blocked (R150). -/
  | blocked (hb : s.seq.busy = false) (hi : s.issue = []) (h : t = s)
  /-- WRIT goes on (R155). -/
  | operand (hb : s.seq.busy = false) (hi : s.issue = []) (hp : s.fe.writPending = true)
      (h : writOperand s = .next t)
  /-- The probe (R152). -/
  | probe (hb : s.seq.busy = false) (hi : s.issue = []) (hp : s.fe.writPending = false)
      (hd : s.fe.dsp = .handshake) (reply : List Byte) (h : t = ((s.recv 8).send reply).toCommand)
  /-- READ (R154). -/
  | read (hb : s.seq.busy = false) (hi : s.issue = []) (hp : s.fe.writPending = false) (hd : s.fe.dsp = .command)
      (h : execRead (s.recv 4) = .next t)
  /-- WRIT (R155). -/
  | writ (hb : s.seq.busy = false) (hi : s.issue = []) (hp : s.fe.writPending = false) (hd : s.fe.dsp = .command)
      (hl : s.fe.rx.take 4 = [0x57, 0x52, 0x49, 0x54]) (h : writOperand ((s.recv 4).send gotWriteBytes) = .next t)
  /-- ERAS (R156). -/
  | eras (hb : s.seq.busy = false) (hi : s.issue = []) (hp : s.fe.writPending = false) (hd : s.fe.dsp = .command)
      (h : execEras (s.recv 4) = .next t)
  /-- An unknown token (R158). -/
  | unknown (hb : s.seq.busy = false) (hi : s.issue = []) (hp : s.fe.writPending = false) (hd : s.fe.dsp = .command)
      (h : t = s.recv 4 ∨ t = (s.recv 4).send unrecogBytes)

theorem decodeBytes_token8 (bs : List Byte) (h : bs.length = 8) :
    decodeBytes bs = .ok (decodeH8 (BitVec.ofNat 64 (beNat bs))) := by simp [decodeBytes, h]

theorem decodeBytes_token4 (bs : List Byte) (h : bs.length = 4) :
    decodeBytes bs = .ok (decodeH4 (BitVec.ofNat 32 (beNat bs))) := by simp [decodeBytes, h]

/-- Everything a step can do when it answers a next state. -/
theorem step_cases {s t : State} (h : step s = .next t) : s.fe.dsp ≠ .halted ∧ StepCase s t := by
  unfold step machineStep at h
  split at h
  · simp at h
  · next hd =>
    refine ⟨hd, ?_⟩
    split at h
    · next hb => exact .sequencer hb h
    · next hb =>
      have hb : s.seq.busy = false := by simpa using hb
      split at h
      · next w rest hi =>
        unfold issueStep at h
        cases hdec : decodeIssue (decide (s.chip.cmd = .pgm)) w with
        | error e => rw [hdec] at h; simp [execDecoded] at h
        | ok i =>
          rw [hdec] at h
          change exec i { s with issue := rest } = .next t at h
          rcases decodeIssue_cases hdec with ⟨op, a, b, rfl⟩ | ⟨u, rfl⟩ | ⟨a, d, he⟩ | ⟨r, he⟩
          · exact .operation op a b w rest hb hi (by rwa [exec_opInstr] at h)
          · exact .micro u w rest hb hi (by rwa [exec_microInstr] at h)
          · exact .cycle a d w rest hb hi (by rwa [he] at h)
          · rw [he] at h; simp at h
      · next hi =>
        unfold frontEndStep at h
        split at h
        · next hx => exact absurd hx hd
        · next hx =>
          split at h
          · next hp => exact .operand hb hi hp h
          · next hp =>
            have hp : s.fe.writPending = false := by simpa using hp
            unfold tokenStep at h
            split at h
            · exact .blocked hb hi (by simpa using h.symm)
            · next hl =>
              rw [decodeBytes_token8 _ (by simp; omega)] at h
              unfold decodeH8 at h
              split at h
              · exact .probe hb hi hp hx _ (Host.Outcome.next.inj h).symm
              · exact .probe hb hi hp hx _ (Host.Outcome.next.inj h).symm
        · next hx =>
          split at h
          · next hp => exact .operand hb hi hp h
          · next hp =>
            have hp : s.fe.writPending = false := by simpa using hp
            unfold tokenStep at h
            split at h
            · exact .blocked hb hi (by simpa using h.symm)
            · next hl =>
              have hlen : (s.fe.rx.take 4).length = 4 := by simp; omega
              rw [decodeBytes_token4 _ hlen] at h
              unfold decodeH4 at h
              split at h
              · exact .read hb hi hp hx h
              · split at h
                · next hw =>
                  refine .writ hb hi hp hx ?_ h
                  have h1 := beBytes_beNat 4 _ hlen
                  have h2 := congrArg BitVec.toNat hw
                  rw [BitVec.toNat_ofNat, Nat.mod_eq_of_lt (by simpa using h1.2)] at h2
                  rw [← h1.1, h2]
                  decide
                · split at h
                  · exact .eras hb hi hp hx h
                  · change execCmdUnrecog (BitVec.ofNat 32 (beNat (s.fe.rx.take 4))) (s.recv 4) = .next t at h
                    unfold execCmdUnrecog at h
                    split at h
                    · exact .unknown hb hi hp hx (.inl (by simpa using h.symm))
                    · exact .unknown hb hi hp hx (.inr (by simpa using h.symm))

end Sys2Proof.Machine
end

