-- ==== Sys2Proof/Tests/Slice0.lean ====
section
/-! SUPPORT. Tests: ill-formed terms the well-formedness checks refuse, words written out from the spec's encodings, the
spec's own vectors (spec/95_test_vectors.md, cited V<n>), and, for every statement with hypotheses, a witness that meets
them.  Every wait of a test lasts exactly its lower bound (the schedule in `draws.elapsed`), as in the spec's vectors. -/

namespace Sys2Proof.Tests

open Sys2Proof Sys2Proof.Machine

-- One theorem at a time: many small kernel evaluations at once would each take a thread.
set_option Elab.async false

/-! ### Helpers -/

/-- What a completed step shows. -/
def observe {α : Type} (r : Result) (f : State → α) : Option α :=
  match r with
  | .next s => some (f s)
  | .fault _ => none
  | .refused _ => none

/-- The fault a step ends in. -/
def faultOf (r : Result) : Option Fault :=
  match r with
  | .fault e => some e
  | .next _ => none
  | .refused _ => none

/-- The reset state over an erased array with some cells programmed, every wait at its lower bound. -/
def board (cells : List Host.Cell) : State :=
  { State.reset with chip.mem := { erased := true, cells := cells }, draws.elapsed := List.replicate 10 0 }

/-- A state with given port registers and mode. -/
def ports (outC outS : U16) (m : BusMode) : State := { board [] with outC := outC, outS := outS, mode := m }

/-- A board in `Command` with bytes received. -/
def commandBoard (rx : List Byte) : State :=
  { board [(0x0072, 0x42)] with fe := { dsp := .command, writPending := false, rx := rx, tx := [] } }

/-- A board in `Handshake` with bytes received. -/
def probeBoard (rx : List Byte) : State := (board []).hostSend rx

/-- A board with another placement of port C: `RE_N` in bit 0, `WE_N` in bit 1, `AH` in the high byte. -/
def turnedBoard (outC : U16) : State :=
  { board [] with cfg.place := { ahLsb := 8, reBit := 0, weBit := 1, valid := by decide }, outC := outC }

/-- A board whose recogniser is in a given state. -/
def chipBoard (c : ChipCmd) : State := (board [(0x5555, 0xF0)]).setCmd c

/-! ### Well-formedness: each check refuses an ill-formed term -/

theorem test_wf_refuses_probe : (Instr.handshakeBadProbe 0x554152545F4F4B3F).wf = false := by decide
theorem test_wf_refuses_read_token : (Instr.cmdUnrecog 0x52454144).wf = false := by decide
theorem test_wf_refuses_writ_token : (Instr.cmdUnrecog 0x57524954).wf = false := by decide
theorem test_wf_refuses_eras_token : (Instr.cmdUnrecog 0x45524153).wf = false := by decide

/-! ### Decoding: words written out from the spec's encodings -/

/-- R81: the bytes of `UART_OK?`. -/
theorem test_decode_handshake : decodeBytes [0x55, 0x41, 0x52, 0x54, 0x5F, 0x4F, 0x4B, 0x3F] = .ok .handshake := by decide
/-- V31b: `uart_ok?`. -/
theorem test_decode_badProbe :
    decodeBytes [0x75, 0x61, 0x72, 0x74, 0x5F, 0x6F, 0x6B, 0x3F] = .ok (.handshakeBadProbe 0x756172745F6F6B3F) := by
  decide
theorem test_decode_read : decodeBytes [0x52, 0x45, 0x41, 0x44] = .ok .read := by decide
theorem test_decode_writ : decodeBytes [0x57, 0x52, 0x49, 0x54] = .ok .writ := by decide
theorem test_decode_eras : decodeBytes [0x45, 0x52, 0x41, 0x53] = .ok .eras := by decide
/-- V41: `read`. -/
theorem test_decode_unrecog : decodeBytes [0x72, 0x65, 0x61, 0x64] = .ok (.cmdUnrecog 0x72656164) := by decide
theorem test_decode_length : decodeBytes [0x52, 0x45, 0x41] = .error (.wrongLength 3) := by decide
/-- R86: `op = 00`, `addr = 0000000001110010`, ignored byte zero. -/
theorem test_decode_readByte : decodeOp 0b00000000000111001000000000 = .readByte 0x0072 0 := by decide
/-- R86: `op = 01`, `addr = 0000000000010000`, `wdata = 01000010`. -/
theorem test_decode_writeByte : decodeOp 0b01000000000001000001000010 = .writeByte 0x42 0x0010 := by decide
theorem test_decode_eraseChip : decodeOp 0x2000000 = .eraseChip 0 0 := by decide
theorem test_decode_opReserved : decodeOp 0x3000000 = .opReserved 0 := by decide
theorem test_decode_setMode : decodeUop 0b0000000000000000001 = .ok (.setMode .read) := by decide
theorem test_decode_drvAddr : decodeUop 0x15555 = .ok (.drvAddr 0x5555) := by decide
theorem test_decode_drvData : decodeUop 0x200AA = .ok (.drvData 0xAA) := by decide
theorem test_decode_sample : decodeUop 0x30000 = .ok .sample := by decide
theorem test_decode_setRe : decodeUop 0x40001 = .ok (.setRe true) := by decide
theorem test_decode_setWe : decodeUop 0x50000 = .ok (.setWe false) := by decide
theorem test_decode_wait : decodeUop 0x607D0 = .ok (.wait 2000) := by decide
theorem test_decode_uopReserved : decodeUop 0x70000 = .ok (.uopReserved 0) := by decide
/-- R93: DRVDATA with a non-zero must-be-zero part. -/
theorem test_decode_mustBeZero : decodeUop 0x20100 = .error (.mustBeZero 0x20100) := by decide
theorem test_decode_unlock1 : decodeBus false 0x5555AA = .unlock1 := by decide
theorem test_decode_unlock2 : decodeBus false 0x2AAA55 = .unlock2 := by decide
theorem test_decode_cmdProgram : decodeBus false 0x5555A0 = .cmdProgram := by decide
theorem test_decode_cmdEraseSetup : decodeBus false 0x555580 = .cmdEraseSetup := by decide
theorem test_decode_cmdChipErase : decodeBus false 0x555510 = .cmdChipErase := by decide
/-- V26: in `Pgm` the unlock word is a payload. -/
theorem test_decode_payload : decodeBus true 0x5555AA = .payload 0x5555 0xAA := by decide
/-- R88: PULSE is written as its six micro-operation words. -/
theorem test_encode_pulse :
    encode 1 (.pulse 0x5555 0xAA) =
      [.issue (.uop 0x00000), .issue (.uop 0x15555), .issue (.uop 0x200AA), .issue (.uop 0x50001),
        .issue (.uop 0x60001), .issue (.uop 0x50000)] := by decide
theorem test_table_read : decodeTableWord 32 0x52454144 = some .read := by decide
theorem test_table_writeByte : decodeTableWord 32 0x1001042 = some (.writeByte 0x42 0x0010) := by decide

/-! ### Timer -/

/-- V1. -/
theorem test_wait_zero :
    observe (exec (.wait 0) { board [] with timer := { cnt := 0, run := false, exp := true }, now := 7 })
      (fun t => (t.timer, t.now)) = some ({ cnt := 0, run := false, exp := false }, 7) := by decide +kernel
/-- V3b. -/
theorem test_wait_hundred :
    observe (exec (.wait 100) { board [] with now := 5 }) (fun t => (t.timer, t.now, t.outC)) =
      some ({ cnt := 0, run := false, exp := false }, 105, 0x0300) := by decide +kernel

/-- R90, R101: at another `TICKS_PER_MS` the timer still ends at rest and the wait still lasts `n`. -/
theorem test_wait_ticksPerMs :
    observe (exec (.wait 3) { board [] with cfg.ticksPerMs := 10 }) (fun t => (t.timer, t.now)) =
      some ({ cnt := 0, run := false, exp := false }, 3) := by decide +kernel

/-! ### Micro-operations -/

/-- R4, R11, R112: `AH` and the lines where the placement puts them. -/
theorem test_drvAddr_placement :
    observe (exec (.drvAddr 0x12C4) (turnedBoard 0x00FF)) (fun t => (t.outC, t.reN, t.weN, t.unrelC)) =
      some (0x12FF, true, true, 0x00FC) := by decide
theorem test_setWe_placement :
    observe (exec (.setWe true) { turnedBoard 0x00FF with mode := .write }) (·.outC) = some 0x00FD := by decide
/-- V4. -/
theorem test_drvAddr_low :
    observe (exec (.drvAddr 0x0000) (ports 0x03FF 0xA5FF .read)) (fun t => (t.outC, t.outS)) = some (0x0300, 0xA500) := by
  decide
/-- V6. -/
theorem test_drvAddr_unrelated :
    observe (exec (.drvAddr 0x5555) (ports 0xFF00 0x1234 .read)) (fun t => (t.outC, t.outS)) = some (0xFF55, 0x1255) := by
  decide
/-- V7. -/
theorem test_drvData : observe (exec (.drvData 0xAA) (ports 0x0300 0x1255 .write)) (·.outS) = some 0xAA55 := by decide
/-- R119: a DRVADDR and a DRVDATA under low WE# fault, though they drive what the pins carry already. -/
theorem test_drive_under_low_writeEnable :
    faultOf (exec (.drvAddr 0x5555) (ports 0x0155 0x4255 .write)) = some (.chipUndefined (.uop (.drvAddr 0x5555)) 0)
      ∧ faultOf (exec (.drvData 0x42) (ports 0x0155 0x4255 .write)) = some (.chipUndefined (.uop (.drvData 0x42)) 0) := by
  decide

/-- V16b. -/
theorem test_drvData_readMode :
    observe (exec (.drvData 0x99) (ports 0x0300 0x0072 .read)) (fun t => (t.outS, t.dqDriver)) =
      some (0x9972, .none) := by decide
/-- V9. -/
theorem test_setRe_assert : observe (exec (.setRe true) (ports 0xFF55 0 .read)) (·.outC) = some 0xFE55 := by decide
/-- V14b. -/
theorem test_setRe_contention :
    faultOf (exec (.setRe true) (ports 0x0300 0 .write)) = some (.busContention (.setRe true) 0) := by decide
/-- V10. -/
theorem test_setWe_assert : observe (exec (.setWe true) (ports 0x0300 0 .write)) (·.outC) = some 0x0100 := by decide
/-- R51, R119: a write bus cycle that begins in Read mode faults where it begins. -/
theorem test_setWe_readMode :
    faultOf (exec (.setWe true) (ports 0x0300 0 .read)) = some (.chipUndefined (.uop (.setWe true)) 0) := by decide
/-- R51: SETMODE Read during a write bus cycle faults at once. -/
theorem test_setMode_breaks_cycle :
    faultOf (exec (.setMode .read) (ports 0x0100 0 .write)) = some (.chipUndefined (.uop (.setMode .read)) 0) := by
  decide
/-- V15. -/
theorem test_setWe_bothLow :
    faultOf (exec (.setWe true) (ports 0x0200 0 .read)) = some (.chipUndefined (.uop (.setWe true)) 0) := by decide
/-- V11. -/
theorem test_setMode :
    observe (exec (.setMode .write) (ports 0x0300 0x1234 .read)) (fun t => (t.outC, t.outS, t.mode)) =
      some (0x0300, 0x1234, .write) := by decide
/-- V14. -/
theorem test_setMode_contention :
    faultOf (exec (.setMode .write) (ports 0x0200 0 .read)) = some (.busContention (.setMode .write) 0) := by decide

/-- RE# low for 100 ticks with 0x0072 on the pins, as in V13. -/
def samplePoint : State := { board [(0x0072, 0x42)] with outC := 0x0200, outS := 0x0072, now := 100 }

/-- V13. -/
theorem test_sample :
    observe (exec .sample samplePoint) (fun t => t.trace.map Stamped.event) = some [.sample 0x42] := by decide +kernel
/-- V13b: the value is the next free byte. -/
theorem test_sample_floating : samplePoint.sampleValid = true ∧ (board []).sampleValid = false ∧
    (board []).sampled = Config.freeByte 0 := ⟨by decide +kernel, by decide, rfl⟩

/-! ### PULSE and the bus words -/

/-- V17. -/
theorem test_pulse :
    observe (exec (.pulse 0x2AAA 0x55) (board [])) (fun t => (t.outC, t.outS, t.mode, t.now, t.chip.cmd)) =
      some (0x032A, 0x55AA, .write, 1, .idle) := by decide +kernel
/-- V28b. -/
theorem test_pulse_too_short :
    faultOf (exec (.pulse 0x2AAA 0x55) { board [] with cfg.tWeHold := 0 }) =
      some (.chipUndefined (.uop (.setWe false)) 0) := by decide +kernel
/-- R55: the six moves of the recogniser. -/
theorem test_unlock1 : observe (exec .unlock1 (chipBoard .idle)) (·.chip.cmd) = some .u1 := by decide +kernel
theorem test_unlock2 : observe (exec .unlock2 (chipBoard .u1)) (·.chip.cmd) = some .u2 := by decide +kernel
theorem test_cmdProgram : observe (exec .cmdProgram (chipBoard .u2)) (·.chip.cmd) = some .pgm := by decide +kernel
theorem test_cmdEraseSetup : observe (exec .cmdEraseSetup (chipBoard .u2)) (·.chip.cmd) = some .e1 := by decide +kernel
/-- V27. -/
theorem test_payload_mismatch : observe (exec (.payload 0x2AAA 0x54) (chipBoard .u1)) (·.chip.cmd) = some .idle := by
  decide +kernel
/-- V27b: in `Pgm` the unlock word programs. -/
theorem test_unlock1_pgm :
    observe (exec .unlock1 (chipBoard .pgm)) (fun t => (t.chip.mem.read 0x5555, t.chip.cmd, t.chip.busyUntil)) =
      some (0xA0, .idle, 1) := by decide +kernel
/-- R59. -/
theorem test_cmdChipErase :
    observe (exec .cmdChipErase (chipBoard .e3)) (fun t => (t.chip.mem, t.chip.cmd, t.chip.busyUntil)) =
      some ({ erased := true, cells := [] }, .idle, 100) := by decide +kernel
/-- V23, as a payload. -/
theorem test_payload_and :
    observe (exec (.payload 0x0010 0x3C) ((board [(0x0010, 0xF0)]).setCmd .pgm)) (·.chip.mem.cells) =
      some [(0x0010, 0x30)] := by decide +kernel

/-! ### Device operations -/

/-- V18. -/
theorem test_readByte :
    observe (exec (.readByte 0x0072 0) (board [(0x0072, 0x42)])) (fun t => (t.outC, t.outS, t.now, t.seq.rdata)) =
      some (0x0300, 0x0072, 100, 0x42) := by decide +kernel
/-- R132, R213: from an open write bus cycle READBYTE ends the cycle, here the first unlock cycle, and reads. -/
theorem test_readByte_open_cycle :
    observe (exec (.readByte 0x0072 0) { ports 0x0155 0xAA55 .write with now := 1 })
      (fun t => (t.chip.cmd, t.mode, t.seq.rdata)) = some (.u1, .read, 0xFF) := by decide +kernel
/-- V19b. -/
theorem test_readByte_from_write :
    observe (exec (.readByte 0x1234 0) { board [(0x1234, 0x00)] with mode := .write })
      (fun t => (t.outC, t.outS, t.mode, t.seq.rdata)) = some (0x0312, 0x0034, .read, 0x00) := by decide +kernel
/-- V20. -/
theorem test_writeByte :
    observe (exec (.writeByte 0x42 0x0010) (board []))
      (fun t => (t.outC, t.outS, t.now, t.chip.busyUntil, t.chip.mem.read 0x0010)) =
      some (0x0300, 0x0010, 1004, 1005, 0x42) := by decide +kernel
/-- V26. -/
theorem test_writeByte_unlock_address :
    observe (exec (.writeByte 0xAA 0x5555) (board [])) (fun t => (t.chip.mem.read 0x5555, t.chip.cmd)) =
      some (0xAA, .idle) := by decide +kernel
/-- V21. -/
theorem test_eraseChip :
    observe (exec (.eraseChip 0 0) (board [(0x0010, 0x42)]))
      (fun t => (t.outC, t.outS, t.now, t.chip.busyUntil, t.chip.mem.read 0x0010)) =
      some (0x0355, 0x1055, 2006, 106, 0xFF) := by decide +kernel
/-- R93. -/
theorem test_opReserved (s : State) : exec (.opReserved 0) s = .refused (.reservedOp 0x3000000) := rfl
theorem test_uopReserved (s : State) : exec (.uopReserved 0) s = .refused (.reservedUop 0x70000) := rfl

/-! ### Host commands, each as one step of the machine -/

/-- V30. -/
theorem test_step_handshake :
    observe (step (probeBoard [0x55, 0x41, 0x52, 0x54, 0x5F, 0x4F, 0x4B, 0x3F])) (fun t => (t.fe.dsp, t.fe.tx)) =
      some (.command, [0x55, 0x41, 0x52, 0x54, 0x5F, 0x4F, 0x4B, 0x21]) := by decide
/-- V31. -/
theorem test_step_badProbe :
    observe (step (probeBoard [0x55, 0x41, 0x52, 0x54, 0x5F, 0x4F, 0x4B, 0x21])) (fun t => (t.fe.dsp, t.fe.tx)) =
      some (.command, [0x55, 0x4E, 0x52, 0x45, 0x43, 0x4F, 0x47, 0x3F]) := by decide
/-- V32. -/
theorem test_step_read :
    observe (step (commandBoard [0x52, 0x45, 0x41, 0x44])) (fun t => (t.fe.tx.take 3, t.fe.tx.length, t.fe.tx.drop 32)) =
      some ([0x34, 0x32, 0x00], 35, [0x4F, 0x4B, 0x21]) := by decide +kernel
/-- V38. -/
theorem test_step_writ :
    observe (step { commandBoard [0x57, 0x52, 0x49, 0x54, 0x30, 0x30, 0x37] with
        chip.mem := { erased := true, cells := [] } }) (fun t => (t.fe.tx, t.chip.mem.cells)) =
      some ([0x67, 0x6F, 0x74, 0x20, 0x77, 0x72, 0x69, 0x74, 0x65, 0x4F, 0x4B, 0x21], [(0x0072, 0x07)]) := by
  decide +kernel
/-- V36 and V43: a malformed operand under each policy. -/
theorem test_step_writ_malformed :
    observe (step (commandBoard [0x57, 0x52, 0x49, 0x54, 0x61, 0x62, 0x63])) (fun t => (t.fe.dsp, t.fe.tx, t.outC)) =
        some (.halted, [0x67, 0x6F, 0x74, 0x20, 0x77, 0x72, 0x69, 0x74, 0x65], 0x0300)
      ∧ observe (step { commandBoard [0x57, 0x52, 0x49, 0x54, 0x61, 0x62, 0x63] with
          cfg.decodeFailPolicy := .replyAndResume }) (fun t => (t.fe.dsp, t.fe.tx.drop 9)) =
        some (.command, [0x55, 0x4E, 0x52, 0x45, 0x43, 0x4F, 0x47, 0x3F]) := by decide
/-- V40. -/
theorem test_step_eras :
    observe (step (commandBoard [0x45, 0x52, 0x41, 0x53])) (fun t => (t.fe.tx, t.now, t.chip.mem.cells)) =
      some ([0x4F, 0x4B, 0x21], 2006, []) := by decide +kernel
/-- V41. -/
theorem test_step_unrecog_ignore :
    observe (step (commandBoard [0x72, 0x65, 0x61, 0x64])) (fun t => (t.fe.dsp, t.fe.rx, t.fe.tx)) =
      some (.command, [], []) := by decide
/-- V42. -/
theorem test_step_unrecog_reply :
    observe (step { commandBoard [0x50, 0x49, 0x4E, 0x47] with cfg.unrecogPolicy := .replyUnrecog }) (·.fe.tx) =
      some [0x55, 0x4E, 0x52, 0x45, 0x43, 0x4F, 0x47, 0x3F] := by decide
/-- R83: D3 values of the spec's list. -/
theorem test_parseD3_accepts :
    [[0x30, 0x30, 0x30], [0x30, 0x39, 0x39], [0x31, 0x32, 0x38], [0x32, 0x35, 0x35]].map parseD3 =
      [some 0, some 99, some 128, some 255] := by decide
theorem test_parseD3_refuses :
    [[0x32, 0x35, 0x36], [0x39, 0x39, 0x39], [0x31, 0x32, 0x61], [0x2D, 0x30, 0x31], [0x20, 0x31, 0x32]].map parseD3 =
      [none, none, none, none, none] := by decide
/-- R85: HEXBUF values of the spec's list. -/
theorem test_hexbuf :
    [0x09, 0x0A, 0x7F, 0x9A, 0xF0].map (fun v => (hexbuf 32 v).take 2) =
      [[0x30, 0x39], [0x30, 0x61], [0x37, 0x66], [0x39, 0x61], [0x66, 0x30]] := by decide
theorem test_hexbuf_length : [0, 1, 4].map (fun n => hexbuf n 0x42) = [[], [0x34], [0x34, 0x32, 0, 0]] := by decide
/-- P4: a halted device is stuck. -/
theorem test_step_halted :
    faultOf (step { commandBoard [0x52, 0x45, 0x41, 0x44] with fe.dsp := .halted }) = some .halted := by decide
/-- The host's placement of a word: the very next step runs it. -/
theorem test_withFetchWord :
    observe (step (State.reset.withFetchWord 24 0x5555AA)) (·.chip.cmd) = some .u1
      ∧ observe (step (State.reset.withFetchWord 64 0x554152545F4F4B3F)) (·.fe.dsp) = some .command := by
  decide +kernel

/-! ### Witnesses: states and operands that meet the hypotheses of each statement

A statement about one clause has a witness for each clause; boundary values where a clause has a range. -/

/-- Any decidable hypotheses about `board` are met by evaluation. -/
theorem witness_PowerOnMeetsTheInvariant : FlashMem.wf { erased := true, cells := [(0, 0x42), (65535, 0)] } = true := by
  decide

theorem witness_StepRunsTheOldestIssuedWord :
    (board []).fe.dsp ≠ .halted ∧ (board []).seq.busy = false
      ∧ { board [] with issue := [.uop 0x00001] }.issue = [IssueWord.uop 0x00001]
      ∧ decodeIssue (decide ((board []).chip.cmd = .pgm)) (.uop 0x00001) = .ok (.setMode .read)
      ∧ decodeIssue (decide ((board []).chip.cmd = .pgm)) (.uop 0x20100) = .error (.mustBeZero 0x20100) := by decide

/-- Exactly enough bytes, and one byte too few, in each state of the front end. -/
theorem witness_StepRunsTheNextToken :
    let s := probeBoard [0, 1, 2, 3, 4, 5, 6, 7]
    let t := commandBoard [0, 1, 2]
    (s.seq.busy = false ∧ s.issue = [] ∧ s.fe.writPending = false ∧ s.fe.dsp = .handshake ∧ 8 ≤ s.fe.rx.length)
      ∧ (t.seq.busy = false ∧ t.issue = [] ∧ t.fe.writPending = false ∧ t.fe.dsp = .command ∧ t.fe.rx.length < 4)
      ∧ (probeBoard [0, 1, 2, 3, 4, 5, 6]).fe.rx.length < 8 ∧ 4 ≤ (commandBoard [0, 1, 2, 3]).fe.rx.length := by decide

/-- An operation at its first index, and one past its last. -/
theorem witness_StepAdvancesTheMicroProgramByOne :
    let s := acceptRequest .readByte 0x0072 0 (board [])
    s.fe.dsp ≠ .halted ∧ s.seq.busy = true
      ∧ (microProgram s.cfg s.seq.op s.seq.addr s.seq.wdata)[s.seq.upc]? = some (.setRe false)
      ∧ (observe (step s) (·.seq.upc)) = some 1
      ∧ (microProgram s.cfg s.seq.op s.seq.addr s.seq.wdata).length ≤ (s.setUpc 8).seq.upc := by decide

theorem witness_DecodeOfEncodeIsTheInstruction :
    (Instr.handshakeBadProbe 0x554152545F4F4B21).wf = true ∧ (∀ a d, Instr.handshakeBadProbe 0x554152545F4F4B21 ≠ .pulse a d) :=
  ⟨by decide, by simp⟩

theorem witness_EncodeOfDecodeIsTheWord : decode false (.issue (.uop 0x200FF)) = .ok (.drvData 0xFF) := by decide

theorem witness_TokenBytesDecode :
    Instr.wf .read = true ∧ encode 1 .read = [.h4 readToken] ∧ (CodeWord.h4 readToken).tokenBytes ≠ [] := by decide

/-- One word for each clause and each part that must be zero; the recogniser's context is any. -/
theorem witness_ReservedCodesAreRefused :
    (0x3FFFFFF : BitVec 26).extractLsb' 24 2 = 3 ∧ (0x7FFFF : BitVec 19).extractLsb' 16 3 = 7
      ∧ ((0x00002 : BitVec 19).extractLsb' 16 3 = 0 ∧ (0x00002 : BitVec 19).extractLsb' 1 15 ≠ 0)
      ∧ ((0x48000 : BitVec 19).extractLsb' 16 3 = 4 ∧ (0x48000 : BitVec 19).extractLsb' 1 15 ≠ 0)
      ∧ ((0x50002 : BitVec 19).extractLsb' 16 3 = 5 ∧ (0x50002 : BitVec 19).extractLsb' 1 15 ≠ 0)
      ∧ ((0x20100 : BitVec 19).extractLsb' 16 3 = 2 ∧ (0x20100 : BitVec 19).extractLsb' 8 8 ≠ 0)
      ∧ ((0x30001 : BitVec 19).extractLsb' 16 3 = 3 ∧ (0x30001 : BitVec 19).extractLsb' 0 16 ≠ 0) := by decide

/-- Idle lines, RE# low, WE# low, both low: the line configurations of the clauses about micro-operations. -/
theorem witness_lines :
    ((ports 0x0300 0 .write).reN = true ∧ (ports 0x0300 0 .write).weN = true)
      ∧ ((ports 0x0200 0 .read).reN = false ∧ (ports 0x0200 0 .read).weN = true ∧ (ports 0x0200 0 .read).mode = .read)
      ∧ ((ports 0x0100 0 .write).reN = true ∧ (ports 0x0100 0 .write).weN = false)
      ∧ ((ports 0x0000 0 .write).reN = false ∧ (ports 0x0000 0 .write).weN = false) := by decide

/-- High lines; low WE# with SETMODE Write; low RE# with SETMODE Read; then each fault: contention, both lines low, and
SETMODE Read under low WE#. -/
theorem witness_SetModeWritesTheModeOnly :
    ((ports 0x0300 0 .write).reN = true ∧ (ports 0x0300 0 .write).weN = true)
      ∧ ((ports 0x0100 0 .write).reN = true ∧ BusMode.write = .write)
      ∧ ((ports 0x0200 0 .read).weN = true ∧ BusMode.read = .read)
      ∧ ((ports 0x0200 0 .read).reN = false ∧ (ports 0x0200 0 .read).weN = true ∧ BusMode.write = .write)
      ∧ ((ports 0x0000 0 .write).weN = false ∧ (ports 0x0000 0 .write).reN = false)
      ∧ ((ports 0x0100 0 .write).weN = false ∧ BusMode.read = .read) := by decide

/-- High WE# with a change of the address and with the address kept; low WE# with the address kept. -/
theorem witness_DriveAddressSplitsTheAddress :
    (PinsSafe (ports 0x0300 0 .read) ∧ (ports 0x0300 0 .read).weN = true)
      ∧ (PinsSafe (ports 0x0355 0x0055 .write) ∧ (ports 0x0355 0x0055 .write).weN = true
        ∧ (ports 0x0355 0x0055 .write).addrPins = 0x5555)
      ∧ ((ports 0x0155 0x0055 .write).weN = false ∧ (ports 0x0155 0x0055 .write).addrPins = 0x5555) :=
  ⟨⟨.inl (by decide), by decide⟩, ⟨.inl (by decide), by decide⟩, by decide⟩

theorem witness_DriveDataWritesTheDataHalf :
    (PinsSafe (ports 0x0300 0 .read) ∧ (ports 0x0300 0 .read).weN = true ∧ (ports 0x0300 0 .read).reN = true)
      ∧ ((ports 0x0100 0x4200 .write).weN = false ∧ (ports 0x0100 0x4200 .write).dout = 0x42) :=
  ⟨⟨.inl (by decide), by decide⟩, by decide⟩

/-- V13 at the boundary of the access time (1 tick), and one moment before it. -/
theorem witness_SampleReadsTheArrayOrDraws :
    PinsSafe samplePoint
      ∧ (let s := { samplePoint with now := 1 }
        s.mode = .read ∧ s.reN = false ∧ s.weN = true ∧ s.chip.tRe + s.cfg.tAcc ≤ s.now
          ∧ s.chip.tAddr + s.cfg.tAcc ≤ s.now ∧ s.chip.busyUntil ≤ s.now)
      ∧ (let s := { samplePoint with now := 0 }
        ¬ (s.mode = .read ∧ s.reN = false ∧ s.weN = true ∧ s.chip.tRe + s.cfg.tAcc ≤ s.now
          ∧ s.chip.tAddr + s.cfg.tAcc ≤ s.now ∧ s.chip.busyUntil ≤ s.now)) :=
  ⟨.inr (by decide), by decide +kernel, by decide +kernel⟩

/-- Releasing RE# with WE# high and with WE# low; asserting it; then each fault. -/
theorem witness_SetReadEnableWritesItsBit :
    ((ports 0x0200 0 .read).weN = true ∧ (ports 0x0100 0 .write).mode = .write)
      ∧ ((ports 0x0300 0 .read).weN = true ∧ (ports 0x0300 0 .read).mode = .read)
      ∧ ((ports 0x0300 0 .write).weN = true ∧ (ports 0x0300 0 .write).mode = .write)
      ∧ (ports 0x0100 0 .write).weN = false := by decide

/-- Write mode, with WE# high and with WE# low already; then each fault: RE# low, and Read mode under a high RE#. -/
theorem witness_AssertWriteEnableBeginsACycle :
    ((ports 0x0300 0 .write).reN = true ∧ (ports 0x0300 0 .write).mode = .write)
      ∧ ((ports 0x0100 0 .write).reN = true ∧ (ports 0x0100 0 .write).mode = .write)
      ∧ (ports 0x0200 0 .read).reN = false
      ∧ ((ports 0x0300 0 .read).reN = true ∧ (ports 0x0300 0 .read).mode = .read) := by decide

/-- WE# high; a cycle of exactly `T_WP`; a cycle one moment too short; a cycle that ends while the chip is busy. -/
theorem witness_ReleaseWriteEnableCompletesTheCycle :
    ((ports 0x0300 0 .write).weN = true ∧ PinsSafe (ports 0x0300 0 .write))
      ∧ (let s := { ports 0x0155 0xAA55 .write with now := 1 }
        s.weN = false ∧ s.reN = true ∧ s.mode = .write
          ∧ s.chip.tWe + s.cfg.tWp ≤ s.now ∧ s.chip.busyUntil ≤ s.now)
      ∧ (let s := ports 0x0155 0xAA55 .write
        s.weN = false ∧ s.now < s.chip.tWe + s.cfg.tWp)
      ∧ (let s := { ports 0x0155 0xAA55 .write with chip.busyUntil := 1 }
        s.weN = false ∧ s.now < s.chip.busyUntil) :=
  ⟨⟨by decide, .inl (by decide)⟩, by decide +kernel, by decide +kernel, by decide +kernel⟩

theorem witness_WaitLetsTimePassAndNothingElse :
    PinsSafe (ports 0x0300 0 .write) ∧ PinsSafe (ports 0x0200 0 .read) ∧ (65535 : U16) ≠ 0 :=
  ⟨.inl (by decide), .inr (by decide), by decide⟩

theorem witness_WaitLastsAsLongAsTheEnvironmentDraws :
    PinsSafe (board []) ∧ (1 : U16) ≠ 0 ∧ (((1 : U16).toNat : Nat) : Time) ≤ 1
      ∧ { board [] with draws.elapsed := [1] }.draws.elapsed = [1] :=
  ⟨.inl (by decide), by decide, by decide +kernel, by decide +kernel⟩

theorem witness_TimerCountsDownOnceAndStops :
    (0xFFFF : U16) ≠ 0 ∧ 65534 < (0xFFFF : U16).toNat ∧ (0xFFFF : U16).toNat ≤ 65535
      ∧ ({ cnt := 5, run := false, exp := false } : Timer).run = false := by decide

theorem witness_PrimitivesMaskAndPreserve :
    (observe (exec (.drvAddr 0xFFFF) (ports 0xFF00 0x1234 .read)) (·.outC)) = some 0xFFFF
      ∧ (observe (exec (.drvData 0xFF) (ports 0xFF00 0x1234 .read)) (·.outS)) = some 0xFF34
      ∧ (observe (exec (.setRe true) (ports 0xFF00 0x1234 .read)) (·.outC)) = some 0xFE00
      ∧ (observe (exec (.setWe true) (ports 0xFF00 0x1234 .write)) (·.outC)) = some 0xFD00
      ∧ (observe (exec (.setMode .write) (ports 0xFF00 0x1234 .read)) (·.mode)) = some .write := by decide

theorem witness_NoMicroOperationLeavesAHazard :
    (observe (exec (microInstr (.setRe true)) (ports 0x0300 0 .read)) (·.outC)) = some 0x0200
      ∧ faultOf (exec (microInstr (.setRe true)) (ports 0x0300 0 .write)) = some (.busContention (.setRe true) 0)
      ∧ faultOf (exec (microInstr (.setRe true)) (ports 0x0100 0 .write)) =
        some (.chipUndefined (.uop (.setRe true)) 0)
      ∧ faultOf (exec (microInstr (.setWe true)) (ports 0x0300 0 .read)) =
        some (.chipUndefined (.uop (.setWe true)) 0) := by decide

theorem witness_PrimitivesAreIdempotent :
    (∀ n, MicroOp.setWe true ≠ .wait n) ∧ MicroOp.setWe true ≠ .sample
      ∧ (observe (exec (microInstr (.setWe true)) (ports 0x0300 0 .write)) (·.outC)) = some 0x0100
      ∧ (observe (exec .sample (board [])) (·.outC)) = some 0x0300 := ⟨by simp, by decide, by decide, by decide⟩

/-- The recogniser's states on a chip that becomes free at this very moment. -/
theorem witness_recogniser :
    (∀ c ∈ [ChipCmd.idle, .u1, .u2, .pgm, .e1, .e2, .e3],
      (chipBoard c).chip.cmd = c ∧ (chipBoard c).chip.busyUntil ≤ (chipBoard c).now ∧ (chipBoard c).chip.mem.wf = true) := by
  decide +kernel

theorem witness_ExpectedWordsAdvanceTheRecogniser :
    (chipBoard .e2).chip.busyUntil ≤ (chipBoard .e2).now ∧ (chipBoard .e2).chip.cmd = .e2
      ∧ (chipBoard .u2).chip.cmd = .u2 := by decide +kernel

/-- V27: 0x2AAA54 in `U1`; an unlock word in `E3`. -/
theorem witness_UnexpectedWordsReturnToIdle :
    ((chipBoard .u1).chip.cmd = .u1 ∧ ¬ ((0x2AAA : U16) = 0x2AAA ∧ (0x54 : Byte) = 0x55))
      ∧ ((chipBoard .e3).chip.cmd = .e3 ∧ ¬ ((0x5555 : U16) = 0x5555 ∧ (0xAA : Byte) = 0x10))
      ∧ (chipBoard .e3).chip.cmd ≠ .pgm ∧ (chipBoard .u1).chip.busyUntil ≤ (chipBoard .u1).now := by decide +kernel

theorem witness_PayloadProgramsOneCell :
    (chipBoard .pgm).chip.mem.wf = true ∧ (chipBoard .pgm).chip.cmd = .pgm
      ∧ (chipBoard .pgm).chip.busyUntil ≤ (chipBoard .pgm).now := by decide +kernel

theorem witness_CommandWordsArePayloads :
    (chipBoard .pgm).chip.cmd = .pgm ∧ (chipBoard .pgm).chip.busyUntil ≤ (chipBoard .pgm).now
      ∧ (chipBoard .pgm).chip.mem.wf = true := by decide +kernel

theorem witness_ChipEraseErasesEveryCell :
    (chipBoard .e3).chip.cmd = .e3 ∧ (chipBoard .e3).chip.busyUntil ≤ (chipBoard .e3).now := by decide +kernel

theorem witness_BusyChipRefusesEveryWord :
    let s := { chipBoard .pgm with chip.busyUntil := 1 }
    s.now < s.chip.busyUntil := by decide +kernel

theorem witness_CanonicalArraysThatReadAlikeAreEqual :
    let m : FlashMem := { erased := true, cells := [(0, 1)] }
    m.wf = true ∧ m.erased = m.erased ∧ ∀ a, m.read a = m.read a := ⟨by decide, rfl, fun _ => rfl⟩

/-- Premises of a pulse at their boundary: `T_WP = T_WE_HOLD`, the chip free exactly when the earliest pulse ends. -/
theorem witness_PulseDeliversOneWriteCycle : WriteReady { board [] with chip.busyUntil := 1 } :=
  ⟨⟨by decide, by decide⟩, by decide +kernel, by decide +kernel⟩

theorem board_ready (cells : List Host.Cell) : OperationReady (board cells) :=
  ⟨⟨⟨powerOn_reN _ { erased := true, cells := cells }, powerOn_weN _ { erased := true, cells := cells }⟩,
      show (1 : Time) ≤ ((1 : U16).toNat : Time) from by decide +kernel,
      show (0 : Time) ≤ 0 + ((1 : U16).toNat : Time) from by decide +kernel⟩, rfl, rfl⟩

theorem witness_ReadByteReturnsTheArrayByte :
    let s := { board [(0x0072, 0x42)] with chip.busyUntil := 100 }
    s.seq.busy = false ∧ s.weN = true ∧ s.cfg.tAcc ≤ (s.cfg.tReadSettle.toNat : Time) ∧ s.chip.tAddr ≤ s.now
      ∧ s.chip.busyUntil ≤ s.now + (s.cfg.tReadSettle.toNat : Time)
      ∧ s.timer = { cnt := 0, run := false, exp := false } := by decide +kernel

/-- Also from a state in which RE# is low and the mode is Write. -/
theorem witness_ReadByteTraceNeverAssertsWriteEnable :
    (ports 0x0200 0 .write).seq.busy = false ∧ (ports 0x0200 0 .write).weN = true
      ∧ ∃ t, exec (.readByte 0x0072 0) (ports 0x0200 0 .write) = .next t :=
  ⟨by decide, by decide, _, show exec (.readByte 0x0072 0) (ports 0x0200 0 .write) = _ from
    request_readByte 0x0072 0 (ports 0x0200 0 .write) (by decide) (by decide)⟩

theorem witness_WriteByteProgramsTheCell :
    OperationReady (board [(0x0010, 0xF0)]) ∧ (board [(0x0010, 0xF0)]).chip.mem.wf = true :=
  ⟨board_ready _, by decide⟩

theorem witness_WriteByteTraceIsUnlockWaitPayload :
    OperationReady (board []) ∧ ∃ t, exec (.writeByte 0x42 0x0010) (board []) = .next t :=
  ⟨board_ready _, _, show exec (.writeByte 0x42 0x0010) (board []) = _ from
    request_writeByte 0x0010 0x42 (board []) rfl (board_ready _).pulseReady rfl⟩

theorem witness_EraseChipErasesEveryCell :
    OperationReady (board [(0x0010, 0xF0)])
      ∧ (board []).cfg.tSce ≤ ((board []).cfg.tEraseWait.toNat : Time) := ⟨board_ready _, by decide +kernel⟩

theorem witness_EraseChipTraceIsSixPulsesAndAWait :
    OperationReady (board []) ∧ ∃ t, exec (.eraseChip 0 0) (board []) = .next t :=
  ⟨board_ready _, _, show exec (.eraseChip 0 0) (board []) = _ from
    request_eraseChip 0 0 (board []) rfl (board_ready _).pulseReady rfl⟩

/-- A quiescent state whose chip is busy for long: the operation meets the chip's refusal.  READBYTE from a low RE# in
Write mode, and from a low WE#. -/
theorem witness_DeviceOperationsRaiseNoBusHazard :
    Quiescent (board []) ∧ Quiescent { board [] with chip.busyUntil := 500 }
      ∧ faultOf (exec (.writeByte 0 0) { board [] with chip.busyUntil := 500 }) =
        some (.chipUndefined (.uop (.setWe false)) 1)
      ∧ (∀ s ∈ [ports 0x0200 0 .write, ports 0x0100 0 .write],
        s.seq.busy = false ∧ ¬ (s.reN = false ∧ s.weN = false) ∧ ¬ (s.weN = false ∧ s.mode = .read)) :=
  ⟨⟨⟨by decide, by decide⟩, rfl⟩, ⟨⟨by decide, by decide⟩, rfl⟩, by decide +kernel, by decide⟩

theorem witness_OperationIsItsStepsThroughTheSequencer :
    (board []).seq.busy = false ∧ (board []).fe.dsp ≠ .halted := by decide

/-- An operation at its last step. -/
theorem witness_RequestWhileBusyIsHeld :
    let s := (acceptRequest .readByte 0x0072 0 (board [])).setUpc 8
    s.fe.dsp ≠ .halted ∧ s.seq.busy = true
      ∧ s.seq.upc ≤ (microProgram s.cfg s.seq.op s.seq.addr s.seq.wdata).length
      ∧ ∃ t, Host.Core.run Sys2Proof.core
          ((microProgram s.cfg s.seq.op s.seq.addr s.seq.wdata).length - s.seq.upc + 1) s = .next t :=
  ⟨by decide, rfl, by decide, _, rfl⟩

theorem witness_HandshakeAnswersAndEntersTheLoop : ∃ p, Instr.handshakeBadProbe 0 = .handshakeBadProbe p := ⟨0, rfl⟩

theorem witness_FirstEightBytesAreTheProbe :
    let s := probeBoard ([0, 0, 0, 0, 0, 0, 0, 0] ++ [1])
    [(0 : Byte), 0, 0, 0, 0, 0, 0, 0].length = 8 ∧ s.fe.dsp = .handshake ∧ s.fe.writPending = false
      ∧ s.fe.rx = [0, 0, 0, 0, 0, 0, 0, 0] ++ [1] ∧ s.seq.busy = false ∧ s.issue = [] := by decide

theorem witness_ReadSendsTheHexbufAndOk :
    let s := commandBoard []
    s.seq.busy = false ∧ s.weN = true ∧ s.cfg.tAcc ≤ (s.cfg.tReadSettle.toNat : Time) ∧ s.chip.tAddr ≤ s.now
      ∧ s.chip.busyUntil ≤ s.now + (s.cfg.tReadSettle.toNat : Time)
      ∧ s.timer = { cnt := 0, run := false, exp := false } := by decide +kernel

theorem commandBoard_ready (rx : List Byte) : OperationReady (commandBoard rx) := board_ready [(0x0072, 0x42)]

/-- The largest operand, `255`. -/
theorem witness_WritProgramsTheFixedAddress :
    let s := commandBoard [0x32, 0x35, 0x35, 0x52]
    OperationReady s ∧ s.chip.mem.wf = true ∧ [(0x32 : Byte), 0x35, 0x35].length = 3
      ∧ parseD3 [0x32, 0x35, 0x35] = some 0xFF ∧ s.fe.rx = [0x32, 0x35, 0x35] ++ [0x52] :=
  ⟨commandBoard_ready _, by decide, rfl, by decide, rfl⟩

/-- Two operand bytes there, then the third. -/
theorem witness_WritHoldsUntilItsOperandArrives :
    let s := commandBoard [0x32, 0x35]
    let t := { s with fe.writPending := true }
    s.fe.rx.length < 3 ∧ (t.fe.dsp = .command ∧ t.fe.writPending = true ∧ t.seq.busy = false ∧ t.issue = []
        ∧ t.fe.rx.length < 3)
      ∧ (s.fe.dsp = .command ∧ s.fe.writPending = false ∧ s.seq.busy = false ∧ s.issue = []
        ∧ 3 ≤ (s.fe.rx ++ [0x35]).length ∧ ∃ u, exec .writ s = .next u) :=
  ⟨by decide, by decide, by decide, by decide, by decide, by decide, by decide, _, rfl⟩

/-- The smallest value refused, `256`, under each policy. -/
theorem witness_MalformedOperandFailsBeforeTheBus :
    let s := commandBoard [0x32, 0x35, 0x36, 0x52]
    [(0x32 : Byte), 0x35, 0x36].length = 3 ∧ parseD3 [0x32, 0x35, 0x36] = none
      ∧ s.fe.rx = [0x32, 0x35, 0x36] ++ [0x52] ∧ s.cfg.decodeFailPolicy = .halt
      ∧ { s with cfg.decodeFailPolicy := .replyAndResume }.cfg.decodeFailPolicy = .replyAndResume := by decide

theorem witness_OnlyResetLeavesHalted :
    { board [] with fe.dsp := .halted }.fe.dsp = .halted ∧ (acceptRequest .readByte 0 0 (board [])).seq.busy = true
      ∧ (chipBoard .u1).chip.cmd ≠ .idle ∧ (board []).seq.busy = false ∧ (board []).chip.cmd = .idle := by decide

theorem witness_ErasErasesAndAnswersOk :
    OperationReady (commandBoard []) ∧ (commandBoard []).cfg.tSce ≤ ((commandBoard []).cfg.tEraseWait.toNat : Time) :=
  ⟨commandBoard_ready _, by decide +kernel⟩

theorem witness_UnknownTokenIsIgnoredOrAnswered :
    (board []).cfg.unrecogPolicy = .ignore
      ∧ { board [] with cfg.unrecogPolicy := .replyUnrecog }.cfg.unrecogPolicy = .replyUnrecog := by decide

/-- From `Handshake`, and from `Command` to `Halted` (V36). -/
theorem witness_FrontEndFollowsItsStateMachine :
    let s := probeBoard [0, 0, 0, 0, 0, 0, 0, 0]
    let t := commandBoard [0x57, 0x52, 0x49, 0x54, 0x61, 0x62, 0x63]
    (s.fe.writPending = true → s.fe.dsp = .command) ∧ s.fe.dsp = .handshake ∧ (∃ u, step s = .next u)
      ∧ (t.fe.writPending = true → t.fe.dsp = .command) ∧ t.fe.dsp = .command
      ∧ observe (step t) (·.fe.dsp) = some .halted :=
  ⟨by decide, by decide, ⟨_, rfl⟩, by decide, by decide, by decide⟩

theorem inv_board (cells : List Host.Cell) (h : FlashMem.wf { erased := true, cells := cells } = true) :
    Inv (board cells) := by
  have hr : (board cells).reN = true := powerOn_reN _ { erased := true, cells := cells }
  have hw : (board cells).weN = true := powerOn_weN _ { erased := true, cells := cells }
  constructor <;> (try simp only [hr, hw]) <;> simp [board, State.reset, State.powerOn, h]

/-- A step that changes the flash, from a state that meets the invariant. -/
theorem witness_EveryStepKeepsTheInvariant :
    let s := { (board [(0x0010, 0xF0)]).setCmd .pgm with issue := [.bus 0x00103C] }
    Inv s ∧ ∃ t, step s = .next t ∧ t.chip.mem.read 0x0010 = 0x30 := by
  refine ⟨?_, ?_⟩
  · have h := inv_board [(0x0010, 0xF0)] (by decide)
    exact ⟨h.memory, h.notBothLow, h.noContention, h.cycleInWriteMode, h.timerAtRest, h.clock, h.addrStamp,
      h.reStamp, h.weStamp, h.upc, h.writ⟩
  · refine ⟨_, show step { (board [(0x0010, 0xF0)]).setCmd .pgm with issue := [.bus 0x00103C] } = _ from
      busCycle_idle 0x0010 0x3C ((board [(0x0010, 0xF0)]).setCmd .pgm) (by decide +kernel), by decide +kernel⟩

theorem witness_UnrelatedBitsAndParametersNeverChange :
    observe (step { ports 0xFF00 0 .read with issue := [.uop 0x15555] }) (·.outC) = some 0xFF55 := by decide

theorem witness_ClockTraceAndStreamsOnlyGrow :
    observe (step { board [] with issue := [.uop 0x60001] }) (·.now) = some 1 := by decide +kernel

theorem reference_meets : Config.reference.Meets := by
  refine ⟨?_, ?_, ?_, ?_, ?_⟩ <;> decide +kernel

/-- A session at its boundary: the last byte program ends exactly `T_BP` from now. -/
theorem witness_HostSessionNeverMeetsAHazard :
    Session { commandBoard [0x52, 0x45, 0x41, 0x44] with chip.busyUntil := 1 } :=
  ⟨reference_meets, rfl, ⟨⟨by decide, by decide⟩, rfl⟩, rfl, by decide +kernel, by decide +kernel⟩

theorem witness_WriteThenReadReturnsOldAndNew :
    OperationReady (board []) ∧ (board []).chip.mem.wf = true ∧ (board []).cfg.Meets
      ∧ (board []).chip.tAddr ≤ (board []).now ∧ (0x0010 : U16) ≠ 0x5555 :=
  ⟨board_ready _, by decide, reference_meets, by decide +kernel, by decide⟩

theorem witness_EraseWriteReadAnswersTheByteWritten :
    let s := commandBoard [0x30, 0x36, 0x36]
    Session s ∧ s.chip.mem.wf = true ∧ [(0x30 : Byte), 0x36, 0x36].length = 3
      ∧ parseD3 [0x30, 0x36, 0x36] = some 0x42 ∧ s.fe.rx = [0x30, 0x36, 0x36] :=
  ⟨⟨reference_meets, rfl, ⟨⟨by decide, by decide⟩, rfl⟩, rfl, by decide +kernel, by decide +kernel⟩,
    by decide, rfl, by decide, rfl⟩

/-- A cycle of exactly `T_WP` on a free chip, READBYTE's own premises with it; a cycle one moment too short; a chip that is
busy. -/
theorem witness_ReadByteFromLowWriteEnableEndsTheCycle :
    let s := { ports 0x0155 0xAA55 .write with now := 1 }
    let short := ports 0x0155 0xAA55 .write
    let busy := { ports 0x0155 0xAA55 .write with chip.busyUntil := 1 }
    (s.seq.busy = false ∧ s.weN = false ∧ s.reN = true ∧ s.mode = .write ∧ s.chip.tWe + s.cfg.tWp ≤ s.now
        ∧ s.chip.busyUntil ≤ s.now ∧ s.timer = { cnt := 0, run := false, exp := false }
        ∧ s.cfg.tAcc ≤ (s.cfg.tReadSettle.toNat : Time) ∧ s.chip.tAddr ≤ s.now
        ∧ observe (exec (.payload s.addrPins s.dout) s) (·.chip.busyUntil) = some 0
        ∧ (0 : Time) ≤ s.now + (s.cfg.tReadSettle.toNat : Time))
      ∧ (short.seq.busy = false ∧ short.weN = false ∧ short.reN = true ∧ short.mode = .write
        ∧ short.now < short.chip.tWe + short.cfg.tWp)
      ∧ busy.now < busy.chip.busyUntil := by decide +kernel

end Sys2Proof.Tests
end

section
/-! PROOF. PULSE is its expansion (R88): a list of micro-operations run in place is the same list executed as
instructions. -/

namespace Sys2Proof.Machine

@[simp] theorem execAll_nil (s : State) : execAll [] s = .next s := rfl
@[simp] theorem execAll_cons (i : Instr) (is : List Instr) (s : State) :
    execAll (i :: is) s = andThen (exec i s) (execAll is) := rfl

theorem execAll_map_microInstr (us : List MicroOp) (s : State) :
    execAll (us.map microInstr) s = runMicros us s := by
  induction us generalizing s with
  | nil => rw [List.map_nil, execAll_nil, runMicros_nil]
  | cons u us ih =>
    have htail : execAll (us.map microInstr) = runMicros us := funext ih
    rw [List.map_cons, execAll_cons, exec_microInstr, htail, runMicros_cons]

theorem exec_pulse (a : U16) (d : Byte) (s : State) :
    exec (.pulse a d) s = runMicros (pulseOps s.cfg.tWeHold a d) s := rfl

/-- Settles O31: PULSE runs `pulseOps`, and a run of micro-operations is the execution of their instructions. -/
theorem pulseIsItsSixMicroOperations : Obligations.PulseIsItsSixMicroOperations := by
  unfold Obligations.PulseIsItsSixMicroOperations
  intro a d s
  rw [exec_pulse, ← execAll_map_microInstr]
  rfl

end Sys2Proof.Machine
end

section
/-! PROOF. The bus primitives that write a register field (R111 to R117, R120): the port registers each one leaves, bit
by bit, and SETRE in full. -/

namespace Sys2Proof.Machine

/-! ### A field write, by the offset inside the field and by the position outside it -/

theorem getLsbD_setField_in {k : Nat} (reg : U16) (lsb : Nat) (v : BitVec k) (j : Nat) (hj : j < k) (hi : lsb + j < 16) :
    (setField reg lsb v).getLsbD (lsb + j) = v.getLsbD j := by
  simp [getLsbD_setField _ _ _ _ hi, hj]

theorem getLsbD_setField_below_or_above {k : Nat} (reg : U16) (lsb : Nat) (v : BitVec k) (i : Nat) (hi : i < 16)
    (h : i < lsb ∨ lsb + k ≤ i) : (setField reg lsb v).getLsbD i = reg.getLsbD i :=
  getLsbD_setField_out _ _ _ _ hi (by omega)

theorem getLsbD_setField_bit_ne (reg : U16) (lsb : Nat) (l : Bool) (i : Nat) (hi : i < 16) (h : i ≠ lsb) :
    (setField reg lsb (BitVec.ofBool l)).getLsbD i = reg.getLsbD i :=
  getLsbD_setField_below_or_above _ _ _ _ hi (by omega)

/-! ### The port registers after each primitive -/

@[simp] theorem afterSetMode_outC (m : BusMode) (s : State) : (afterSetMode m s).outC = s.outC := rfl
@[simp] theorem afterSetMode_outS (m : BusMode) (s : State) : (afterSetMode m s).outS = s.outS := rfl
@[simp] theorem afterDrvAddr_outC (v : U16) (s : State) :
    (afterDrvAddr v s).outC = setField s.outC s.cfg.place.ahLsb (v.extractLsb' 8 8) := rfl
@[simp] theorem afterDrvAddr_outS (v : U16) (s : State) :
    (afterDrvAddr v s).outS = setField s.outS 0 (v.extractLsb' 0 8) := rfl
@[simp] theorem afterDrvData_outC (v : Byte) (s : State) : (afterDrvData v s).outC = s.outC := rfl
@[simp] theorem afterDrvData_outS (v : Byte) (s : State) : (afterDrvData v s).outS = setField s.outS 8 v := rfl
@[simp] theorem afterSetRe_outC (b : Bool) (s : State) :
    (afterSetRe b s).outC = setField s.outC s.cfg.place.reBit (BitVec.ofBool (!b)) := rfl
@[simp] theorem afterSetRe_outS (b : Bool) (s : State) : (afterSetRe b s).outS = s.outS := rfl
@[simp] theorem afterSetWe_outC (b : Bool) (s : State) :
    (afterSetWe b s).outC = setField s.outC s.cfg.place.weBit (BitVec.ofBool (!b)) := rfl
@[simp] theorem afterSetWe_outS (b : Bool) (s : State) : (afterSetWe b s).outS = s.outS := rfl

theorem afterMicro_setWe (b : Bool) (s : State) :
    afterMicro (.setWe b) s = if b = false ∧ s.weN = false then chipAccept s.addrPins s.dout (afterSetWe b s)
      else afterSetWe b s := rfl

/-- Where SETWE completes a write bus cycle, the chip's part of it writes no port register (R52). -/
theorem afterMicro_setWe_ports (b : Bool) (s : State) :
    (afterMicro (.setWe b) s).outC = (afterSetWe b s).outC ∧ (afterMicro (.setWe b) s).outS = (afterSetWe b s).outS := by
  rw [afterMicro_setWe]
  split
  · exact ⟨chipAccept_outC _ _ _, chipAccept_outS _ _ _⟩
  · exact ⟨rfl, rfl⟩

theorem eq_afterMicro_of_exec {u : MicroOp} {s t : State} (h : exec (microInstr u) s = .next t) : t = afterMicro u s := by
  rw [exec_microInstr] at h
  exact (runMicro_eq_next.1 h).1

/-! ### Mask and preserve (R117), one primitive at a time -/

section
variable (s : State)

theorem afterDrvAddr_writes_address (v : U16) (k : Nat) (hk : k < 8) :
    (afterDrvAddr v s).outC.getLsbD (s.cfg.place.ahLsb + k) = v.getLsbD (8 + k)
      ∧ (afterDrvAddr v s).outS.getLsbD k = v.getLsbD k := by
  have hplace := placement_facts s.cfg.place
  constructor
  · rw [afterDrvAddr_outC, getLsbD_setField_in _ _ _ k hk (by omega)]
    simp [hk]
  · have hlow := getLsbD_setField_in s.outS 0 (v.extractLsb' 0 8) k hk (by omega)
    rw [Nat.zero_add] at hlow
    rw [afterDrvAddr_outS, hlow]
    simp [hk]

theorem afterDrvData_writes_dout (v : Byte) (k : Nat) (hk : k < 8) :
    (afterDrvData v s).outS.getLsbD (8 + k) = v.getLsbD k :=
  getLsbD_setField_in s.outS 8 v k hk (by omega)

variable (i : Nat) (hi : i < 16)
include hi

theorem afterDrvAddr_keeps_outC (v : U16) (h : i < s.cfg.place.ahLsb ∨ s.cfg.place.ahLsb + 8 ≤ i) :
    (afterDrvAddr v s).outC.getLsbD i = s.outC.getLsbD i :=
  getLsbD_setField_below_or_above _ _ _ _ hi h

theorem afterDrvAddr_keeps_outS (v : U16) (h : 8 ≤ i) : (afterDrvAddr v s).outS.getLsbD i = s.outS.getLsbD i :=
  getLsbD_setField_below_or_above s.outS 0 (v.extractLsb' 0 8) i hi (.inr h)

theorem afterDrvData_keeps_outS (v : Byte) (h : i < 8) : (afterDrvData v s).outS.getLsbD i = s.outS.getLsbD i :=
  getLsbD_setField_below_or_above s.outS 8 v i hi (.inl h)

theorem afterSetRe_keeps_outC (b : Bool) (h : i ≠ s.cfg.place.reBit) :
    (afterSetRe b s).outC.getLsbD i = s.outC.getLsbD i :=
  getLsbD_setField_bit_ne _ _ _ _ hi h

theorem afterSetWe_keeps_outC (b : Bool) (h : i ≠ s.cfg.place.weBit) :
    (afterSetWe b s).outC.getLsbD i = s.outC.getLsbD i :=
  getLsbD_setField_bit_ne _ _ _ _ hi h

end

/-- Settles O21: each primitive that completes leaves `afterMicro`, whose port registers are field writes. -/
theorem primitivesMaskAndPreserve : Obligations.PrimitivesMaskAndPreserve := by
  unfold Obligations.PrimitivesMaskAndPreserve
  refine ⟨⟨rfl, rfl, rfl⟩, fun s t i hi => ⟨?drvAddr, ?drvData, ?setRe, ?setWe, ?setMode⟩⟩
  case drvAddr =>
    intro v h
    obtain rfl : t = afterDrvAddr v s := eq_afterMicro_of_exec (u := .drvAddr v) h
    exact ⟨afterDrvAddr_writes_address s v, afterDrvAddr_addrPins v s, afterDrvAddr_keeps_outC s i hi v,
      afterDrvAddr_keeps_outS s i hi v⟩
  case drvData =>
    intro v h
    obtain rfl : t = afterDrvData v s := eq_afterMicro_of_exec (u := .drvData v) h
    exact ⟨afterDrvData_writes_dout s v, afterDrvData_dout v s, by rw [afterDrvData_outC],
      afterDrvData_keeps_outS s i hi v⟩
  case setRe =>
    intro b h
    obtain rfl : t = afterSetRe b s := eq_afterMicro_of_exec (u := .setRe b) h
    exact ⟨afterSetRe_reN b s, afterSetRe_keeps_outC s i hi b, by rw [afterSetRe_outS]⟩
  case setWe =>
    intro b h
    obtain rfl := eq_afterMicro_of_exec (u := .setWe b) h
    obtain ⟨hC, hS⟩ := afterMicro_setWe_ports b s
    rw [hC, hS]
    exact ⟨afterSetWe_weN b s, afterSetWe_keeps_outC s i hi b, by rw [afterSetWe_outS]⟩
  case setMode =>
    intro m h
    obtain rfl : t = afterSetMode m s := eq_afterMicro_of_exec (u := .setMode m) h
    exact ⟨afterSetMode_mode m s, by rw [afterSetMode_outC], by rw [afterSetMode_outS]⟩

/-! ### SETRE (R115) -/

theorem exec_setRe (b : Bool) (s : State) : exec (.setRe b) s = pinCheck (.setRe b) (afterSetRe b s) := rfl

theorem afterSetRe_pinsSafe (b : Bool) (s : State)
    (h : (b = false ∧ (s.weN = true ∨ s.mode = .write)) ∨ (s.weN = true ∧ s.mode = .read)) :
    PinsSafe (afterSetRe b s) := by
  rcases h with ⟨rfl, h⟩ | ⟨hw, hm⟩
  · exact .inl ⟨by simp, by simpa using h⟩
  · exact .inr ⟨by simpa using hw, by simpa using hm⟩

theorem afterSetRe_sameFlash (b : Bool) (s : State) : SameFlash s (afterSetRe b s) := ⟨fun _ => rfl, rfl, rfl⟩
theorem afterSetRe_sameAbove (b : Bool) (s : State) : SameAbove s (afterSetRe b s) := ⟨rfl, rfl, rfl, rfl⟩
theorem afterSetRe_sameTime (b : Bool) (s : State) : SameTime s (afterSetRe b s) := ⟨rfl, rfl, rfl⟩

/-- Settles O15: the pin check on `afterSetRe` passes, stops at contention, or stops at undefined pins. -/
theorem setReadEnableWritesItsBit : Obligations.SetReadEnableWritesItsBit := by
  unfold Obligations.SetReadEnableWritesItsBit
  intro b s
  rw [exec_setRe]
  refine ⟨fun hsafe => ⟨afterSetRe b s, ?completes, ?frame⟩, ?contention, ?undefined⟩
  case completes => exact pinCheck_safe _ _ (afterSetRe_pinsSafe b s hsafe)
  case frame =>
    exact ⟨afterSetRe_reN b s, afterSetRe_weN b s, afterSetRe_ah b s, afterSetRe_unrelC b s, afterSetRe_outS b s,
      afterSetRe_mode b s, afterSetRe_trace b s, afterSetRe_sameFlash b s, afterSetRe_sameAbove b s,
      afterSetRe_sameTime b s, by simp, afterSetRe_chip_tAddr b s, afterSetRe_chip_tWe b s⟩
  case contention =>
    rintro rfl hw hm
    exact pinCheck_contention _ (afterSetRe true s) (by simp) (by simpa using hw) (by simpa using hm)
  case undefined =>
    rintro rfl hw
    exact pinCheck_undefined _ (afterSetRe true s) (by simpa using hw) (.inl (by simp))

end Sys2Proof.Machine
end

section
/-! PROOF. The encoding (R42, R81 to R89, R93): decode and encode are inverse on well-formed instructions and on the
words the decoder accepts. -/

namespace Sys2Proof

open Sys2Proof.Machine

/-! ### Encode, then decode -/

theorem decodeH8_of_badProbe {probe : BitVec 64} (h : badProbeOk probe = true) :
    decodeH8 probe = .handshakeBadProbe probe :=
  if_neg (by simpa [badProbeOk] using h)

theorem unrecogOk_iff {tok : BitVec 32} :
    unrecogOk tok = true ↔ tok ≠ readToken ∧ tok ≠ writToken ∧ tok ≠ erasToken := by
  simp [unrecogOk, and_assoc]

theorem decodeH4_of_unrecog {tok : BitVec 32} (h : unrecogOk tok = true) : decodeH4 tok = .cmdUnrecog tok := by
  obtain ⟨hread, hwrit, heras⟩ := unrecogOk_iff.1 h
  rw [decodeH4, if_neg hread, if_neg hwrit, if_neg heras]

theorem decodeBus_inPgm (a : U16) (d : Byte) : decodeBus true (a ++ d) = .payload a d := by
  obtain ⟨ha, hd⟩ := bus_fields a d
  rw [decodeBus, if_pos rfl, ha, hd]

theorem encode_microInstr (hold : U16) (u : MicroOp) : encode hold (microInstr u) = [u.word] := by cases u <;> rfl

theorem microInstr_wf (u : MicroOp) : (microInstr u).wf = true := by cases u <;> rfl

theorem encode_microInstr_decodes (hold : U16) (u : MicroOp) (inPgm : Bool) :
    ∃ w, encode hold (microInstr u) = [w] ∧ decode inPgm w = .ok (microInstr u) :=
  ⟨u.word, encode_microInstr hold u, decodeUop_word u inPgm⟩

/-- Every well-formed instruction with a word of its own has one, which decodes to it in the instruction's context. -/
theorem decode_encode (hold : U16) (i : Instr) (hwf : i.wf = true) (hp : ∀ a d, i ≠ .pulse a d) :
    ∃ w, encode hold i = [w] ∧ decode i.inPgm w = .ok i := by
  cases i with
  | handshake => exact ⟨_, rfl, rfl⟩
  | handshakeBadProbe probe => exact ⟨_, rfl, congrArg Except.ok (decodeH8_of_badProbe hwf)⟩
  | read => exact ⟨_, rfl, rfl⟩
  | writ => exact ⟨_, rfl, rfl⟩
  | eras => exact ⟨_, rfl, rfl⟩
  | cmdUnrecog tok => exact ⟨_, rfl, congrArg Except.ok (decodeH4_of_unrecog hwf)⟩
  | readByte a d => exact ⟨_, rfl, congrArg Except.ok (decodeOp_readByte a d)⟩
  | writeByte d a => exact ⟨_, rfl, congrArg Except.ok (decodeOp_writeByte a d)⟩
  | eraseChip a d => exact ⟨_, rfl, congrArg Except.ok (decodeOp_eraseChip a d)⟩
  | opReserved x => exact ⟨_, rfl, congrArg Except.ok (decodeOp_reserved x)⟩
  | setMode m => exact encode_microInstr_decodes hold (.setMode m) _
  | drvAddr v => exact encode_microInstr_decodes hold (.drvAddr v) _
  | drvData v => exact encode_microInstr_decodes hold (.drvData v) _
  | sample => exact encode_microInstr_decodes hold .sample _
  | setRe b => exact encode_microInstr_decodes hold (.setRe b) _
  | setWe b => exact encode_microInstr_decodes hold (.setWe b) _
  | wait n => exact encode_microInstr_decodes hold (.wait n) _
  | uopReserved x => exact ⟨_, rfl, decodeUop_reserved x⟩
  | pulse a d => exact absurd rfl (hp a d)
  | unlock1 => exact ⟨_, rfl, rfl⟩
  | unlock2 => exact ⟨_, rfl, rfl⟩
  | cmdProgram => exact ⟨_, rfl, rfl⟩
  | cmdEraseSetup => exact ⟨_, rfl, rfl⟩
  | cmdChipErase => exact ⟨_, rfl, rfl⟩
  | payload a d => exact ⟨_, rfl, congrArg Except.ok (decodeBus_inPgm a d)⟩

theorem map_decode_words (inPgm : Bool) (us : List MicroOp) :
    (us.map MicroOp.word).map (decode inPgm) = us.map fun u => .ok (microInstr u) := by
  simp [decodeUop_word]

/-- Settles O7: one word for every instruction but PULSE, whose words are those of `pulseOps`. -/
theorem decodeOfEncodeIsTheInstruction : Obligations.DecodeOfEncodeIsTheInstruction := by
  unfold Obligations.DecodeOfEncodeIsTheInstruction
  exact ⟨decode_encode, fun hold a d inPgm => map_decode_words inPgm (pulseOps hold a d)⟩

/-! ### Decode, then encode -/

theorem decodeH8_sound (hold : U16) (w : BitVec 64) :
    (decodeH8 w).wf = true ∧ encode hold (decodeH8 w) = [.h8 w] := by
  unfold decodeH8
  split
  · next h => exact ⟨rfl, by rw [h]; rfl⟩
  · next h => exact ⟨by simpa [Instr.wf, badProbeOk] using h, rfl⟩

theorem decodeH4_sound (hold : U16) (w : BitVec 32) :
    (decodeH4 w).wf = true ∧ encode hold (decodeH4 w) = [.h4 w] := by
  unfold decodeH4
  split
  · next h => exact ⟨rfl, by rw [h]; rfl⟩
  split
  · next h => exact ⟨rfl, by rw [h]; rfl⟩
  split
  · next h => exact ⟨rfl, by rw [h]; rfl⟩
  · next hread hwrit heras => exact ⟨unrecogOk_iff.2 ⟨hread, hwrit, heras⟩, rfl⟩

/-- A request word with the reserved code is that code and its operand bits. -/
theorem op_reserved_word {w : BitVec 26} (h : w.extractLsb' 24 2 = 3) : (3 : BitVec 2) ++ w.extractLsb' 0 24 = w := by
  rw [← h]
  exact append_extracts (m := 2) (n := 24) w

theorem decodeOp_sound (hold : U16) (w : BitVec 26) :
    (decodeOp w).wf = true ∧ encode hold (decodeOp w) = [.issue (.op w)] := by
  have hw := op_word w
  rcases toNat2_cases (w.extractLsb' 24 2) with h | h | h | h
  · rw [h] at hw
    rw [← hw, decodeOp_readByte]
    exact ⟨rfl, rfl⟩
  · rw [h] at hw
    rw [← hw, decodeOp_writeByte]
    exact ⟨rfl, rfl⟩
  · rw [h] at hw
    rw [← hw, decodeOp_eraseChip]
    exact ⟨rfl, rfl⟩
  · rw [← op_reserved_word h, decodeOp_reserved]
    exact ⟨rfl, rfl⟩

theorem uop_code_word {w : BitVec 19} {c : BitVec 3} (h : w.extractLsb' 16 3 = c) : c ++ w.extractLsb' 0 16 = w := by
  rw [← h]
  exact uop_word w

/-- What the decoder's must-be-zero check lets through (R93). -/
theorem checked_eq_ok {mbz : Bool} {w : BitVec 19} {i j : Instr}
    (h : (if mbz then Except.ok i else Except.error (DecodeError.mustBeZero w)) = .ok j) : mbz = true ∧ j = i := by
  cases mbz with
  | false => simp at h
  | true => exact ⟨rfl, (Except.ok.inj h).symm⟩

/-- A micro-operation word decodes to the micro-operation it is the word of, or to the reserved code. -/
theorem decodeUop_eq_ok {w : BitVec 19} {i : Instr} (h : decodeUop w = .ok i) :
    (∃ u : MicroOp, i = microInstr u ∧ u.word = .issue (.uop w))
      ∨ (∃ x : U16, i = .uopReserved x ∧ (7 : BitVec 3) ++ x = w) := by
  have word : ∀ {c : BitVec 3} {x : U16}, w.extractLsb' 16 3 = c → x = w.extractLsb' 0 16 →
      uopWord c x = .issue (.uop w) := fun hc hx => by rw [uopWord, hx, uop_code_word hc]
  have bit : ∀ {z : BitVec 15}, (w.extractLsb' 0 16).extractLsb' 1 15 = z → (z == 0) = true →
      bitArg ((w.extractLsb' 0 16).getLsbD 0) = w.extractLsb' 0 16 :=
    fun hz h0 => bitArg_getLsbD _ (hz.trans (eq_of_beq h0))
  rcases toNat3_cases (w.extractLsb' 16 3) with hc | hc | hc | hc | hc | hc | hc | hc <;>
    simp only [decodeUop, hc] at h
  · obtain ⟨hz, rfl⟩ := checked_eq_ok h
    exact .inl ⟨.setMode _, rfl, word hc (by rw [bitOfMode_modeOfBit, bit rfl hz])⟩
  · exact .inl ⟨.drvAddr _, (Except.ok.inj h).symm, word hc rfl⟩
  · obtain ⟨hz, rfl⟩ := checked_eq_ok h
    exact .inl ⟨.drvData _, rfl, word hc (byte_zext _ (eq_of_beq hz))⟩
  · obtain ⟨hz, rfl⟩ := checked_eq_ok h
    exact .inl ⟨.sample, rfl, word hc (eq_of_beq hz).symm⟩
  · obtain ⟨hz, rfl⟩ := checked_eq_ok h
    exact .inl ⟨.setRe _, rfl, word hc (bit rfl hz)⟩
  · obtain ⟨hz, rfl⟩ := checked_eq_ok h
    exact .inl ⟨.setWe _, rfl, word hc (bit rfl hz)⟩
  · exact .inl ⟨.wait _, (Except.ok.inj h).symm, word hc rfl⟩
  · exact .inr ⟨_, (Except.ok.inj h).symm, uop_code_word hc⟩

theorem decodeUop_sound {hold : U16} {w : BitVec 19} {i : Instr} (h : decodeUop w = .ok i) :
    i.wf = true ∧ encode hold i = [.issue (.uop w)] := by
  rcases decodeUop_eq_ok h with ⟨u, rfl, hu⟩ | ⟨x, rfl, hx⟩
  · exact ⟨microInstr_wf u, by rw [encode_microInstr, hu]⟩
  · exact ⟨rfl, by rw [← hx]; rfl⟩

theorem decodeBus_sound (hold : U16) (inPgm : Bool) (w : BitVec 24) :
    (decodeBus inPgm w).wf = true ∧ encode hold (decodeBus inPgm w) = [.issue (.bus w)] := by
  have payload : encode hold (.payload (w.extractLsb' 8 16) (w.extractLsb' 0 8)) = [.issue (.bus w)] := by
    rw [encode, busWord, bus_word]
  unfold decodeBus
  split
  · exact ⟨rfl, payload⟩
  split
  · next h => exact ⟨rfl, by rw [h]; rfl⟩
  split
  · next h => exact ⟨rfl, by rw [h]; rfl⟩
  split
  · next h => exact ⟨rfl, by rw [h]; rfl⟩
  split
  · next h => exact ⟨rfl, by rw [h]; rfl⟩
  split
  · next h => exact ⟨rfl, by rw [h]; rfl⟩
  · exact ⟨rfl, payload⟩

/-- Settles O8, one word format at a time. -/
theorem encodeOfDecodeIsTheWord : Obligations.EncodeOfDecodeIsTheWord := by
  unfold Obligations.EncodeOfDecodeIsTheWord
  intro inPgm hold w i h
  match w with
  | .h8 w => obtain rfl := Except.ok.inj h; exact decodeH8_sound hold w
  | .h4 w => obtain rfl := Except.ok.inj h; exact decodeH4_sound hold w
  | .issue (.op w) => obtain rfl := Except.ok.inj h; exact decodeOp_sound hold w
  | .issue (.uop w) => exact decodeUop_sound h
  | .issue (.bus w) => obtain rfl := Except.ok.inj h; exact decodeBus_sound hold inPgm w

/-! ### Tokens on the wire (R42) -/

theorem decodeBytes_tokenBytes {inPgm : Bool} {w : CodeWord} (h : w.tokenBytes ≠ []) :
    decodeBytes w.tokenBytes = decode inPgm w := by
  cases w with
  | h8 w => exact decodeBytes_h8 w
  | h4 w => exact decodeBytes_h4 w
  | issue w => exact absurd rfl h

/-- Settles O9: a token's bytes decode as its word does, and the word to its instruction by `decode_encode`. -/
theorem tokenBytesDecode : Obligations.TokenBytesDecode := by
  unfold Obligations.TokenBytesDecode
  intro hold i w hwf henc htoken
  have hpulse : ∀ a d, i ≠ .pulse a d := by
    rintro a d rfl
    exact absurd (congrArg List.length henc) (by simp [encode, pulseOps])
  obtain ⟨w', henc', hdec⟩ := decode_encode hold i hwf hpulse
  obtain rfl : w = w' := List.singleton_inj.1 (henc.symm.trans henc')
  exact (decodeBytes_tokenBytes htoken).trans hdec

/-! ### Written-out words, and the words the decoder or the machine refuses (R93) -/

/-- Settles O6, by evaluating the decoder on each word. -/
theorem wordsWrittenOutDecode : Obligations.WordsWrittenOutDecode := by
  unfold Obligations.WordsWrittenOutDecode
  decide

theorem decodeOp_of_reserved {w : BitVec 26} (h : w.extractLsb' 24 2 = 3) :
    decodeOp w = .opReserved (w.extractLsb' 0 24) := by
  simp only [decodeOp, h]
  rfl

theorem decodeUop_of_reserved {w : BitVec 19} (h : w.extractLsb' 16 3 = 7) :
    decodeUop w = .ok (.uopReserved (w.extractLsb' 0 16)) := by
  simp only [decodeUop, h]
  rfl

theorem extract_high_of_arg (w : BitVec 19) (i k : Nat) (h : i + k ≤ 16) :
    (w.extractLsb' 0 16).extractLsb' i k = w.extractLsb' i k := by
  apply BitVec.eq_of_getLsbD_eq
  intro j hj
  have : i + j < 16 := by omega
  simp [hj, this]

theorem decodeUop_mustBeZero_bit {w : BitVec 19}
    (hc : w.extractLsb' 16 3 = 0 ∨ w.extractLsb' 16 3 = 4 ∨ w.extractLsb' 16 3 = 5) (hz : w.extractLsb' 1 15 ≠ 0) :
    decodeUop w = .error (.mustBeZero w) := by
  rw [← extract_high_of_arg w 1 15 (by decide)] at hz
  have hfail : ((w.extractLsb' 0 16).extractLsb' 1 15 == 0) = false := beq_false_of_ne hz
  rcases hc with hc | hc | hc
  · simp only [decodeUop, hc, hfail]; rfl
  · simp only [decodeUop, hc, hfail]; rfl
  · simp only [decodeUop, hc, hfail]; rfl

theorem decodeUop_mustBeZero_byte {w : BitVec 19} (hc : w.extractLsb' 16 3 = 2) (hz : w.extractLsb' 8 8 ≠ 0) :
    decodeUop w = .error (.mustBeZero w) := by
  rw [← extract_high_of_arg w 8 8 (by decide)] at hz
  have hfail : ((w.extractLsb' 0 16).extractLsb' 8 8 == 0) = false := beq_false_of_ne hz
  simp only [decodeUop, hc, hfail]
  rfl

theorem decodeUop_mustBeZero_arg {w : BitVec 19} (hc : w.extractLsb' 16 3 = 3) (hz : w.extractLsb' 0 16 ≠ 0) :
    decodeUop w = .error (.mustBeZero w) := by
  have hfail : (w.extractLsb' 0 16 == 0) = false := beq_false_of_ne hz
  simp only [decodeUop, hc, hfail]
  rfl

/-- Settles O10: the reserved codes decode to instructions that are refused, the rest to the decoder's error. -/
theorem reservedCodesAreRefused : Obligations.ReservedCodesAreRefused := by
  unfold Obligations.ReservedCodesAreRefused
  refine fun inPgm => ⟨fun w h => ?op, fun w h => ?uop, fun w h => ?mustBeZero⟩
  case op =>
    refine ⟨_, congrArg Except.ok (decodeOp_of_reserved h), fun s => ?_⟩
    exact congrArg (fun v => (.refused (.reservedOp v) : Result)) (op_reserved_word h)
  case uop =>
    refine ⟨_, decodeUop_of_reserved h, fun s => ?_⟩
    exact congrArg (fun v => (.refused (.reservedUop v) : Result)) (uop_code_word h)
  case mustBeZero =>
    rcases h with ⟨hc, hz⟩ | ⟨hc, hz⟩ | ⟨hc, hz⟩
    · exact decodeUop_mustBeZero_bit hc hz
    · exact decodeUop_mustBeZero_byte hc hz
    · exact decodeUop_mustBeZero_arg hc hz

end Sys2Proof
end

section
/-! PROOF. What every step keeps (R4, R11, R17, R18, R26, R27, R50, R150): one induction over a step for relations that
its parts satisfy, then the relations. -/

namespace Sys2Proof.Machine

/-! ### Relations that hold across a step when they hold across its parts -/

/-- A preorder that every micro-operation and every change of the sequencer's latches respects. -/
structure MicroPreorder (R : State → State → Prop) : Prop where
  refl : ∀ s, R s s
  trans : ∀ {s t u}, R s t → R t u → R s u
  micro : ∀ {u s t}, runMicro u s = .next t → R s t
  latches : ∀ s q, R s (s.withSeq q)

section
variable {R : State → State → Prop} (hR : MicroPreorder R)
include hR

theorem MicroPreorder.seqMicro {u : MicroOp} {s t : State} (h : runSeqMicro u s = .next t) : R s t := by
  cases u with
  | sample =>
    obtain ⟨v, hv, hl⟩ := andThen_eq_next.1 h
    obtain rfl := Host.Outcome.next.inj hl
    exact hR.trans (hR.micro hv) (hR.latches v _)
  | setMode m => exact hR.micro (u := .setMode m) h
  | drvAddr v => exact hR.micro (u := .drvAddr v) h
  | drvData v => exact hR.micro (u := .drvData v) h
  | setRe b => exact hR.micro (u := .setRe b) h
  | setWe b => exact hR.micro (u := .setWe b) h
  | wait n => exact hR.micro (u := .wait n) h

theorem MicroPreorder.seqStep {s t : State} (h : seqStep s = .next t) : R s t := by
  unfold Machine.seqStep at h
  split at h
  · obtain rfl := Host.Outcome.next.inj h
    exact hR.latches s _
  · obtain ⟨v, hv, hl⟩ := andThen_eq_next.1 h
    obtain rfl := Host.Outcome.next.inj hl
    exact hR.trans (hR.seqMicro hv) (hR.latches v _)

theorem MicroPreorder.seqDrain {n : Nat} {s t : State} (h : seqDrain n s = .next t) : R s t := by
  induction n generalizing s with
  | zero =>
    obtain rfl := Host.Outcome.next.inj h
    exact hR.refl s
  | succ n ih =>
    unfold Machine.seqDrain at h
    split at h
    · obtain ⟨v, hv, hl⟩ := andThen_eq_next.1 h
      exact hR.trans (hR.seqStep hv) (ih hl)
    · obtain rfl := Host.Outcome.next.inj h
      exact hR.refl s

theorem MicroPreorder.request {op : SeqOp} {a : U16} {b : Byte} {s t : State} (h : request op a b s = .next t) :
    R s t := by
  obtain ⟨v, hv, hl⟩ := andThen_eq_next.1 h
  exact hR.trans (hR.seqDrain hv) (hR.trans (hR.latches v _) (hR.seqDrain hl))

end

/-- What READ can do when it answers a next state (R154). -/
theorem execRead_cases {s t : State} (h : execRead s = .next t) :
    ∃ u, request .readByte s.cfg.fixedAddr 0 s = .next u
      ∧ t = (u.send (hexbuf u.cfg.hexbufLen u.seq.rdata)).send okBytes := by
  obtain ⟨u, hu, hx⟩ := andThen_eq_next.1 h
  exact ⟨u, hu, (Host.Outcome.next.inj hx).symm⟩

/-- What ERAS can do when it answers a next state (R156). -/
theorem execEras_cases {s t : State} (h : execEras s = .next t) :
    ∃ u, request .eraseChip 0 0 s = .next u ∧ t = u.send okBytes := by
  obtain ⟨u, hu, hx⟩ := andThen_eq_next.1 h
  exact ⟨u, hu, (Host.Outcome.next.inj hx).symm⟩

/-- A preorder that everything a step is made of respects: the bus, the issue queue, the serial streams, and the two
places of the front end's state. -/
structure StepPreorder (R : State → State → Prop) : Prop extends MicroPreorder R where
  cycle : ∀ a d s, R s (chipAccept a d s)
  issued : ∀ s rest, R s { s with issue := rest }
  send : ∀ s bs, R s (s.send bs)
  recv : ∀ s k, R s (s.recv k)
  pending : ∀ s p, R s { s with fe.writPending := p }
  dsp : ∀ s d, R s { s with fe.dsp := d }

section
variable {R : State → State → Prop} (hR : StepPreorder R)
include hR

theorem StepPreorder.decodeFail (s : State) : R s (takeDecodeFail s) := by
  unfold takeDecodeFail
  split
  · exact hR.dsp s _
  · exact hR.send s _

theorem StepPreorder.takeOperand (s : State) : R s s.takeOperand :=
  hR.trans (hR.recv s 3) (hR.pending _ false)

theorem StepPreorder.writOperand {s t : State} (h : writOperand s = .next t) : R s t := by
  rcases writOperand_cases h with ⟨-, rfl⟩ | ⟨-, -, rfl⟩ | ⟨-, b, u, -, hu, rfl⟩
  · exact hR.pending s true
  · exact hR.trans (hR.takeOperand s) (hR.decodeFail _)
  · exact hR.trans (hR.takeOperand s) (hR.trans (hR.request hu) (hR.send u _))

theorem StepPreorder.step {s t : State} (h : step s = .next t) : R s t := by
  cases (step_cases h).2 with
  | sequencer _ h => exact hR.seqStep h
  | operation op a b w rest _ _ h => exact hR.trans (hR.issued s rest) (hR.request h)
  | micro u w rest _ _ h => exact hR.trans (hR.issued s rest) (hR.micro h)
  | cycle a d w rest _ _ h =>
    obtain ⟨-, rfl⟩ := busCycle_eq_next.1 h
    exact hR.trans (hR.issued s rest) (hR.cycle a d _)
  | blocked _ _ h => rw [h]; exact hR.refl s
  | operand _ _ _ h => exact hR.writOperand h
  | probe _ _ _ _ reply h =>
    rw [h]
    exact hR.trans (hR.recv s 8) (hR.trans (hR.send _ reply) (hR.dsp _ .command))
  | read _ _ _ _ h =>
    obtain ⟨u, hu, rfl⟩ := execRead_cases h
    exact hR.trans (hR.recv s 4) (hR.trans (hR.request hu) (hR.trans (hR.send u _) (hR.send _ _)))
  | writ _ _ _ _ _ h => exact hR.trans (hR.recv s 4) (hR.trans (hR.send _ _) (hR.writOperand h))
  | eras _ _ _ _ h =>
    obtain ⟨u, hu, rfl⟩ := execEras_cases h
    exact hR.trans (hR.recv s 4) (hR.trans (hR.request hu) (hR.send u _))
  | unknown _ _ _ _ h =>
    rcases h with rfl | rfl
    · exact hR.recv s 4
    · exact hR.trans (hR.recv s 4) (hR.send _ _)

end

/-! ### Unrelated bits and parameters -/

/-- The unrelated bits of port C and the parameters are kept (R4, R11). -/
def SameUnrelated (s t : State) : Prop := t.unrelC = s.unrelC ∧ t.cfg = s.cfg

theorem sameUnrelated_stepPreorder : StepPreorder SameUnrelated where
  refl _ := ⟨rfl, rfl⟩
  trans := fun ⟨hu, hc⟩ ⟨hu', hc'⟩ => ⟨hu'.trans hu, hc'.trans hc⟩
  micro h := by
    obtain ⟨hcfg, -, -, -, hunrel⟩ := runMicro_frame h
    exact ⟨hunrel, hcfg⟩
  latches _ _ := ⟨rfl, rfl⟩
  cycle a d s := ⟨chipAccept_unrelC a d s, chipAccept_cfg a d s⟩
  issued _ _ := ⟨rfl, rfl⟩
  send _ _ := ⟨rfl, rfl⟩
  recv _ _ := ⟨rfl, rfl⟩
  pending _ _ := ⟨rfl, rfl⟩
  dsp _ _ := ⟨rfl, rfl⟩

/-- Settles O55: the frame holds across every part of a step. -/
theorem unrelatedBitsAndParametersNeverChange : Obligations.UnrelatedBitsAndParametersNeverChange := by
  unfold Obligations.UnrelatedBitsAndParametersNeverChange
  exact fun s t h => sameUnrelated_stepPreorder.step h

/-! ### The clock, the trace and the streams -/

/-- The clock does not go back and the events of the trace stay (R26, R27). -/
def ClockAndTraceGrow (s t : State) : Prop := s.now ≤ t.now ∧ s.trace <+: t.trace

/-- Nothing sent is taken back, and bytes leave `RX` at its front only (R150). -/
def StreamsGrow (s t : State) : Prop := s.fe.tx <+: t.fe.tx ∧ t.fe.rx <:+ s.fe.rx

theorem emit_grows (s : State) (e : Event) : ClockAndTraceGrow s (s.emit e) :=
  ⟨le_refl _, List.prefix_append _ _⟩

theorem afterWait_now_le (n : U16) (s : State) : s.now ≤ (afterWait n s).now := by
  rw [afterWait_now]
  exact le_add_of_nonneg_right (s.waitTime_nonneg n)

theorem afterMicro_now_le (u : MicroOp) (s : State) : s.now ≤ (afterMicro u s).now := by
  cases u with
  | wait n => exact afterWait_now_le n s
  | setWe b =>
    rw [afterMicro_setWe]
    split
    · exact le_of_eq (by simp)
    · exact le_refl _
  | setMode m => exact le_refl _
  | drvAddr v => exact le_refl _
  | drvData v => exact le_refl _
  | sample => exact le_refl _
  | setRe b => exact le_refl _

theorem afterMicro_trace_prefix (u : MicroOp) (s : State) : s.trace <+: (afterMicro u s).trace := by
  cases u with
  | wait n => exact ⟨_, (afterWait_trace n s).symm⟩
  | setWe b =>
    rw [afterMicro_setWe]
    split
    · rw [chipAccept_trace]; exact ⟨_, (afterSetWe_trace b s).symm⟩
    · exact ⟨_, (afterSetWe_trace b s).symm⟩
  | setMode m => exact ⟨_, (afterSetMode_trace m s).symm⟩
  | drvAddr v => exact ⟨_, (afterDrvAddr_trace v s).symm⟩
  | drvData v => exact ⟨_, (afterDrvData_trace v s).symm⟩
  | sample => exact ⟨_, (afterSample_trace s).symm⟩
  | setRe b => exact ⟨_, (afterSetRe_trace b s).symm⟩

theorem clockAndTraceGrow_stepPreorder : StepPreorder ClockAndTraceGrow where
  refl _ := ⟨le_refl _, List.prefix_refl _⟩
  trans := fun ⟨hn, ht⟩ ⟨hn', ht'⟩ => ⟨le_trans hn hn', ht.trans ht'⟩
  micro {u s t} h := by
    obtain ⟨rfl, -⟩ := runMicro_eq_next.1 h
    exact ⟨afterMicro_now_le u s, afterMicro_trace_prefix u s⟩
  latches _ _ := ⟨le_refl _, List.prefix_refl _⟩
  cycle a d s := ⟨le_of_eq (chipAccept_now a d s).symm, by rw [chipAccept_trace]⟩
  issued _ _ := ⟨le_refl _, List.prefix_refl _⟩
  send s bs := emit_grows { s with fe.tx := s.fe.tx ++ bs } _
  recv s k := emit_grows { s with fe.rx := s.fe.rx.drop k } _
  pending _ _ := ⟨le_refl _, List.prefix_refl _⟩
  dsp _ _ := ⟨le_refl _, List.prefix_refl _⟩

theorem streamsGrow_of_fe_eq {s t : State} (h : t.fe = s.fe) : StreamsGrow s t := by
  rw [StreamsGrow, h]
  exact ⟨List.prefix_refl _, List.suffix_refl _⟩

theorem streamsGrow_stepPreorder : StepPreorder StreamsGrow where
  refl _ := streamsGrow_of_fe_eq rfl
  trans := fun ⟨htx, hrx⟩ ⟨htx', hrx'⟩ => ⟨htx.trans htx', hrx'.trans hrx⟩
  micro h := streamsGrow_of_fe_eq (runMicro_frame h).2.2.1
  latches _ _ := streamsGrow_of_fe_eq rfl
  cycle a d s := streamsGrow_of_fe_eq (chipAccept_fe a d s)
  issued _ _ := streamsGrow_of_fe_eq rfl
  send _ _ := ⟨List.prefix_append _ _, List.suffix_refl _⟩
  recv _ k := ⟨List.prefix_refl _, List.drop_suffix k _⟩
  pending _ _ := ⟨List.prefix_refl _, List.suffix_refl _⟩
  dsp _ _ := ⟨List.prefix_refl _, List.suffix_refl _⟩

/-- Settles O56: growth holds across every part of a step. -/
theorem clockTraceAndStreamsOnlyGrow : Obligations.ClockTraceAndStreamsOnlyGrow := by
  unfold Obligations.ClockTraceAndStreamsOnlyGrow
  intro s t h
  obtain ⟨hnow, es, htrace⟩ := clockAndTraceGrow_stepPreorder.step h
  obtain ⟨⟨sent, htx⟩, taken, hrx⟩ := streamsGrow_stepPreorder.step h
  exact ⟨hnow, ⟨es, htrace.symm⟩, ⟨sent, htx.symm⟩, ⟨taken, hrx.symm⟩⟩

/-! ### The invariant -/

/-- The part of the invariant that speaks of the bus, the chip, the timer and the clock. -/
structure BusInv (s : State) : Prop where
  memory : s.chip.mem.wf = true
  notBothLow : ¬ (s.reN = false ∧ s.weN = false)
  noContention : ¬ (s.mode = .write ∧ s.reN = false ∧ s.weN = true)
  cycleInWriteMode : ¬ (s.weN = false ∧ s.mode = .read)
  timerAtRest : s.timer = { cnt := 0, run := false, exp := false }
  clock : 0 ≤ s.now
  addrStamp : s.chip.tAddr ≤ s.now
  reStamp : s.chip.tRe ≤ s.now
  weStamp : s.chip.tWe ≤ s.now

theorem Inv.busInv {s : State} (h : Inv s) : BusInv s :=
  ⟨h.memory, h.notBothLow, h.noContention, h.cycleInWriteMode, h.timerAtRest, h.clock, h.addrStamp, h.reStamp,
    h.weStamp⟩

/-- What the pin check of a completed micro-operation says of the lines (R211, R212, R51). -/
theorem lines_of_pinCheck {t : State} (hu : t.pinsUndefined = false) (hc : t.contention = false) :
    ¬ (t.mode = .write ∧ t.reN = false ∧ t.weN = true) ∧ ¬ (t.reN = false ∧ t.weN = false)
      ∧ ¬ (t.weN = false ∧ t.mode = .read) := by
  rw [← Bool.not_eq_true, State.pinsUndefined_iff] at hu
  rw [← Bool.not_eq_true, State.contention_iff] at hc
  exact ⟨hc, fun h => hu ⟨h.2, .inl h.1⟩, fun h => hu ⟨h.1, .inr h.2⟩⟩

theorem afterMicro_wf (u : MicroOp) (s : State) (h : s.chip.mem.wf = true) : (afterMicro u s).chip.mem.wf = true := by
  cases u with
  | setWe b =>
    rw [afterMicro_setWe]
    split
    · exact chipAccept_wf _ _ _ h
    · exact h
  | wait n => simpa [afterMicro] using h
  | setMode m => exact h
  | drvAddr v => exact h
  | drvData v => exact h
  | sample => exact h
  | setRe b => exact h

theorem afterMicro_timer (u : MicroOp) (s : State) (h : s.timer = { cnt := 0, run := false, exp := false }) :
    (afterMicro u s).timer = { cnt := 0, run := false, exp := false } := by
  cases u with
  | setWe b =>
    rw [afterMicro_setWe]
    split
    · rw [chipAccept_timer]; exact h
    · exact h
  | wait n => rw [afterMicro, afterWait_timer, h, Timer.afterWait_idle]
  | setMode m => exact h
  | drvAddr v => exact h
  | drvData v => exact h
  | sample => exact h
  | setRe b => exact h

/-- No stamp of the chip is ahead of the clock (R26, R120). -/
def StampsBehind (s : State) : Prop := s.chip.tAddr ≤ s.now ∧ s.chip.tRe ≤ s.now ∧ s.chip.tWe ≤ s.now

theorem stamp_or_now_le {c : Prop} [Decidable c] {x n : Time} (h : x ≤ n) : (if c then x else n) ≤ n := by
  split
  · exact h
  · exact le_refl n

theorem now_or_stamp_or_now_le {c : Prop} [Decidable c] {x n : Time} (h : x ≤ n) : (if c then n else x) ≤ n := by
  split
  · exact le_refl n
  · exact h

theorem afterMicro_stamps (u : MicroOp) (s : State) (h : StampsBehind s) : StampsBehind (afterMicro u s) := by
  obtain ⟨hAddr, hRe, hWe⟩ := h
  cases u with
  | drvAddr v => exact ⟨stamp_or_now_le hAddr, hRe, hWe⟩
  | setRe b => exact ⟨hAddr, now_or_stamp_or_now_le hRe, hWe⟩
  | setWe b =>
    have plain : StampsBehind (afterSetWe b s) := ⟨hAddr, hRe, now_or_stamp_or_now_le hWe⟩
    rw [afterMicro_setWe]
    split
    · simpa [StampsBehind] using plain
    · exact plain
  | wait n =>
    have hnow := afterWait_now_le n s
    refine ⟨?_, ?_, ?_⟩
    · exact (afterWait_chip_tAddr n s).trans_le (hAddr.trans hnow)
    · exact (afterWait_chip_tRe n s).trans_le (hRe.trans hnow)
    · exact (afterWait_chip_tWe n s).trans_le (hWe.trans hnow)
  | setMode m => exact ⟨hAddr, hRe, hWe⟩
  | drvData v => exact ⟨hAddr, hRe, hWe⟩
  | sample => exact ⟨hAddr, hRe, hWe⟩

theorem runMicro_busInv {u : MicroOp} {s t : State} (h : runMicro u s = .next t) (hi : BusInv s) : BusInv t := by
  obtain ⟨rfl, -, hu, hc⟩ := runMicro_eq_next.1 h
  obtain ⟨hcont, hlow, hmode⟩ := lines_of_pinCheck hu hc
  obtain ⟨hAddr, hRe, hWe⟩ := afterMicro_stamps u s ⟨hi.addrStamp, hi.reStamp, hi.weStamp⟩
  exact ⟨afterMicro_wf u s hi.memory, hlow, hcont, hmode, afterMicro_timer u s hi.timerAtRest,
    hi.clock.trans (afterMicro_now_le u s), hAddr, hRe, hWe⟩

/-- Only the bus, the chip, the timer and the clock matter to `BusInv`. -/
theorem BusInv.congr {s t : State} (h : BusInv s) (hcfg : t.cfg = s.cfg) (hC : t.outC = s.outC)
    (hmode : t.mode = s.mode) (htimer : t.timer = s.timer) (hnow : t.now = s.now) (hmem : t.chip.mem.wf = true)
    (hAddr : t.chip.tAddr = s.chip.tAddr) (hRe : t.chip.tRe = s.chip.tRe) (hWe : t.chip.tWe = s.chip.tWe) : BusInv t := by
  have hreN : t.reN = s.reN := State.reN_congr hcfg hC
  have hweN : t.weN = s.weN := State.weN_congr hcfg hC
  refine ⟨hmem, ?_, ?_, ?_, ?_, ?_, ?_, ?_, ?_⟩
  · rw [hreN, hweN]; exact h.notBothLow
  · rw [hmode, hreN, hweN]; exact h.noContention
  · rw [hmode, hweN]; exact h.cycleInWriteMode
  · rw [htimer]; exact h.timerAtRest
  · rw [hnow]; exact h.clock
  · rw [hnow, hAddr]; exact h.addrStamp
  · rw [hnow, hRe]; exact h.reStamp
  · rw [hnow, hWe]; exact h.weStamp

theorem busInv_stepPreorder : StepPreorder fun s t => BusInv s → BusInv t where
  refl _ := id
  trans h h' hi := h' (h hi)
  micro h := runMicro_busInv h
  latches _ _ h := h.congr rfl rfl rfl rfl rfl h.memory rfl rfl rfl
  cycle a d s h := h.congr (by simp) (by simp) (by simp) (by simp) (by simp) (chipAccept_wf a d s h.memory) (by simp)
    (by simp) (by simp)
  issued _ _ h := h.congr rfl rfl rfl rfl rfl h.memory rfl rfl rfl
  send _ _ h := h.congr rfl rfl rfl rfl rfl h.memory rfl rfl rfl
  recv _ _ h := h.congr rfl rfl rfl rfl rfl h.memory rfl rfl rfl
  pending _ _ h := h.congr rfl rfl rfl rfl rfl h.memory rfl rfl rfl
  dsp _ _ h := h.congr rfl rfl rfl rfl rfl h.memory rfl rfl rfl

/-! ### The sequencer's index -/

/-- Everything a step of a running operation can do when it answers a next state (R20, R130). -/
theorem seqStep_cases {s t : State} (h : seqStep s = .next t) :
    (s.program.length ≤ s.seq.upc ∧ t = { s with seq.busy := false })
      ∨ ∃ u v, s.program[s.seq.upc]? = some u ∧ runSeqMicro u s = .next v ∧ t = { v with seq.upc := s.seq.upc + 1 } := by
  unfold seqStep at h
  split at h
  · next hnone => exact .inl ⟨List.getElem?_eq_none_iff.1 hnone, (Host.Outcome.next.inj h).symm⟩
  · next u hsome =>
    obtain ⟨v, hv, hx⟩ := andThen_eq_next.1 h
    exact .inr ⟨u, v, hsome, hv, (Host.Outcome.next.inj hx).symm⟩

/-- `SEQ_UPC` inside the running micro-program or just past it (R20). -/
def UpcInRange (s : State) : Prop := s.seq.busy = true → s.seq.upc ≤ s.program.length

theorem seqStep_upcInRange {s t : State} (h : seqStep s = .next t) : UpcInRange t := by
  rcases seqStep_cases h with ⟨-, rfl⟩ | ⟨u, v, hu, hv, rfl⟩
  · exact fun hbusy => absurd hbusy (by simp)
  · obtain ⟨hcfg, hseq, -, -, -⟩ := runSeqMicro_frame hv
    obtain ⟨hlt, -⟩ := List.getElem?_eq_some_iff.1 hu
    intro _
    show s.seq.upc + 1 ≤ (microProgram v.cfg v.seq.op v.seq.addr v.seq.wdata).length
    rw [hcfg, hseq]
    exact hlt

theorem request_from_idle {op : SeqOp} {a : U16} {b : Byte} {s t : State} (hs : s.seq.busy = false)
    (h : request op a b s = .next t) : t.seq.busy = false := by
  rw [request_idle op a b s hs] at h
  obtain ⟨v, -, hx⟩ := andThen_eq_next.1 h
  rw [← Host.Outcome.next.inj hx, seqDone_seq]

theorem takeDecodeFail_cases (s : State) :
    (s.cfg.decodeFailPolicy = .halt ∧ takeDecodeFail s = { s with fe.dsp := .halted })
      ∨ (s.cfg.decodeFailPolicy = .replyAndResume ∧ takeDecodeFail s = s.send unrecogBytes) := by
  unfold takeDecodeFail
  split
  · next hp => exact .inl ⟨hp, rfl⟩
  · next hp => exact .inr ⟨hp, rfl⟩

theorem writOperand_from_idle {s t : State} (hs : s.seq.busy = false) (h : writOperand s = .next t) :
    t.seq.busy = false := by
  rcases writOperand_cases h with ⟨-, rfl⟩ | ⟨-, -, rfl⟩ | ⟨-, b, u, -, hu, rfl⟩
  · exact hs
  · rcases takeDecodeFail_cases s.takeOperand with ⟨-, he⟩ | ⟨-, he⟩
    · rw [he]; exact hs
    · rw [he]; exact hs
  · exact (request_from_idle (s := s.takeOperand) hs hu :)

/-- A step that does not find an operation running leaves none running. -/
theorem step_from_idle {s t : State} (hs : s.seq.busy = false) (h : step s = .next t) : t.seq.busy = false := by
  cases (step_cases h).2 with
  | sequencer hb _ => rw [hs] at hb; exact absurd hb (by decide)
  | operation op a b w rest _ _ h => exact request_from_idle (s := { s with issue := rest }) hs h
  | micro u w rest _ _ h => rw [(runMicro_frame h).2.1]; exact hs
  | cycle a d w rest _ _ h =>
    obtain ⟨-, rfl⟩ := busCycle_eq_next.1 h
    rw [chipAccept_seq]; exact hs
  | blocked _ _ h => rw [h]; exact hs
  | operand _ _ _ h => exact writOperand_from_idle hs h
  | probe _ _ _ _ reply h => rw [h]; exact hs
  | read _ _ _ _ h =>
    obtain ⟨u, hu, rfl⟩ := execRead_cases h
    exact (request_from_idle (s := s.recv 4) hs hu :)
  | writ _ _ _ _ _ h => exact writOperand_from_idle (s := (s.recv 4).send gotWriteBytes) hs h
  | eras _ _ _ _ h =>
    obtain ⟨u, hu, rfl⟩ := execEras_cases h
    exact (request_from_idle (s := s.recv 4) hs hu :)
  | unknown _ _ _ _ h => rcases h with rfl | rfl <;> exact hs

theorem step_upcInRange {s t : State} (h : step s = .next t) : UpcInRange t := by
  by_cases hs : s.seq.busy = false
  · intro hbusy
    rw [step_from_idle hs h] at hbusy
    exact absurd hbusy (by decide)
  · cases (step_cases h).2 with
    | sequencer _ h => exact seqStep_upcInRange h
    | operation _ _ _ _ _ hb | micro _ _ _ hb | cycle _ _ _ _ hb | blocked hb | operand hb | probe hb | read hb
    | writ hb | eras hb | unknown hb => exact absurd hb hs

/-! ### The front end's state machine (R168) -/

/-- What the bus and the sequencer leave to the front end: its state and the issue queue. -/
theorem sameFrontEnd_microPreorder : MicroPreorder fun s t => t.fe = s.fe ∧ t.issue = s.issue where
  refl _ := ⟨rfl, rfl⟩
  trans := fun ⟨hf, hi⟩ ⟨hf', hi'⟩ => ⟨hf'.trans hf, hi'.trans hi⟩
  micro h := by
    obtain ⟨-, -, hfe, hissue, -⟩ := runMicro_frame h
    exact ⟨hfe, hissue⟩
  latches _ _ := ⟨rfl, rfl⟩

theorem request_dsp {op : SeqOp} {a : U16} {b : Byte} {s t : State} (h : request op a b s = .next t) :
    t.fe.dsp = s.fe.dsp :=
  congrArg FrontEnd.dsp (sameFrontEnd_microPreorder.request h).1

/-- The front end has halted on a malformed operand, at the front of `RX`, with ports and chip as they were (R159). -/
structure HaltedOn (operand : List Byte) (s t : State) : Prop where
  dsp : t.fe.dsp = .halted
  notPending : t.fe.writPending = false
  policy : s.cfg.decodeFailPolicy = .halt
  ports : SamePorts s t
  chip : t.chip = s.chip
  digits : operand.length = 3
  malformed : parseD3 operand = none
  rx : s.fe.rx = operand ++ t.fe.rx

theorem writOperand_frontEnd {s t : State} (h : writOperand s = .next t) :
    t.fe.dsp = s.fe.dsp ∨ HaltedOn (s.fe.rx.take 3) s t := by
  rcases writOperand_cases h with ⟨-, rfl⟩ | ⟨hlen, hbad, rfl⟩ | ⟨-, b, u, -, hu, rfl⟩
  · exact .inl rfl
  · rcases takeDecodeFail_cases s.takeOperand with ⟨hpolicy, he⟩ | ⟨-, he⟩
    · rw [he]
      exact .inr ⟨rfl, rfl, hpolicy, ⟨rfl, rfl, rfl⟩, rfl, List.length_take_of_le hlen, hbad,
        (List.take_append_drop 3 s.fe.rx).symm⟩
    · rw [he]; exact .inl rfl
  · exact .inl (request_dsp hu :)

/-- The state in which WRIT reads its operand, when its token is what the step receives. -/
def State.beganWrit (s : State) : State := (s.recv 4).send gotWriteBytes

/-- The ways a step moves the front end. -/
inductive FrontEndMove (s t : State) : Prop where
  | stays (hd : t.fe.dsp = s.fe.dsp) (hp : t.fe.writPending = true → s.fe.dsp = .command)
  | enters (hd : s.fe.dsp = .handshake) (ht : t.fe.dsp = .command)
  | haltsWaiting (hd : s.fe.dsp = .command) (hp : s.fe.writPending = true) (h : HaltedOn (s.fe.rx.take 3) s t)
  | haltsAtOnce (hd : s.fe.dsp = .command) (hp : s.fe.writPending = false)
      (htok : s.fe.rx.take 4 = [0x57, 0x52, 0x49, 0x54])
      (h : HaltedOn (s.beganWrit.fe.rx.take 3) s.beganWrit t)

theorem FrontEndMove.of_fe_eq {s t : State} (hw : s.fe.writPending = true → s.fe.dsp = .command) (h : t.fe = s.fe) :
    FrontEndMove s t :=
  .stays (congrArg FrontEnd.dsp h) (by rw [h]; exact hw)

theorem FrontEndMove.of_command {s t : State} (hd : s.fe.dsp = .command) (h : t.fe.dsp = s.fe.dsp) :
    FrontEndMove s t :=
  .stays h (fun _ => hd)

theorem step_frontEndMove {s t : State} (hw : s.fe.writPending = true → s.fe.dsp = .command) (h : step s = .next t) :
    FrontEndMove s t := by
  cases (step_cases h).2 with
  | sequencer _ h => exact .of_fe_eq hw (sameFrontEnd_microPreorder.seqStep h).1
  | operation op a b w rest _ _ h => exact .of_fe_eq hw (sameFrontEnd_microPreorder.request h).1
  | micro u w rest _ _ h => exact .of_fe_eq hw (runMicro_frame h).2.2.1
  | cycle a d w rest _ _ h =>
    obtain ⟨-, rfl⟩ := busCycle_eq_next.1 h
    exact .of_fe_eq hw (chipAccept_fe a d _)
  | blocked _ _ h => exact .of_fe_eq hw (by rw [h])
  | operand _ _ hp h =>
    rcases writOperand_frontEnd h with hd | hh
    · exact .of_command (hw hp) hd
    · exact .haltsWaiting (hw hp) hp hh
  | probe _ _ _ hd reply h => exact .enters hd (by rw [h]; rfl)
  | read _ _ _ hd h =>
    obtain ⟨u, hu, rfl⟩ := execRead_cases h
    exact .of_command hd (request_dsp hu :)
  | writ _ _ hp hd htok h =>
    rcases writOperand_frontEnd h with hd' | hh
    · exact .of_command hd hd'
    · exact .haltsAtOnce hd hp htok hh
  | eras _ _ _ hd h =>
    obtain ⟨u, hu, rfl⟩ := execEras_cases h
    exact .of_command hd (request_dsp hu :)
  | unknown _ _ _ hd h => rcases h with rfl | rfl <;> exact .of_command hd rfl

/-- WRIT waits for its operand only in `Command` (R155). -/
theorem step_writPending {s t : State} (hw : s.fe.writPending = true → s.fe.dsp = .command) (h : step s = .next t) :
    t.fe.writPending = true → t.fe.dsp = .command := by
  intro hp
  cases step_frontEndMove hw h with
  | stays hd hs => exact hd.trans (hs hp)
  | enters _ ht => exact ht
  | haltsWaiting _ _ hh | haltsAtOnce _ _ _ hh => rw [hh.notPending] at hp; exact absurd hp (by decide)

/-- Settles O54: the bus part by `StepPreorder.step`, the sequencer's and the front end's parts by their own moves. -/
theorem everyStepKeepsTheInvariant : Obligations.EveryStepKeepsTheInvariant := by
  unfold Obligations.EveryStepKeepsTheInvariant
  intro s t hi h
  have hb : BusInv t := busInv_stepPreorder.step h hi.busInv
  exact ⟨hb.memory, hb.notBothLow, hb.noContention, hb.cycleInWriteMode, hb.timerAtRest, hb.clock, hb.addrStamp,
    hb.reStamp, hb.weStamp, step_upcInRange h, step_writPending hi.writ h⟩

/-- Settles O53, by the ways a step moves the front end. -/
theorem frontEndFollowsItsStateMachine : Obligations.FrontEndFollowsItsStateMachine := by
  unfold Obligations.FrontEndFollowsItsStateMachine
  intro s t hw h
  refine ⟨fun hd => ?handshake, fun hd => ?command, (step_cases h).1⟩
  case handshake =>
    cases step_frontEndMove hw h with
    | stays hs _ => exact .inl (hs.trans hd)
    | enters _ ht => exact .inr ht
    | haltsWaiting hc _ _ | haltsAtOnce hc _ _ _ => rw [hd] at hc; exact absurd hc (by decide)
  case command =>
    cases step_frontEndMove hw h with
    | stays hs _ => exact .inl (hs.trans hd)
    | enters _ ht => exact .inl ht
    | haltsWaiting _ hp hh =>
      exact .inr ⟨hh.dsp, hh.policy, hh.ports, hh.chip, [], _, hh.rx, hh.digits, hh.malformed, by simp [hp]⟩
    | haltsAtOnce _ hp htok hh =>
      have hrx : s.fe.rx = s.fe.rx.take 4 ++ (s.beganWrit.fe.rx.take 3 ++ t.fe.rx) := by
        rw [← hh.rx]
        exact (List.take_append_drop 4 s.fe.rx).symm
      rw [htok, ← List.append_assoc] at hrx
      exact .inr ⟨hh.dsp, hh.policy, hh.ports, hh.chip, _, _, hrx, hh.digits, hh.malformed, by simp [hp]⟩

end Sys2Proof.Machine
end

section
/-! PROOF. A device driven by its host alone (R213, R216, R5): every step from a session state completes in a session
state, or the device is halted. -/

namespace Sys2Proof.Machine

theorem tBp_nonneg (c : Config) : 0 ≤ c.tBp := c.bpSpan.nonneg

/-! ### What keeps a session -/

/-- The front end's state and the trace do not matter to a session. -/
theorem Session.withFrontEnd {s : State} (h : Session s) (fe : FrontEnd) (trace : List Stamped) :
    Session { s with fe := fe, trace := trace } :=
  ⟨h.params, h.nothingIssued, h.quiescent, h.recogniser, h.pending, h.addrStamp⟩

theorem Session.hostSend {s : State} (h : Session s) (bytes : List Byte) : Session (s.hostSend bytes) :=
  h.withFrontEnd _ s.trace

theorem Session.send {s : State} (h : Session s) (bytes : List Byte) : Session (s.send bytes) := h.withFrontEnd _ _

theorem Session.recv {s : State} (h : Session s) (k : Nat) : Session (s.recv k) := h.withFrontEnd _ _

theorem Session.takeOperand {s : State} (h : Session s) : Session s.takeOperand := h.withFrontEnd _ _

theorem Session.toCommand {s : State} (h : Session s) : Session s.toCommand := h.withFrontEnd _ s.trace

theorem Session.decodeFail {s : State} (h : Session s) : Session (takeDecodeFail s) := by
  rcases takeDecodeFail_cases s with ⟨-, he⟩ | ⟨-, he⟩
  · rw [he]; exact h.withFrontEnd _ s.trace
  · rw [he]; exact h.send _

/-- On a board whose parameters meet R5, a session state meets the premises of WRITEBYTE and ERASECHIP. -/
theorem Session.pulseReady {s : State} (h : Session s) : PulseReady s where
  re := h.quiescent.1.1
  we := h.quiescent.1.2
  wp := h.params.weHold
  free := h.pending.trans (add_le_add_right h.params.holdCoversProgram s.now)

theorem Session.ready {s : State} (h : Session s) : OperationReady s :=
  ⟨⟨h.quiescent.1, h.pulseReady.wp, h.pulseReady.free⟩, h.quiescent.2, h.recogniser⟩

/-- A completed operation that leaves at most a byte program pending leaves a session. -/
theorem OperationDone.session {s t : State} (hd : OperationDone s t) (h : Session s) (hcmd : t.chip.cmd = .idle)
    (hbusy : t.chip.busyUntil ≤ t.now + s.cfg.tBp) : Session t where
  params := hd.cfg ▸ h.params
  nothingIssued := hd.issue.trans h.nothingIssued
  quiescent := ⟨⟨hd.reN, hd.weN⟩, hd.busy⟩
  recogniser := hcmd
  pending := hd.cfg.symm ▸ hbusy
  addrStamp := hd.tAddr h.addrStamp

theorem ReadDone.session {a : U16} {b : Byte} {s t : State} (hd : ReadDone a b s t) (h : Session s) : Session t := by
  have hsettle : (0 : Time) ≤ (s.cfg.tReadSettle.toNat : Time) := by positivity
  have hnow := hd.now
  have hpending := h.pending
  exact hd.toOperationDone.session h (hd.cmd.trans h.recogniser) (by rw [hd.busyUntil]; linarith)

theorem WriteDone.session {a : U16} {b : Byte} {s t : State} (hd : WriteDone a b s t) (h : Session s) : Session t :=
  hd.toOperationDone.session h hd.cmd hd.busyUntil.le

theorem EraseDone.session {a : U16} {b : Byte} {s t : State} (hd : EraseDone a b s t) (h : Session s) : Session t :=
  hd.toOperationDone.session h hd.cmd
    ((hd.busyUntil h.params.eraseWait).trans (le_add_of_nonneg_right (tBp_nonneg _)))

/-! ### The procedures of the front end -/

/-- A result that is a next state of a session. -/
def EndsInSession (r : Result) : Prop := ∃ t, r = .next t ∧ Session t

theorem Session.execRead {s : State} (h : Session s) : EndsInSession (execRead s) := by
  obtain ⟨t, ht, hd⟩ := execRead_done s h.quiescent.2 h.quiescent.1.2
  exact ⟨_, ht, ((hd.session h).send _).send _⟩

theorem Session.execEras {s : State} (h : Session s) : EndsInSession (execEras s) := by
  obtain ⟨t, ht, hd⟩ := execEras_done s h.quiescent.2 h.pulseReady h.recogniser
  exact ⟨_, ht, (hd.session h).send _⟩

theorem writOperand_waits (s : State) (h : s.fe.rx.length < 3) :
    writOperand s = .next { s with fe.writPending := true } := by
  rw [writOperand, if_pos h]

theorem writOperand_malformed (s : State) (h : 3 ≤ s.fe.rx.length) (hbad : parseD3 (s.fe.rx.take 3) = none) :
    writOperand s = .next (takeDecodeFail s.takeOperand) := by
  rw [writOperand, if_neg (by omega), hbad]
  rfl

theorem Session.writOperand {s : State} (h : Session s) : EndsInSession (writOperand s) := by
  by_cases hlen : s.fe.rx.length < 3
  · exact ⟨_, writOperand_waits s hlen, h.withFrontEnd _ s.trace⟩
  · have hlen : 3 ≤ s.fe.rx.length := by omega
    cases hparse : parseD3 (s.fe.rx.take 3) with
    | none => exact ⟨_, writOperand_malformed s hlen hparse, h.takeOperand.decodeFail⟩
    | some b =>
      obtain ⟨t, ht, hd⟩ := writOperand_done s b h.quiescent.2 h.pulseReady h.recogniser hlen hparse
      exact ⟨_, ht, (hd.session h.takeOperand).send _⟩

theorem Session.execCmdUnrecog {s : State} (h : Session s) (tok : BitVec 32) :
    EndsInSession (execCmdUnrecog tok s) := by
  unfold Machine.execCmdUnrecog
  split
  · exact ⟨_, rfl, h⟩
  · exact ⟨_, rfl, h.send _⟩

theorem Session.exec_h8 {s : State} (h : Session s) (w : BitVec 64) : EndsInSession (exec (decodeH8 w) s) := by
  unfold decodeH8
  split
  · exact ⟨_, rfl, (h.send _).toCommand⟩
  · exact ⟨_, rfl, (h.send _).toCommand⟩

theorem Session.exec_h4 {s : State} (h : Session s) (w : BitVec 32) : EndsInSession (exec (decodeH4 w) s) := by
  unfold decodeH4
  split
  · exact h.execRead
  split
  · exact (h.send gotWriteBytes).writOperand
  split
  · exact h.execEras
  · exact h.execCmdUnrecog w

/-! ### A step, and a run -/

theorem tokenStep_blocked {k : Nat} {s : State} (h : s.fe.rx.length < k) : tokenStep k s = .next s := by
  rw [tokenStep, if_pos h]

/-- The token step once the bytes are there: what they decode to, executed after `recv`. -/
theorem tokenStep_decoded {k : Nat} {s : State} {i : Instr} (h : k ≤ s.fe.rx.length)
    (hi : decodeBytes (s.fe.rx.take k) = .ok i) : tokenStep k s = exec i (s.recv k) := by
  rw [tokenStep, if_neg (by omega), hi]
  rfl

theorem Session.tokenStep8 {s : State} (h : Session s) : EndsInSession (tokenStep 8 s) := by
  by_cases hlen : s.fe.rx.length < 8
  · exact ⟨s, tokenStep_blocked hlen, h⟩
  · have hlen : 8 ≤ s.fe.rx.length := by omega
    rw [tokenStep_decoded hlen (decodeBytes_token8 _ (List.length_take_of_le hlen))]
    exact (h.recv 8).exec_h8 _

theorem Session.tokenStep4 {s : State} (h : Session s) : EndsInSession (tokenStep 4 s) := by
  by_cases hlen : s.fe.rx.length < 4
  · exact ⟨s, tokenStep_blocked hlen, h⟩
  · have hlen : 4 ≤ s.fe.rx.length := by omega
    rw [tokenStep_decoded hlen (decodeBytes_token4 _ (List.length_take_of_le hlen))]
    exact (h.recv 4).exec_h4 _

theorem step_halted {s : State} (h : s.fe.dsp = .halted) : step s = .fault .halted := by
  rw [step, machineStep, if_pos h]

/-- With nothing issued and no operation running, a step is a step of the front end (R151). -/
theorem step_frontEnd {s : State} (hd : s.fe.dsp ≠ .halted) (hb : s.seq.busy = false) (hi : s.issue = []) :
    step s = frontEndStep s := by
  rw [step, machineStep, if_neg hd, if_neg (by simp [hb]), hi]

theorem Session.step {s : State} (h : Session s) (hd : s.fe.dsp ≠ .halted) : EndsInSession (step s) := by
  rw [step_frontEnd hd h.quiescent.2 h.nothingIssued, frontEndStep]
  cases hdsp : s.fe.dsp with
  | halted => exact absurd hdsp hd
  | handshake =>
    cases hp : s.fe.writPending with
    | true => exact h.writOperand
    | false => exact h.tokenStep8
  | command =>
    cases hp : s.fe.writPending with
    | true => exact h.writOperand
    | false => exact h.tokenStep4

/-- Settles O57, by induction on the host's inputs. -/
theorem hostSessionNeverMeetsAHazard : Obligations.HostSessionNeverMeetsAHazard := by
  unfold Obligations.HostSessionNeverMeetsAHazard
  intro host
  induction host with
  | nil => exact fun s h => .inl ⟨s, rfl, h⟩
  | cons bytes more ih =>
    intro s h
    by_cases hd : (s.hostSend bytes).fe.dsp = .halted
    · exact .inr (by rw [sessionRun, step_halted hd, andThen_fault])
    · obtain ⟨t, ht, hs⟩ := (h.hostSend bytes).step hd
      rw [sessionRun, ht, andThen_next]
      exact ih t hs

end Sys2Proof.Machine
end

section
/-! PROOF. The micro-operations (R101 to R121, R211, R212): what each one leaves, where it faults, and that a register
primitive executed twice does no more than once. -/

namespace Sys2Proof.Machine

/-! ### Writing a field with the value it has -/

theorem setField_bit_self (reg : U16) (lsb : Nat) (l : Bool) (h : reg.getLsbD lsb = l) :
    setField reg lsb (BitVec.ofBool l) = reg := by
  have hfield : getField reg lsb 1 = BitVec.ofBool l := by
    apply BitVec.eq_of_getLsbD_eq
    intro i hi
    obtain rfl : i = 0 := by omega
    simp [getField, h]
  rw [← hfield, setField_getField]

theorem State.setReN_self {s : State} {l : Bool} (h : s.reN = l) : s.setReN l = s := by
  rw [State.setReN, setField_bit_self _ _ _ h]

theorem State.setWeN_self {s : State} {l : Bool} (h : s.weN = l) : s.setWeN l = s := by
  rw [State.setWeN, setField_bit_self _ _ _ h]

theorem State.setAh_self {s : State} {v : Byte} (h : s.ah = v) : s.setAh v = s := by
  rw [State.setAh, ← h, State.ah, setField_getField]

theorem State.setAl_self {s : State} {v : Byte} (h : s.al = v) : s.setAl v = s := by
  rw [State.setAl, ← h, State.al, setField_getField]

theorem State.setDout_self {s : State} {v : Byte} (h : s.dout = v) : s.setDout v = s := by
  rw [State.setDout, ← h, State.dout, setField_getField]

/-! ### Who drives DQ (R16) -/

theorem chipDrives_eq_false_of_reN {s : State} (h : s.reN = true) : s.chipDrives = false := by simp [State.chipDrives, h]

theorem dqDriver_write {s : State} (hm : s.mode = .write) (hd : s.chipDrives = false) :
    s.dqDriver = .controller s.dout := by
  simp [State.dqDriver, hm, hd]

theorem dqDriver_read {s : State} (hm : s.mode = .read) :
    s.dqDriver = if s.reN = false ∧ s.weN = true then .chip else .none := by
  cases hr : s.reN <;> cases hw : s.weN <;> simp [State.dqDriver, State.chipDrives, hm, hr, hw]

/-! ### SETMODE (R111, R118) -/

theorem exec_setMode (m : BusMode) (s : State) : exec (.setMode m) s = pinCheck (.setMode m) (afterSetMode m s) := rfl

theorem afterSetMode_pinsSafe (m : BusMode) (s : State)
    (h : (s.reN = true ∧ (s.weN = true ∨ m = .write)) ∨ (s.weN = true ∧ m = .read)) : PinsSafe (afterSetMode m s) := by
  simpa [PinsSafe] using h

/-- Settles O11: the pin check on `afterSetMode` passes, stops at contention, or stops at undefined pins. -/
theorem setModeWritesTheModeOnly : Obligations.SetModeWritesTheModeOnly := by
  unfold Obligations.SetModeWritesTheModeOnly
  intro m s
  rw [exec_setMode]
  refine ⟨fun h => ⟨afterSetMode m s, pinCheck_safe _ _ (afterSetMode_pinsSafe m s h), rfl, rfl, rfl,
    afterSetMode_trace m s, ?write, ?read, ⟨fun _ => rfl, rfl, rfl⟩, ⟨rfl, rfl, rfl, rfl⟩, ⟨rfl, rfl, rfl⟩,
    ⟨rfl, rfl, rfl⟩⟩, ?contention, ?undefined⟩
  case write =>
    rintro rfl
    have hreN : s.reN = true := by
      rcases h with ⟨hr, -⟩ | ⟨-, hm⟩
      · exact hr
      · exact absurd hm (by decide)
    exact (dqDriver_write rfl (chipDrives_eq_false_of_reN (by simpa using hreN))).trans (by simp)
  case read =>
    rintro rfl
    exact (dqDriver_read rfl).trans (by simp)
  case contention =>
    rintro hr hw rfl
    exact pinCheck_contention _ (afterSetMode .write s) (by simpa using hr) (by simpa using hw) rfl
  case undefined =>
    intro hw h
    exact pinCheck_undefined _ (afterSetMode m s) (by simpa using hw) (by simpa using h)

/-! ### DRVADDR and DRVDATA (R112, R113, R119) -/

theorem exec_drvAddr_weHigh (v : U16) (s : State) (h : s.weN = true) :
    exec (.drvAddr v) s = pinCheck (.drvAddr v) (afterDrvAddr v s) := by
  rw [exec, execDrvAddr, if_neg (by simp [h])]

theorem exec_drvData_weHigh (v : Byte) (s : State) (h : s.weN = true) :
    exec (.drvData v) s = pinCheck (.drvData v) (afterDrvData v s) := by
  rw [exec, execDrvData, if_neg (by simp [h])]

theorem exec_drvAddr_next (v : U16) (s : State) (hp : PinsSafe s) (h : s.weN = true) :
    exec (.drvAddr v) s = .next (afterDrvAddr v s) := by
  rw [exec_drvAddr_weHigh v s h]
  exact pinCheck_safe _ _ (hp.congr (by simp) (by simp) (by simp))

theorem exec_drvData_next (v : Byte) (s : State) (hp : PinsSafe s) (h : s.weN = true) :
    exec (.drvData v) s = .next (afterDrvData v s) := by
  rw [exec_drvData_weHigh v s h]
  exact pinCheck_safe _ _ (hp.congr (by simp) (by simp) (by simp))

/-- Settles O12: under high WE# the pins stay as safe as they were; under low WE# the guard of R119 answers. -/
theorem driveAddressSplitsTheAddress : Obligations.DriveAddressSplitsTheAddress := by
  unfold Obligations.DriveAddressSplitsTheAddress
  refine fun v s => ⟨fun hp hw => ⟨_, exec_drvAddr_next v s hp hw, afterDrvAddr_ah v s, afterDrvAddr_al v s,
    afterDrvAddr_addrPins v s, afterDrvAddr_reN v s, afterDrvAddr_weN v s, afterDrvAddr_unrelC v s,
    afterDrvAddr_dout v s, afterDrvAddr_mode v s, afterDrvAddr_trace v s, ⟨fun _ => rfl, rfl, rfl⟩,
    ⟨rfl, rfl, rfl, rfl⟩, ⟨rfl, rfl, rfl⟩, rfl, rfl, rfl⟩, fun hw => ?_⟩
  rw [exec, execDrvAddr, if_pos hw]

/-- Settles O13: as for DRVADDR; in Read mode the byte waits in `DOUT` for the next SETMODE Write. -/
theorem driveDataWritesTheDataHalf : Obligations.DriveDataWritesTheDataHalf := by
  unfold Obligations.DriveDataWritesTheDataHalf
  refine fun v s => ⟨fun hp hw => ⟨_, exec_drvData_next v s hp hw, afterDrvData_dout v s, afterDrvData_al v s,
    afterDrvData_outC v s, afterDrvData_mode v s, afterDrvData_trace v s, ?write, ?read, ⟨fun _ => rfl, rfl, rfl⟩,
    ⟨rfl, rfl, rfl, rfl⟩, ⟨rfl, rfl, rfl⟩, ⟨rfl, rfl, rfl⟩⟩, fun hw => ?low⟩
  case write =>
    intro hm
    have hreN : s.reN = true := by
      rcases hp with ⟨hr, -⟩ | ⟨-, hread⟩
      · exact hr
      · rw [hm] at hread; exact absurd hread (by decide)
    have hdrives : (afterDrvData v s).chipDrives = false := chipDrives_eq_false_of_reN (by simpa using hreN)
    exact (dqDriver_write (s := afterDrvData v s) hm hdrives).trans (by simp)
  case read =>
    intro _ hr
    have hsafe := afterSetMode_pinsSafe .write (afterDrvData v s) (.inl ⟨by simpa using hr, .inr rfl⟩)
    refine ⟨afterSetMode .write (afterDrvData v s), pinCheck_safe _ _ hsafe, ?_⟩
    exact (dqDriver_write rfl (chipDrives_eq_false_of_reN (by simpa using hr))).trans (by simp)
  case low => rw [exec, execDrvData, if_pos hw]

/-! ### SAMPLE (R114, R57) -/

theorem sampleValid_iff (s : State) :
    s.sampleValid = true ↔ s.mode = .read ∧ s.reN = false ∧ s.weN = true ∧ s.chip.tRe + s.cfg.tAcc ≤ s.now
      ∧ s.chip.tAddr + s.cfg.tAcc ≤ s.now ∧ s.chip.busyUntil ≤ s.now := by
  have hmax : max s.chip.tRe s.chip.tAddr + s.cfg.tAcc ≤ s.now ↔
      s.chip.tRe + s.cfg.tAcc ≤ s.now ∧ s.chip.tAddr + s.cfg.tAcc ≤ s.now := by
    rw [← max_add_add_right, max_le_iff]
  simp [State.sampleValid, State.chipDrives, hmax, and_assoc]

/-- Settles O14: `sampleValid` is the condition of R57, and decides between the array and a draw. -/
theorem sampleReadsTheArrayOrDraws : Obligations.SampleReadsTheArrayOrDraws := by
  unfold Obligations.SampleReadsTheArrayOrDraws
  intro s hp
  have hnext : exec .sample s = .next (afterSample s) := pinCheck_safe _ _ (hp.congr (by simp) (by simp) (by simp))
  refine ⟨_, s.sampled, hnext, afterSample_trace s, fun hvalid => ?valid, fun hvalid => ?draw, ⟨rfl, rfl, rfl⟩,
    ⟨fun _ => rfl, rfl, rfl⟩, ⟨rfl, rfl, rfl, rfl⟩, ⟨rfl, rfl, rfl⟩, rfl, rfl⟩
  case valid =>
    have hv := (sampleValid_iff s).2 hvalid
    exact ⟨by rw [State.sampled, if_pos hv], by simp [afterSample_eq, hv]⟩
  case draw =>
    have hv : ¬ s.sampleValid = true := fun h => hvalid ((sampleValid_iff s).1 h)
    exact ⟨by rw [State.sampled, if_neg hv]; rfl, by simp [afterSample_eq, hv]⟩

/-! ### SETWE (R116, R50, R51) -/

theorem exec_setWe_true (s : State) : exec (.setWe true) s = pinCheck (.setWe true) (afterSetWe true s) := by
  rw [exec, execSetWe, if_neg (by simp)]

/-- Settles O16: the pin check on `afterSetWe` passes in Write mode under a high RE# and stops elsewhere. -/
theorem assertWriteEnableBeginsACycle : Obligations.AssertWriteEnableBeginsACycle := by
  unfold Obligations.AssertWriteEnableBeginsACycle
  intro s
  rw [exec_setWe_true]
  refine ⟨fun hr hm => ⟨afterSetWe true s, ?completes, afterSetWe_weN true s, (afterSetWe_reN true s).trans hr,
    afterSetWe_ah true s, afterSetWe_unrelC true s, rfl, hm, afterSetWe_trace true s, ⟨fun _ => rfl, rfl, rfl⟩,
    ⟨rfl, rfl, rfl, rfl⟩, ⟨rfl, rfl, rfl⟩, by simp, rfl, rfl⟩, fun h => ?undefined⟩
  case completes => exact pinCheck_reHigh _ _ (by simpa using hr) (.inr hm)
  case undefined => exact pinCheck_undefined _ (afterSetWe true s) (by simp) (by simpa using h)

theorem cycleWellFormed_iff (s : State) :
    s.cycleWellFormed = true ↔ s.mode = .write ∧ s.reN = true ∧ s.chip.tWe + s.cfg.tWp ≤ s.now := by
  simp [State.cycleWellFormed, and_assoc]

/-- The state a well-formed write bus cycle leaves when WE# is released (R50, R52). -/
def afterCycle (s : State) : State := chipAccept s.addrPins s.dout (afterSetWe false s)

/-- The chip after a completed cycle is the chip after the same bus word (R52). -/
theorem afterCycle_chip (s : State) :
    (afterCycle s).chip.mem = (chipAccept s.addrPins s.dout s).chip.mem
      ∧ (afterCycle s).chip.cmd = (chipAccept s.addrPins s.dout s).chip.cmd
      ∧ (afterCycle s).chip.busyUntil = (chipAccept s.addrPins s.dout s).chip.busyUntil :=
  chipAccept_chip_congr _ _ rfl rfl rfl rfl rfl

@[simp] theorem afterCycle_weN (s : State) : (afterCycle s).weN = true := by simp [afterCycle]
@[simp] theorem afterCycle_reN (s : State) : (afterCycle s).reN = s.reN := by simp [afterCycle]
@[simp] theorem afterCycle_ah (s : State) : (afterCycle s).ah = s.ah := by simp [afterCycle]
@[simp] theorem afterCycle_dout (s : State) : (afterCycle s).dout = s.dout := by simp [afterCycle]
@[simp] theorem afterCycle_unrelC (s : State) : (afterCycle s).unrelC = s.unrelC := by simp [afterCycle]
@[simp] theorem afterCycle_outS (s : State) : (afterCycle s).outS = s.outS := by simp [afterCycle]
@[simp] theorem afterCycle_mode (s : State) : (afterCycle s).mode = s.mode := by simp [afterCycle]
@[simp] theorem afterCycle_trace (s : State) : (afterCycle s).trace = s.trace ++ [⟨s.now, .we true⟩] := by
  simp [afterCycle]

theorem afterCycle_frame (s : State) :
    SameAbove s (afterCycle s) ∧ SameTime s (afterCycle s) ∧ SameStamps s (afterCycle s) := by
  simp [afterCycle, SameAbove, SameTime, SameStamps, afterSetWe]

theorem runMicro_releaseWe_next {s : State} (hw : s.weN = false) (hr : s.reN = true) (hm : s.mode = .write)
    (hwp : s.chip.tWe + s.cfg.tWp ≤ s.now) (hb : s.chip.busyUntil ≤ s.now) :
    runMicro (.setWe false) s = .next (afterCycle s) :=
  runMicro_releaseWe_cycle s hr hw ((cycleWellFormed_iff s).2 ⟨hm, hr, hwp⟩) hb

/-- An ill-formed or untimely write bus cycle faults where WE# is released (R51, R61). -/
theorem runMicro_releaseWe_fault {s : State} (hw : s.weN = false)
    (h : s.cycleWellFormed = false ∨ s.now < s.chip.busyUntil) :
    runMicro (.setWe false) s = .fault (.chipUndefined (.uop (.setWe false)) s.now) := by
  rw [runMicro, execSetWe, if_pos ⟨rfl, hw⟩]
  split
  · next hwell =>
    have hbusy : s.now < s.chip.busyUntil := by simpa [hwell] using h
    have hmem : memWrite (.uop (.setWe false)) s.addrPins s.dout (afterSetWe false s) =
        .fault (.chipUndefined (.uop (.setWe false)) s.now) := if_pos hbusy
    rw [hmem, andThen_fault]
  · rfl

theorem exec_payload_next (a : U16) (d : Byte) (s : State) (h : s.chip.busyUntil ≤ s.now) :
    exec (.payload a d) s = .next (chipAccept a d s) := busCycle_idle a d s h

theorem exec_setWe (b : Bool) (s : State) : exec (.setWe b) s = runMicro (.setWe b) s := rfl

/-- Settles O17: from high WE# only the pin check is left; from low WE# the cycle is delivered or faults. -/
theorem releaseWriteEnableCompletesTheCycle : Obligations.ReleaseWriteEnableCompletesTheCycle := by
  unfold Obligations.ReleaseWriteEnableCompletesTheCycle
  refine fun s => ⟨fun hw hp => ?high, fun hw hr hm hwp hb => ?delivers, fun hw h => ?faults⟩
  case high =>
    have hC : (afterSetWe false s).outC = s.outC := setField_bit_self _ _ _ hw
    refine ⟨afterSetWe false s, ?_, hC, rfl, rfl, afterSetWe_trace false s, ⟨fun _ => rfl, rfl, rfl⟩,
      ⟨rfl, rfl, rfl, rfl⟩, ⟨rfl, rfl, rfl⟩, ⟨rfl, rfl, rfl⟩⟩
    rw [exec, execSetWe, if_neg (by simp [hw])]
    exact pinCheck_safe _ _ (hp.congr (by simp) (by simp [hw]) rfl)
  case delivers =>
    obtain ⟨hmem, hcmd, hbusy⟩ := afterCycle_chip s
    obtain ⟨habove, htime, hstamps⟩ := afterCycle_frame s
    exact ⟨_, _, runMicro_releaseWe_next hw hr hm hwp hb, exec_payload_next _ _ s hb, hmem, hcmd, hbusy, afterCycle_weN s,
      (afterCycle_reN s).trans hr, afterCycle_ah s, afterCycle_unrelC s, afterCycle_outS s, (afterCycle_mode s).trans hm,
      afterCycle_trace s, habove, htime, hstamps⟩
  case faults =>
    rw [exec_setWe]
    refine runMicro_releaseWe_fault hw ?_
    by_cases hbusy : s.now < s.chip.busyUntil
    · exact .inr hbusy
    · refine .inl (Bool.eq_false_iff.2 fun hwell => ?_)
      obtain ⟨hm, hr, hwp⟩ := (cycleWellFormed_iff s).1 hwell
      rcases h with h | h | h | h
      · rw [hm] at h; exact absurd h (by decide)
      · rw [hr] at h; exact absurd h (by decide)
      · exact absurd hwp (not_le.2 h)
      · exact hbusy h

/-! ### WAIT and the timer (R101 to R105) -/

theorem exec_wait_next (n : U16) (s : State) (hp : PinsSafe s) : exec (.wait n) s = .next (afterWait n s) :=
  pinCheck_safe _ _ (hp.congr (by simp) (by simp) (by simp))

@[simp] theorem afterWait_outC (n : U16) (s : State) : (afterWait n s).outC = s.outC := by
  unfold afterWait; split <;> simp
@[simp] theorem afterWait_outS (n : U16) (s : State) : (afterWait n s).outS = s.outS := by
  unfold afterWait; split <;> simp

theorem afterWait_draws {n : U16} (h : n ≠ 0) (s : State) : (afterWait n s).draws = s.dropElapsed.draws := by
  have hemit : (s.emit (.waitBegin n)).dropElapsed.draws = s.dropElapsed.draws := by
    unfold State.dropElapsed
    rw [State.emit_draws]
    split <;> rfl
  rw [afterWait, if_neg h]
  exact hemit

theorem waitTime_pos {n : U16} (h : n ≠ 0) (s : State) : s.waitTime n = max (n.toNat : Time) s.drawElapsed := if_neg h

/-- Settles O18: `afterWait` with the timer's state after its busy-wait and a wait of at least `n`. -/
theorem waitLetsTimePassAndNothingElse : Obligations.WaitLetsTimePassAndNothingElse := by
  unfold Obligations.WaitLetsTimePassAndNothingElse
  intro n s hp
  refine ⟨_, exec_wait_next n s hp, fun hn => ⟨?timer, ?clock⟩, fun hn => ?zero, ?trace, ?ports, ?flash, ?above,
    ?stamps⟩
  case timer => rw [afterWait_timer, Timer.afterWait_eq, if_neg hn]
  case clock =>
    rw [afterWait_now]
    exact add_le_add_right (s.waitTime_ge n) s.now
  case zero =>
    subst hn
    have htimer : (afterWait 0 s).timer = { s.timer with exp := false } := by
      rw [afterWait_timer, Timer.afterWait_eq, if_pos rfl]
    exact ⟨htimer, (afterWait_now 0 s).trans (add_zero _), rfl⟩
  case trace => rw [afterWait_trace, afterWait_now]
  case ports => exact ⟨afterWait_outC n s, afterWait_outS n s, afterWait_mode n s⟩
  case flash => simp [SameFlash]
  case above => simp [SameAbove]
  case stamps => simp [SameStamps]

/-- Settles O19: the head of the schedule is the draw, and a draw of at least `n` is the wait's length. -/
theorem waitLastsAsLongAsTheEnvironmentDraws : Obligations.WaitLastsAsLongAsTheEnvironmentDraws := by
  unfold Obligations.WaitLastsAsLongAsTheEnvironmentDraws
  intro n e rest s hp hn he hs
  refine ⟨_, exec_wait_next n s hp, ?now, ?rest⟩
  case now =>
    have hdraw : s.drawElapsed = e := by rw [State.drawElapsed, hs]
    rw [afterWait_now, waitTime_pos hn, hdraw, max_eq_right he]
  case rest => rw [afterWait_draws hn, State.dropElapsed, hs]

theorem Timer.ticks_add (m n : Nat) (t : Timer) : Timer.ticks (m + n) t = Timer.ticks n (Timer.ticks m t) := by
  induction m generalizing t with
  | zero => rw [Nat.zero_add, Timer.ticks]
  | succ m ih => rw [Nat.succ_add, Timer.ticks, ih, Timer.ticks]

theorem ofNat_toNat_sub (c : U16) (k : Nat) (h : k ≤ c.toNat) : BitVec.ofNat 16 (c.toNat - k) = c - BitVec.ofNat 16 k := by
  apply BitVec.eq_of_toNat_eq
  have := c.isLt
  rw [BitVec.toNat_sub, BitVec.toNat_ofNat, BitVec.toNat_ofNat]
  omega

/-- Settles O20: the count runs down to its last tick, which stops the run for good. -/
theorem timerCountsDownOnceAndStops : Obligations.TimerCountsDownOnceAndStops := by
  unfold Obligations.TimerCountsDownOnceAndStops
  refine ⟨fun c k hc => ⟨fun hk => ?running, fun hk => ?expired⟩, fun t k h => Timer.ticks_stopped k t h⟩
  case running => rw [Timer.ticks_running k c false hk, ofNat_toNat_sub c k hk.le]
  case expired =>
    obtain ⟨j, rfl⟩ := Nat.exists_eq_add_of_le hk
    rw [Timer.ticks_add, Timer.ticks_expired c false hc, Timer.ticks_stopped _ _ rfl]

/-! ### Hazards (R211, R212, R51) -/

/-- Settles O22: the pin check is passed wherever a micro-operation completes, and names every fault. -/
theorem noMicroOperationLeavesAHazard : Obligations.NoMicroOperationLeavesAHazard := by
  unfold Obligations.NoMicroOperationLeavesAHazard
  intro u s
  rw [exec_microInstr]
  refine ⟨fun t h => ?_, fun f h => runMicro_fault h, fun r => runMicro_ne_refused⟩
  obtain ⟨-, -, hundef, hcont⟩ := runMicro_eq_next.1 h
  exact lines_of_pinCheck hundef hcont

/-! ### A primitive executed twice (R121) -/

/-- A state without its trace: what R121 compares. -/
def EqualButTrace (s t : State) : Prop := { s with trace := t.trace } = t

theorem afterDrvAddr_settled {v : U16} {s : State} (hah : s.ah = v.extractLsb' 8 8) (hal : s.al = v.extractLsb' 0 8)
    (ha : s.addrPins = v) : EqualButTrace (afterDrvAddr v s) s := by
  rw [afterDrvAddr, State.setAh_self hah, State.setAl_self (s := s.emit _) hal, if_pos ha]
  rfl

theorem afterDrvData_settled {v : Byte} {s : State} (h : s.dout = v) : EqualButTrace (afterDrvData v s) s := by
  rw [afterDrvData, State.setDout_self h]
  rfl

theorem afterSetMode_settled {m : BusMode} {s : State} (h : s.mode = m) : EqualButTrace (afterSetMode m s) s := by
  subst h
  rfl

theorem afterSetRe_settled {b : Bool} {s : State} (h : s.reN = !b) : EqualButTrace (afterSetRe b s) s := by
  rw [afterSetRe, State.setReN_self h, h, Bool.and_not_self, if_neg (by decide)]
  rfl

theorem afterSetWe_settled {b : Bool} {s : State} (h : s.weN = !b) : EqualButTrace (afterSetWe b s) s := by
  rw [afterSetWe, State.setWeN_self h, h, Bool.and_not_self, if_neg (by decide)]
  rfl

@[simp] theorem afterMicro_setWe_weN (b : Bool) (s : State) : (afterMicro (.setWe b) s).weN = !b := by
  rw [afterMicro_setWe]
  split <;> simp

/-- What a register primitive has written, it does not write again. -/
theorem afterMicro_twice (u : MicroOp) (s : State) (hwait : ∀ n, u ≠ .wait n) (hsample : u ≠ .sample) :
    EqualButTrace (afterMicro u (afterMicro u s)) (afterMicro u s) := by
  cases u with
  | setMode m => exact afterSetMode_settled rfl
  | drvAddr v =>
    exact afterDrvAddr_settled (afterDrvAddr_ah v s) (afterDrvAddr_al v s) (afterDrvAddr_addrPins v s)
  | drvData v => exact afterDrvData_settled (afterDrvData_dout v s)
  | sample => exact absurd rfl hsample
  | setRe b => exact afterSetRe_settled (afterSetRe_reN b s)
  | setWe b =>
    have hwe := afterMicro_setWe_weN b s
    rw [afterMicro_setWe b (afterMicro _ s), if_neg (by simp [hwe])]
    exact afterSetWe_settled hwe
  | wait n => exact absurd rfl (hwait n)

theorem microGuard_twice {u : MicroOp} {s : State} (h : microGuard u s) : microGuard u (afterMicro u s) := by
  cases u with
  | drvAddr v => exact (afterDrvAddr_weN v s).trans h
  | drvData v => exact (afterDrvData_weN v s).trans h
  | setWe b =>
    rintro rfl hlow
    rw [afterMicro_setWe_weN] at hlow
    exact absurd hlow (by decide)
  | setMode m | sample | setRe b | wait n => trivial

/-- The pin check does not read the trace. -/
theorem EqualButTrace.pins {s t : State} (h : EqualButTrace s t) :
    s.pinsUndefined = t.pinsUndefined ∧ s.contention = t.contention :=
  have heq : { s with trace := t.trace } = t := h
  ⟨(congrArg State.pinsUndefined heq :), (congrArg State.contention heq :)⟩

/-- Settles O23: the second execution passes the checks of the first and writes only the trace. -/
theorem primitivesAreIdempotent : Obligations.PrimitivesAreIdempotent := by
  unfold Obligations.PrimitivesAreIdempotent
  refine ⟨fun u s t hwait hsample h => ?register, fun s t h => ?sample⟩
  case register =>
    rw [exec_microInstr] at h
    obtain ⟨rfl, hguard, hundef, hcont⟩ := runMicro_eq_next.1 h
    have htwice := afterMicro_twice u s hwait hsample
    obtain ⟨hu, hc⟩ := htwice.pins
    refine ⟨afterMicro u (afterMicro u s), ?_, htwice⟩
    rw [exec_microInstr]
    exact runMicro_eq_next.2 ⟨rfl, microGuard_twice hguard, hu.trans hundef, hc.trans hcont⟩
  case sample =>
    obtain rfl : t = afterSample s := eq_afterMicro_of_exec (u := .sample) h
    rfl

end Sys2Proof.Machine
end

section
/-! PROOF. The chip as bus words reach it (R55, R58, R59, R61, R89, R94), and the flash array's canonical form. -/

namespace Sys2Proof.Machine

/-! ### A bus word on a chip that is not busy -/

theorem chipAccept_frame (a : U16) (d : Byte) (s : State) :
    SamePorts s (chipAccept a d s) ∧ SameAbove s (chipAccept a d s) ∧ SameTime s (chipAccept a d s)
      ∧ SameStamps s (chipAccept a d s) ∧ (chipAccept a d s).trace = s.trace := by
  simp [SamePorts, SameAbove, SameTime, SameStamps]

/-- The rows of the bus words that have an address and data of their own, with that address and data (R89). -/
inductive CommandWord : Instr → U16 → Byte → Prop where
  | unlock1 : CommandWord .unlock1 0x5555 0xAA
  | unlock2 : CommandWord .unlock2 0x2AAA 0x55
  | cmdProgram : CommandWord .cmdProgram 0x5555 0xA0
  | cmdEraseSetup : CommandWord .cmdEraseSetup 0x5555 0x80
  | cmdChipErase : CommandWord .cmdChipErase 0x5555 0x10

theorem CommandWord.exec_eq {i : Instr} {a : U16} {d : Byte} (h : CommandWord i a d) (s : State) :
    exec i s = exec (.payload a d) s := by
  cases h <;> rfl

/-- A command word in a state of the recogniser that expects it (R55). -/
theorem exec_expected {i : Instr} {a : U16} {d : Byte} (hi : CommandWord i a d) {s : State} {c c' : ChipCmd}
    (hbusy : s.chip.busyUntil ≤ s.now) (hc : s.chip.cmd = c) (hpgm : c ≠ .pgm) (he3 : c ≠ .e3)
    (hnext : nextCmd c a d = c') :
    ∃ t, exec i s = .next t ∧ t.chip.cmd = c' ∧ t.chip.mem = s.chip.mem ∧ t.chip.busyUntil = s.chip.busyUntil
      ∧ SamePorts s t ∧ SameAbove s t ∧ SameTime s t ∧ SameStamps s t ∧ t.trace = s.trace := by
  subst hc
  obtain ⟨hmem, hbusy'⟩ := chipAccept_moves a d s hpgm he3
  exact ⟨_, (hi.exec_eq s).trans (exec_payload_next a d s hbusy), (chipAccept_cmd a d s).trans hnext, hmem, hbusy',
    chipAccept_frame a d s⟩

/-- Settles O24, one move of the recogniser at a time. -/
theorem expectedWordsAdvanceTheRecogniser : Obligations.ExpectedWordsAdvanceTheRecogniser := by
  unfold Obligations.ExpectedWordsAdvanceTheRecogniser
  intro s hbusy i c c' hmove hc
  rcases hmove with ⟨rfl, rfl, rfl⟩ | ⟨rfl, rfl, rfl⟩ | ⟨rfl, rfl, rfl⟩ | ⟨rfl, rfl, rfl⟩ | ⟨rfl, rfl, rfl⟩
    | ⟨rfl, rfl, rfl⟩
  · exact exec_expected .unlock1 hbusy hc (by decide) (by decide) rfl
  · exact exec_expected .unlock1 hbusy hc (by decide) (by decide) rfl
  · exact exec_expected .unlock2 hbusy hc (by decide) (by decide) rfl
  · exact exec_expected .unlock2 hbusy hc (by decide) (by decide) rfl
  · exact exec_expected .cmdProgram hbusy hc (by decide) (by decide) rfl
  · exact exec_expected .cmdEraseSetup hbusy hc (by decide) (by decide) rfl

/-- Settles O25: each state's test on the cycle fails, and the recogniser alone is written. -/
theorem unexpectedWordsReturnToIdle : Obligations.UnexpectedWordsReturnToIdle := by
  unfold Obligations.UnexpectedWordsReturnToIdle
  intro s a d hbusy hfirst hsecond hthird hsixth hpgm
  rw [exec_payload_next a d s hbusy]
  refine congrArg Host.Outcome.next ?_
  unfold chipAccept
  cases hc : s.chip.cmd with
  | idle => exact congrArg s.setCmd (if_neg (hfirst (.inl hc)))
  | e1 => exact congrArg s.setCmd (if_neg (hfirst (.inr hc)))
  | u1 => exact congrArg s.setCmd (if_neg (hsecond (.inl hc)))
  | e2 => exact congrArg s.setCmd (if_neg (hsecond (.inr hc)))
  | u2 =>
    have hA0 : ¬ (a = 0x5555 ∧ d = 0xA0) := fun h => hthird hc ⟨h.1, .inl h.2⟩
    have h80 : ¬ (a = 0x5555 ∧ d = 0x80) := fun h => hthird hc ⟨h.1, .inr h.2⟩
    exact congrArg s.setCmd ((if_neg hA0).trans (if_neg h80))
  | pgm => exact absurd hc hpgm
  | e3 => exact if_neg (hsixth hc)

/-! ### Programming and erasing (R58, R59) -/

theorem chipAccept_pgm (a : U16) (d : Byte) (s : State) (h : s.chip.cmd = .pgm) :
    chipAccept a d s = (chipProgram a d s.now s).setCmd .idle := by
  simp only [chipAccept, h]

theorem chipAccept_erase (s : State) (h : s.chip.cmd = .e3) :
    chipAccept 0x5555 0x10 s = (chipEraseAll s.now s).setCmd .idle := by
  simp [chipAccept, h]

theorem FlashMem.read_write_same {m : FlashMem} (h : m.wf = true) (a : U16) (v : Byte) : (m.write a v).read a = v := by
  rw [FlashMem.write_read (FlashMem.wf_iff.1 h).1, if_pos rfl]

theorem FlashMem.read_write_other {m : FlashMem} (h : m.wf = true) {a b : U16} (v : Byte) (hb : b ≠ a) :
    (m.write a v).read b = m.read b := by
  rw [FlashMem.write_read (FlashMem.wf_iff.1 h).1, if_neg hb]

/-- Settles O26: in `Pgm` the cycle is `chipProgram`, a write of the AND. -/
theorem payloadProgramsOneCell : Obligations.PayloadProgramsOneCell := by
  unfold Obligations.PayloadProgramsOneCell
  intro s a d hwf hc hbusy
  have hnext := exec_payload_next a d s hbusy
  have hframe := chipAccept_frame a d s
  rw [chipAccept_pgm a d s hc] at hnext hframe
  exact ⟨_, hnext, FlashMem.read_write_same hwf a _, fun b hb => FlashMem.read_write_other hwf _ hb, rfl, rfl, hframe⟩

/-- Settles O27: a command word is delivered as its payload, which `Pgm` programs. -/
theorem commandWordsArePayloads : Obligations.CommandWordsArePayloads := by
  unfold Obligations.CommandWordsArePayloads
  intro s i a d hi
  have hword : CommandWord i a d := by
    rcases hi with ⟨rfl, rfl, rfl⟩ | ⟨rfl, rfl, rfl⟩ | ⟨rfl, rfl, rfl⟩ | ⟨rfl, rfl, rfl⟩ | ⟨rfl, rfl, rfl⟩
    · exact .unlock1
    · exact .unlock2
    · exact .cmdProgram
    · exact .cmdEraseSetup
    · exact .cmdChipErase
  refine ⟨hword.exec_eq s, fun hc hbusy hwf => ?_⟩
  obtain ⟨t, ht, hcell, hothers, hcmd, -⟩ := payloadProgramsOneCell s a d hwf hc hbusy
  exact ⟨t, (hword.exec_eq s).trans ht, hcmd, hcell, hothers⟩

/-- Settles O28: in `E3` the sixth cycle is `chipEraseAll`. -/
theorem chipEraseErasesEveryCell : Obligations.ChipEraseErasesEveryCell := by
  unfold Obligations.ChipEraseErasesEveryCell
  intro s hc hbusy
  have hnext := (CommandWord.cmdChipErase.exec_eq s).trans (exec_payload_next 0x5555 0x10 s hbusy)
  have hframe := chipAccept_frame 0x5555 0x10 s
  rw [chipAccept_erase s hc] at hnext hframe
  exact ⟨_, hnext, FlashMem.eraseAll_read, rfl, rfl, hframe⟩

theorem exec_payload_busy (a : U16) (d : Byte) {s : State} (h : s.now < s.chip.busyUntil) :
    exec (.payload a d) s = .fault (.chipUndefined (.busCycle a d) s.now) := if_pos h

/-- Settles O29: every bus word is a payload, which a busy chip refuses. -/
theorem busyChipRefusesEveryWord : Obligations.BusyChipRefusesEveryWord := by
  unfold Obligations.BusyChipRefusesEveryWord
  intro s i hbusy hi
  have command : ∀ {a d}, CommandWord i a d → ∃ o, exec i s = .fault (.chipUndefined o s.now) := fun h =>
    ⟨_, (h.exec_eq s).trans (exec_payload_busy _ _ hbusy)⟩
  rcases hi with rfl | rfl | rfl | rfl | rfl | ⟨a, d, rfl⟩
  · exact command .unlock1
  · exact command .unlock2
  · exact command .cmdProgram
  · exact command .cmdEraseSetup
  · exact command .cmdChipErase
  · exact ⟨_, exec_payload_busy a d hbusy⟩

/-! ### Canonical arrays -/

/-- In a canonical array, what is listed at an address is what the array reads there unless that is the background. -/
theorem FlashMem.lookupCell_eq {m : FlashMem} (h : m.wf = true) (k : Nat) :
    lookupCell k m.cells =
      if k < 65536 ∧ m.read (BitVec.ofNat 16 k) ≠ m.unlisted k then some (m.read (BitVec.ofNat 16 k)) else none := by
  obtain ⟨-, hcells⟩ := FlashMem.wf_iff.1 h
  by_cases hk : k < 65536
  · have haddr : (BitVec.ofNat 16 k).toNat = k := by rw [BitVec.toNat_ofNat]; omega
    have hread : m.read (BitVec.ofNat 16 k) = (lookupCell k m.cells).getD (m.unlisted k) := by
      rw [FlashMem.read, haddr]
    rw [hread]
    cases hl : lookupCell k m.cells with
    | none => simp
    | some v =>
      have hne : v ≠ m.unlisted k := (hcells (k, v) (lookupCell_mem hl)).2
      simp [hk, hne]
  · rw [if_neg (fun hh => hk hh.1)]
    cases hl : lookupCell k m.cells with
    | none => rfl
    | some v => exact absurd (hcells (k, v) (lookupCell_mem hl)).1 hk

/-- Settles O30: reading alike is listing alike, and rising lists with equal lookups are equal. -/
theorem canonicalArraysThatReadAlikeAreEqual : Obligations.CanonicalArraysThatReadAlikeAreEqual := by
  unfold Obligations.CanonicalArraysThatReadAlikeAreEqual
  intro m n hm hn herased hread
  have hcells : m.cells = n.cells := by
    refine risingCells_unique (FlashMem.wf_iff.1 hm).1 (FlashMem.wf_iff.1 hn).1 fun k => ?_
    rw [FlashMem.lookupCell_eq hm, FlashMem.lookupCell_eq hn, hread, FlashMem.unlisted_congr herased]
  cases m
  cases n
  simp_all

end Sys2Proof.Machine
end

section
/-! PROOF. The sequencer (R20, R130, R140): a step of a running operation, the operation as one instruction, and a
request that is held. -/

namespace Sys2Proof.Machine

/-! ### One step of a running operation -/

/-- While an operation runs, a step is a step of the sequencer. -/
theorem step_busy {s : State} (hd : s.fe.dsp ≠ .halted) (hb : s.seq.busy = true) : step s = seqStep s := by
  rw [step, machineStep, if_neg hd, if_pos hb]

/-- Inside a micro-program a micro-operation is what it is on its own, but for the latches. -/
theorem runSeqMicro_eq_next {u : MicroOp} {s v : State} (h : runSeqMicro u s = .next v) :
    ∃ r, runMicro u s = .next r ∧ v = r.withSeq v.seq := by
  cases u with
  | sample =>
    obtain ⟨r, hr, hx⟩ := andThen_eq_next.1 h
    obtain rfl := Host.Outcome.next.inj hx
    exact ⟨r, hr, rfl⟩
  | setMode m | drvAddr a | drvData d | setRe b | setWe b | wait n => exact ⟨v, h, rfl⟩

theorem seqStep_past_end {s : State} (h : s.program.length ≤ s.seq.upc) :
    seqStep s = .next { s with seq.busy := false } := by
  rw [seqStep, List.getElem?_eq_none h]

/-- Settles O5: the step is `seqStep`, whose two cases are the two clauses. -/
theorem stepAdvancesTheMicroProgramByOne : Obligations.StepAdvancesTheMicroProgramByOne := by
  unfold Obligations.StepAdvancesTheMicroProgramByOne
  refine ⟨fun cfg a b => ⟨microProgram_length cfg .readByte a b, microProgram_length cfg .writeByte a b,
    microProgram_length cfg .eraseChip a b⟩, fun s hd hb => ?_⟩
  rw [step_busy hd hb]
  refine ⟨fun u t hu h => ?runs, fun hend => seqStep_past_end hend⟩
  case runs =>
    have hu : s.program[s.seq.upc]? = some u := hu
    rcases seqStep_cases h with ⟨hend, -⟩ | ⟨u', v, hu', hv, rfl⟩
    · rw [List.getElem?_eq_none hend] at hu
      exact absurd hu (by simp)
    · obtain rfl : u = u' := Option.some.inj (hu.symm.trans hu')
      obtain ⟨-, hseq, hfe, hissue, -⟩ := runSeqMicro_frame hv
      obtain ⟨r, hr, hvr⟩ := runSeqMicro_eq_next hv
      refine ⟨rfl, ?_, ?_, ?_, ?_, hfe, hissue, r, (exec_microInstr u s).trans hr, ?_⟩
      · show v.seq.busy = true
        rw [hseq]; exact hb
      · show v.seq.op = s.seq.op
        rw [hseq]
      · show v.seq.addr = s.seq.addr
        rw [hseq]
      · show v.seq.wdata = s.seq.wdata
        rw [hseq]
      · rw [hvr]
        exact ⟨rfl, rfl, rfl, rfl, rfl, rfl, rfl, rfl⟩

/-! ### The machine's steps are the sequencer's -/

/-- How many steps a running operation still takes, the one that clears `SEQ_BUSY` among them. -/
def State.stepsLeft (s : State) : Nat := s.program.length - s.seq.upc + 1

theorem coreRun_succ_next {M : Host.Core} {k : Nat} {s t : M.State} (h : M.step s = .next t) :
    M.run (k + 1) s = M.run k t := by
  rw [Host.Core.run, h]

theorem coreRun_succ_fault {M : Host.Core} {k : Nat} {s : M.State} {e : M.Fault} (h : M.step s = .fault e) :
    M.run (k + 1) s = .fault e := by
  rw [Host.Core.run, h]

theorem coreRun_succ_refused {M : Host.Core} {k : Nat} {s : M.State} {e : M.Refusal} (h : M.step s = .refused e) :
    M.run (k + 1) s = .refused e := by
  rw [Host.Core.run, h]

theorem run_succ (k : Nat) (s : State) :
    Host.Core.run Sys2Proof.core (k + 1) s = andThen (step s) (Host.Core.run Sys2Proof.core k) := by
  cases h : step s with
  | next t => exact coreRun_succ_next (M := Sys2Proof.core) h
  | fault e => exact coreRun_succ_fault (M := Sys2Proof.core) h
  | refused e => exact coreRun_succ_refused (M := Sys2Proof.core) h

/-- Up to the step that clears `SEQ_BUSY`, running the machine is draining the sequencer. -/
theorem run_eq_seqDrain (k : Nat) {s : State} (hd : s.fe.dsp ≠ .halted) (hb : s.seq.busy = true)
    (hk : k ≤ s.stepsLeft) : Host.Core.run Sys2Proof.core k s = seqDrain k s := by
  induction k generalizing s with
  | zero => rfl
  | succ k ih =>
    rw [run_succ, step_busy hd hb, seqDrain, if_pos hb]
    cases h : seqStep s with
    | fault e => rfl
    | refused e => rfl
    | next t =>
      show Host.Core.run Sys2Proof.core k t = seqDrain k t
      rcases seqStep_cases h with ⟨hend, rfl⟩ | ⟨u, v, hu, hv, rfl⟩
      · obtain rfl : k = 0 := by unfold State.stepsLeft at hk; omega
        rfl
      · obtain ⟨hcfg, hseq, hfe, -, -⟩ := runSeqMicro_frame hv
        obtain ⟨hlt, -⟩ := List.getElem?_eq_some_iff.1 hu
        have hprogram : State.program { v with seq.upc := s.seq.upc + 1 } = s.program := by
          show microProgram v.cfg v.seq.op v.seq.addr v.seq.wdata = s.program
          rw [hcfg, hseq, State.program]
        refine ih (by rw [hfe]; exact hd) (by show v.seq.busy = true; rw [hseq]; exact hb) ?_
        rw [State.stepsLeft, hprogram]
        unfold State.stepsLeft at hk
        show k ≤ s.program.length - (s.seq.upc + 1) + 1
        omega

theorem seqDrain_stepsLeft {s : State} (hb : s.seq.busy = true) (hupc : s.seq.upc ≤ s.program.length) :
    seqDrain s.stepsLeft s = seqDrain seqFuel s := by
  have hlen : (s.program.drop s.seq.upc).length = s.program.length - s.seq.upc := List.length_drop
  have hfuel : s.program.length < seqFuel := microProgram_length_lt _ _ _ _
  rw [seqDrain_busy _ s.stepsLeft s hb rfl hupc (by unfold State.stepsLeft; omega),
    seqDrain_busy _ seqFuel s hb rfl hupc (by omega)]

/-- Running the machine for a running operation's remaining steps. -/
theorem run_stepsLeft {s : State} (hd : s.fe.dsp ≠ .halted) (hb : s.seq.busy = true)
    (hupc : s.seq.upc ≤ s.program.length) :
    Host.Core.run Sys2Proof.core s.stepsLeft s = seqDrain seqFuel s := by
  rw [run_eq_seqDrain _ hd hb (le_refl _), seqDrain_stepsLeft hb hupc]

theorem request_from_idle_eq (op : SeqOp) (a : U16) (b : Byte) {s : State} (hb : s.seq.busy = false) :
    request op a b s = seqDrain seqFuel (acceptRequest op a b s) := by
  rw [request, seqDrain_idle _ _ hb, andThen_next]

/-- Settles O40: both views drain the accepted request. -/
theorem operationIsItsStepsThroughTheSequencer : Obligations.OperationIsItsStepsThroughTheSequencer := by
  unfold Obligations.OperationIsItsStepsThroughTheSequencer
  intro op a b s hb hd
  rw [exec_opInstr, request_from_idle_eq op a b hb]
  exact (run_stepsLeft (s := acceptRequest op a b s) hd rfl (Nat.zero_le _)).symm

/-! ### A request while an operation runs -/

theorem seqDrain_from_busy {s t : State} (hb : s.seq.busy = true) (hupc : s.seq.upc ≤ s.program.length)
    (h : seqDrain seqFuel s = .next t) : t.seq.busy = false := by
  have hlen : (s.program.drop s.seq.upc).length = s.program.length - s.seq.upc := List.length_drop
  have hfuel : s.program.length < seqFuel := microProgram_length_lt _ _ _ _
  rw [seqDrain_busy _ seqFuel s hb rfl hupc (by omega)] at h
  obtain ⟨v, -, hx⟩ := andThen_eq_next.1 h
  rw [← Host.Outcome.next.inj hx, seqDone_seq]

/-- Settles O41: the request first drains the running operation, which is what its remaining steps do. -/
theorem requestWhileBusyIsHeld : Obligations.RequestWhileBusyIsHeld := by
  unfold Obligations.RequestWhileBusyIsHeld
  intro op a b s t hd hb hupc hrun
  have hdrain : seqDrain seqFuel s = .next t := (run_stepsLeft hd hb hupc).symm.trans hrun
  have hidle : t.seq.busy = false := seqDrain_from_busy hb hupc hdrain
  refine ⟨hidle, ?_⟩
  rw [exec_opInstr, exec_opInstr, request_from_idle_eq op a b hidle, request, hdrain, andThen_next]

end Sys2Proof.Machine
end

section
/-! PROOF. PULSE and the device operations (R131 to R145, R213): what each leaves, its events, and the only fault it can
meet from idle lines. -/

namespace Sys2Proof.Machine

/-! ### PULSE (R131) -/

/-- Settles O32: `afterPulse` is the state, and the chip has received the cycle at the end of the hold. -/
theorem pulseDeliversOneWriteCycle : Obligations.PulseDeliversOneWriteCycle := by
  unfold Obligations.PulseDeliversOneWriteCycle
  intro a d s h
  have hlong := pulseTime_ge a d s
  have hfree : s.chip.busyUntil ≤ (afterPulse a d s).now := by
    rw [afterPulse_now]
    exact h.pulseReady.free.trans (add_le_add_right hlong s.now)
  refine ⟨_, _, h.pulseReady.pulse a d, afterPulse_mode a d s, afterPulse_addrPins a d s, afterPulse_dout a d s,
    afterPulse_weN a d s, afterPulse_reN a d s, afterPulse_unrelC a d s, ?clock, events_afterPulse a d s,
    exec_payload_next a d { s with now := (afterPulse a d s).now } hfree, ?mem, ?cmd, ?busy, ?above,
    afterPulse_chip_tRe a d s, ?timer⟩
  case clock => rw [afterPulse_now]; exact add_le_add_right hlong s.now
  case mem => rw [afterPulse_now]; exact (afterPulse_chip a d s).1
  case cmd => rw [afterPulse_now]; exact (afterPulse_chip a d s).2.1
  case busy => rw [afterPulse_now]; exact (afterPulse_chip a d s).2.2
  case above => exact ⟨afterPulse_cfg a d s, afterPulse_seq a d s, afterPulse_fe a d s, afterPulse_issue a d s⟩
  case timer => intro ht; rw [afterPulse_timer, ht, Timer.afterWait_idle]

/-! ### READBYTE, WRITEBYTE, ERASECHIP from the premises of their documented effect -/

/-- Settles O33: `ReadDone` is everything READBYTE does. -/
theorem readByteReturnsTheArrayByte : Obligations.ReadByteReturnsTheArrayByte := by
  unfold Obligations.ReadByteReturnsTheArrayByte
  intro a x s hb hw
  obtain ⟨t, ht, hd⟩ := request_readByte_done a x s hb hw
  exact ⟨t, ht, hd.mode, hd.addrPins, hd.reN, hd.weN, hd.dout, hd.unrelC, hd.now,
    ⟨fun c => by rw [hd.mem], hd.cmd, hd.busyUntil⟩, hd.seq, hd.cfg, hd.fe, hd.issue, hd.timer, hd.rdata⟩

/-- Settles O35: `WriteDone` is everything WRITEBYTE does; its one write of the array is the AND. -/
theorem writeByteProgramsTheCell : Obligations.WriteByteProgramsTheCell := by
  unfold Obligations.WriteByteProgramsTheCell
  intro b a s h hwf
  obtain ⟨t, ht, hd⟩ := request_writeByte_done a b s h.2.1 h.pulseReady h.2.2
  refine ⟨t, ht, ?cell, fun c hc => ?others, hd.mode, hd.addrPins, hd.dout, hd.reN, hd.weN, hd.unrelC, hd.cmd,
    hd.busyUntil, hd.now, hd.seq, hd.cfg, hd.fe, hd.issue, hd.timer⟩
  case cell => rw [hd.mem, FlashMem.read_write_same hwf]
  case others => rw [hd.mem, FlashMem.read_write_other hwf _ hc]

/-- Settles O37: `EraseDone` is everything ERASECHIP does. -/
theorem eraseChipErasesEveryCell : Obligations.EraseChipErasesEveryCell := by
  unfold Obligations.EraseChipErasesEveryCell
  intro a x s h
  obtain ⟨t, ht, hd⟩ := request_eraseChip_done a x s h.2.1 h.pulseReady h.2.2
  exact ⟨t, ht, fun c => by rw [hd.mem, FlashMem.eraseAll_read], hd.mode, hd.addrPins, hd.dout, hd.reN, hd.weN, hd.unrelC,
    hd.cmd, hd.busyUntil, hd.now, hd.seq, hd.cfg, hd.fe, hd.issue, hd.timer⟩

/-! ### The events of the operations (R132 to R134, R141 to R145) -/

theorem events_seqDone (s : State) (n : Nat) : (s.seqDone n).events = s.events := rfl

theorem events_afterUnlock (third : Byte) (s : State) :
    (afterUnlock third s).events = s.events ++ pulseTrace s.cfg.tWeHold 0x5555 0xAA
      ++ pulseTrace s.cfg.tWeHold 0x2AAA 0x55 ++ pulseTrace s.cfg.tWeHold 0x5555 third := by
  simp only [afterUnlock, events_afterPulse, afterPulse_cfg]

theorem events_afterWriteByte (a : U16) (b : Byte) (s : State) :
    (afterWriteByte a b s).events = s.events ++ pulseTrace s.cfg.tWeHold 0x5555 0xAA
      ++ pulseTrace s.cfg.tWeHold 0x2AAA 0x55 ++ pulseTrace s.cfg.tWeHold 0x5555 0xA0
      ++ [.waitBegin s.cfg.tProgSettle, .waitEnd s.cfg.tProgSettle] ++ pulseTrace s.cfg.tWeHold a b ++ [.data 0x00] := by
  rw [afterWriteByte, events_afterDrvData, events_afterPulse, writeReady_cfg, writeReady, events_afterWait,
    events_afterUnlock]

theorem events_afterEraseChip (s : State) :
    (afterEraseChip s).events = s.events ++ pulseTrace s.cfg.tWeHold 0x5555 0xAA
      ++ pulseTrace s.cfg.tWeHold 0x2AAA 0x55 ++ pulseTrace s.cfg.tWeHold 0x5555 0x80
      ++ pulseTrace s.cfg.tWeHold 0x5555 0xAA ++ pulseTrace s.cfg.tWeHold 0x2AAA 0x55
      ++ pulseTrace s.cfg.tWeHold 0x5555 0x10 ++ [.waitBegin s.cfg.tEraseWait, .waitEnd s.cfg.tEraseWait] := by
  simp only [afterEraseChip, eraseReady, events_afterWait, events_afterPulse, events_afterUnlock, afterPulse_cfg,
    afterUnlock_cfg]

/-- Settles O34: the stamped events of READBYTE without their stamps. -/
theorem readByteTraceNeverAssertsWriteEnable : Obligations.ReadByteTraceNeverAssertsWriteEnable := by
  unfold Obligations.ReadByteTraceNeverAssertsWriteEnable
  intro a x s t hb hw h
  obtain rfl := Host.Outcome.next.inj ((request_readByte a x s hb hw).symm.trans h)
  have hrdata : ((afterReadByte a (acceptRequest .readByte a x s)).seqDone 8).seq.rdata =
      (readReady a (acceptRequest .readByte a x s)).sampled := by
    rw [seqDone_seq, afterReadByte_seq]
  rw [hrdata, events_seqDone, State.events, afterReadByte_trace, List.map_append]
  rfl

/-- Settles O36: the events of `afterWriteByte`. -/
theorem writeByteTraceIsUnlockWaitPayload : Obligations.WriteByteTraceIsUnlockWaitPayload := by
  unfold Obligations.WriteByteTraceIsUnlockWaitPayload
  intro b a s t hready h
  obtain rfl := Host.Outcome.next.inj ((request_writeByte a b s hready.2.1 hready.pulseReady hready.2.2).symm.trans h)
  exact events_afterWriteByte a b (acceptRequest .writeByte a b s)

/-- Settles O38: the events of `afterEraseChip`. -/
theorem eraseChipTraceIsSixPulsesAndAWait : Obligations.EraseChipTraceIsSixPulsesAndAWait := by
  unfold Obligations.EraseChipTraceIsSixPulsesAndAWait
  intro a x s t hready h
  obtain rfl := Host.Outcome.next.inj ((request_eraseChip a x s hready.2.1 hready.pulseReady hready.2.2).symm.trans h)
  exact events_afterEraseChip (acceptRequest .eraseChip a x s)

/-! ### Micro-programs from idle lines (R213) -/

/-- The one fault of an operation that starts with idle lines: the chip's refusal of a write cycle. -/
def CycleRefused (r : Result) : Prop := ∃ time, r = .fault (.chipUndefined (.uop (.setWe false)) time)

/-- From idle lines, the micro-operations run to idle lines again or meet the chip's refusal of a write cycle. -/
def KeepsLinesIdle (us : List MicroOp) : Prop :=
  ∀ s, LinesIdle s → (∃ t, runMicros us s = .next t ∧ LinesIdle t) ∨ CycleRefused (runMicros us s)

theorem KeepsLinesIdle.append {us vs : List MicroOp} (hu : KeepsLinesIdle us) (hv : KeepsLinesIdle vs) :
    KeepsLinesIdle (us ++ vs) := by
  intro s hs
  rw [runMicros_append]
  rcases hu s hs with ⟨t, ht, hidle⟩ | ⟨time, hf⟩
  · rw [ht, andThen_next]; exact hv t hidle
  · rw [hf]; exact .inr ⟨time, rfl⟩

theorem KeepsLinesIdle.of_next {u : MicroOp} (h : ∀ s, LinesIdle s → ∃ t, runMicro u s = .next t ∧ LinesIdle t) :
    KeepsLinesIdle [u] := by
  intro s hs
  obtain ⟨t, ht, hidle⟩ := h s hs
  exact .inl ⟨t, by rw [runMicros_cons, ht, andThen_next, runMicros_nil], hidle⟩

theorem keepsLinesIdle_wait (n : U16) : KeepsLinesIdle [.wait n] :=
  .of_next fun s hs => ⟨_, runMicro_wait n s hs.1 (.inl hs.2), (afterWait_reN n s).trans hs.1,
    (afterWait_weN n s).trans hs.2⟩

theorem keepsLinesIdle_drvData (v : Byte) : KeepsLinesIdle [.drvData v] :=
  .of_next fun s hs => ⟨_, runMicro_drvData v s hs.1 hs.2, (afterDrvData_reN v s).trans hs.1,
    (afterDrvData_weN v s).trans hs.2⟩

/-- The state of a PULSE just before its rising edge. -/
def pulseHeld (hold : U16) (a : U16) (d : Byte) (s : State) : State :=
  afterWait hold (afterSetWe true (afterDrvData d (afterDrvAddr a (afterSetMode .write s))))

theorem runMicros_pulse_release (hold : U16) (a : U16) (d : Byte) {s : State} (hs : LinesIdle s) :
    runMicros (pulseOps hold a d) s = runMicro (.setWe false) (pulseHeld hold a d s) := by
  obtain ⟨hr, hw⟩ := hs
  have e1 := runMicro_setMode .write s hr (.inr rfl)
  have e2 := runMicro_drvAddr a (afterSetMode .write s) (by simpa using hr) (by simpa using hw)
  have e3 := runMicro_drvData d (afterDrvAddr a (afterSetMode .write s)) (by simpa using hr) (by simpa using hw)
  have e4 := runMicro_assertWe (afterDrvData d (afterDrvAddr a (afterSetMode .write s))) (by simpa using hr) (by simp)
  have e5 := runMicro_wait hold (afterSetWe true (afterDrvData d (afterDrvAddr a (afterSetMode .write s))))
    (by simpa using hr) (by simp)
  simp only [pulseOps, runMicros_cons, e1, e2, e3, e4, e5, andThen_next]
  show andThen (runMicro (.setWe false) (pulseHeld hold a d s)) .next = _
  cases runMicro (.setWe false) (pulseHeld hold a d s) <;> rfl

theorem keepsLinesIdle_pulse (hold : U16) (a : U16) (d : Byte) : KeepsLinesIdle (pulseOps hold a d) := by
  intro s hs
  rw [runMicros_pulse_release hold a d hs]
  have hr : (pulseHeld hold a d s).reN = true := by simpa [pulseHeld] using hs.1
  have hw : (pulseHeld hold a d s).weN = false := by simp [pulseHeld]
  by_cases hbusy : (pulseHeld hold a d s).now < (pulseHeld hold a d s).chip.busyUntil
  · exact .inr ⟨_, runMicro_releaseWe_fault hw (.inr hbusy)⟩
  · cases hc : (pulseHeld hold a d s).cycleWellFormed with
    | false => exact .inr ⟨_, runMicro_releaseWe_fault hw (.inl hc)⟩
    | true => exact .inl ⟨_, runMicro_releaseWe_cycle _ hr hw hc (not_lt.1 hbusy), by simpa using hr, by simp⟩

theorem keepsLinesIdle_writeByte (cfg : Config) (a : U16) (b : Byte) : KeepsLinesIdle (microProgram cfg .writeByte a b) :=
  (((((keepsLinesIdle_pulse _ _ _).append (keepsLinesIdle_pulse _ _ _)).append (keepsLinesIdle_pulse _ _ _)).append
    (keepsLinesIdle_wait _)).append (keepsLinesIdle_pulse _ _ _)).append (keepsLinesIdle_drvData _)

theorem keepsLinesIdle_eraseChip (cfg : Config) (a : U16) (b : Byte) : KeepsLinesIdle (microProgram cfg .eraseChip a b) :=
  ((((((keepsLinesIdle_pulse _ _ _).append (keepsLinesIdle_pulse _ _ _)).append (keepsLinesIdle_pulse _ _ _)).append
    (keepsLinesIdle_pulse _ _ _)).append (keepsLinesIdle_pulse _ _ _)).append (keepsLinesIdle_pulse _ _ _)).append
    (keepsLinesIdle_wait _)

/-- An operation completes with idle lines, or meets the chip's refusal of a write cycle. -/
def IdleOrRefused (r : Result) : Prop :=
  (∃ t, r = .next t ∧ LinesIdle t ∧ t.seq.busy = false) ∨ CycleRefused r

/-- An operation whose micro-program keeps the lines idle. -/
theorem KeepsLinesIdle.request {op : SeqOp} {a : U16} {b : Byte} {s : State}
    (h : KeepsLinesIdle (microProgram s.cfg op a b)) (hno : .sample ∉ microProgram s.cfg op a b) (hs : Quiescent s) :
    IdleOrRefused (request op a b s) := by
  rw [request_idle op a b s hs.2, runSeqMicros_eq _ hno]
  rcases h (acceptRequest op a b s) hs.1 with ⟨t, ht, hidle⟩ | ⟨time, hf⟩
  · rw [ht]; exact .inl ⟨_, rfl, hidle, rfl⟩
  · rw [hf]; exact .inr ⟨time, rfl⟩

theorem request_readByte_idle (a : U16) (x : Byte) {s : State} (hb : s.seq.busy = false) (hw : s.weN = true) :
    ∃ t, request .readByte a x s = .next t ∧ LinesIdle t ∧ t.seq.busy = false := by
  obtain ⟨t, ht, hd⟩ := request_readByte_done a x s hb hw
  exact ⟨t, ht, ⟨hd.reN, hd.weN⟩, hd.busy⟩

theorem request_quiescent (op : SeqOp) (a : U16) (b : Byte) {s : State} (hs : Quiescent s) :
    IdleOrRefused (request op a b s) := by
  cases op with
  | readByte => exact .inl (request_readByte_idle a b hs.2 hs.1.2)
  | writeByte => exact (keepsLinesIdle_writeByte s.cfg a b).request (by simp [microProgram, pulseOps]) hs
  | eraseChip => exact (keepsLinesIdle_eraseChip s.cfg a b).request (by simp [microProgram, pulseOps]) hs

/-! ### READBYTE from an open write bus cycle (R132, R213) -/

/-- `s` with the open write bus cycle ended and nothing recorded: where READBYTE's reading begins. -/
def State.cycleEnded (s : State) : State := { afterCycle s with trace := s.trace }

theorem State.cycleEnded_frame (s : State) :
    SameAbove s s.cycleEnded ∧ SameTime s s.cycleEnded ∧ SameStamps s s.cycleEnded :=
  afterCycle_frame s

theorem State.cycleEnded_weN (s : State) : s.cycleEnded.weN = true := afterCycle_weN s

theorem State.cycleEnded_reN (s : State) : s.cycleEnded.reN = s.reN := afterCycle_reN s

theorem State.cycleEnded_dout (s : State) : s.cycleEnded.dout = s.dout := afterCycle_dout s

theorem State.cycleEnded_unrelC (s : State) : s.cycleEnded.unrelC = s.unrelC := afterCycle_unrelC s

/-- Releasing a line that is high writes the event alone. -/
theorem afterSetRe_released {s : State} (h : s.reN = true) : afterSetRe false s = s.emit (.re true) := by
  rw [afterSetRe, Bool.not_false, State.setReN_self h]
  rfl

theorem afterSetWe_released {s : State} (h : s.weN = true) : afterSetWe false s = s.emit (.we true) := by
  rw [afterSetWe, Bool.not_false, State.setWeN_self h]
  rfl

theorem chipAccept_trace_irrelevant (a : U16) (d : Byte) (s : State) (tr : List Stamped) :
    chipAccept a d { s with trace := tr } = { chipAccept a d s with trace := tr } := by
  unfold chipAccept
  cases s.chip.cmd with
  | e3 => dsimp only; split <;> rfl
  | idle | u1 | u2 | pgm | e1 | e2 => rfl

/-- The cycle ended after an event, and the event and the edge recorded after the cycle, are one state. -/
theorem afterCycle_emit (s : State) (e : Event) : afterCycle (s.emit e) = (s.cycleEnded.emit e).emit (.we true) := by
  have hnow : (afterCycle s).now = s.now := (afterCycle_frame s).2.1.2.1
  have hmoved : afterCycle (s.emit e) = { afterCycle s with trace := s.trace ++ [⟨s.now, e⟩] ++ [⟨s.now, .we true⟩] } :=
    chipAccept_trace_irrelevant s.addrPins s.dout (afterSetWe false s) _
  rw [hmoved]
  simp only [State.emit, State.cycleEnded, hnow]

/-- An open write bus cycle that may end now: well-formed, on a chip that is not busy (R50, R61). -/
structure CycleOpen (s : State) : Prop where
  weN : s.weN = false
  reN : s.reN = true
  mode : s.mode = .write
  wide : s.chip.tWe + s.cfg.tWp ≤ s.now
  free : s.chip.busyUntil ≤ s.now

/-- READBYTE ends the cycle by its SETWE 0 and goes on as from the ended cycle. -/
theorem runSeqMicros_readByte_openCycle {s : State} (h : CycleOpen s) (cfg : Config) (a : U16) (x : Byte) :
    runSeqMicros (microProgram cfg .readByte a x) s = runSeqMicros (microProgram cfg .readByte a x) s.cycleEnded := by
  have hre := s.cycleEnded_reN.trans h.reN
  have hwe := s.cycleEnded_weN
  have open1 := runMicro_releaseRe s (.inr h.mode)
  rw [afterSetRe_released h.reN] at open1
  have open2 : runMicro (.setWe false) (s.emit (.re true)) = .next (afterCycle (s.emit (.re true))) :=
    runMicro_releaseWe_next (s := s.emit (.re true)) h.weN h.reN h.mode h.wide h.free
  have ended1 := runMicro_releaseRe s.cycleEnded (.inl hwe)
  rw [afterSetRe_released hre] at ended1
  have ended2 : runMicro (.setWe false) (s.cycleEnded.emit (.re true)) =
      .next ((s.cycleEnded.emit (.re true)).emit (.we true)) := by
    rw [runMicro_releaseWe_idle (s.cycleEnded.emit (.re true)) hre hwe,
      afterSetWe_released (s := s.cycleEnded.emit (.re true)) hwe]
  simp only [microProgram, runSeqMicros, runSeqMicro, open1, open2, ended1, ended2, andThen_next, afterCycle_emit]

theorem State.cycleEnded_withSeq (s : State) (q : Sequencer) : (s.withSeq q).cycleEnded = s.cycleEnded.withSeq q := by
  show { chipAccept s.addrPins s.dout ((afterSetWe false s).withSeq q) with trace := s.trace } = _
  rw [chipAccept_withSeq]
  rfl

theorem acceptRequest_cycleEnded (op : SeqOp) (a : U16) (b : Byte) (s : State) :
    (acceptRequest op a b s).cycleEnded = acceptRequest op a b s.cycleEnded := by
  have hseq : s.cycleEnded.seq = s.seq := s.cycleEnded_frame.1.2.1
  rw [acceptRequest, acceptRequest, hseq]
  exact s.cycleEnded_withSeq _

theorem request_readByte_openCycle {s : State} (h : CycleOpen s) (hb : s.seq.busy = false) (a : U16) (x : Byte) :
    request .readByte a x s = request .readByte a x s.cycleEnded := by
  obtain ⟨hcfg, hseq, -, -⟩ := s.cycleEnded_frame.1
  have hopen : CycleOpen (acceptRequest .readByte a x s) := ⟨h.weN, h.reN, h.mode, h.wide, h.free⟩
  rw [request_idle _ _ _ _ hb, request_idle _ _ _ _ (by rw [hseq]; exact hb), hcfg,
    runSeqMicros_readByte_openCycle hopen, acceptRequest_cycleEnded]

/-- READBYTE from a write bus cycle that is too short or untimely meets the chip's refusal (R50, R61). -/
theorem request_readByte_refused {s : State} (hb : s.seq.busy = false) (hw : s.weN = false)
    (hm : s.mode = .write) (h : s.now < s.chip.tWe + s.cfg.tWp ∨ s.now < s.chip.busyUntil) (a : U16) (x : Byte) :
    request .readByte a x s = .fault (.chipUndefined (.uop (.setWe false)) s.now) := by
  have open1 := runMicro_releaseRe (acceptRequest .readByte a x s) (.inr hm)
  have open2 : runMicro (.setWe false) (afterSetRe false (acceptRequest .readByte a x s)) =
      .fault (.chipUndefined (.uop (.setWe false)) s.now) := by
    refine runMicro_releaseWe_fault (by simpa using hw) ?_
    refine h.imp (fun hshort => Bool.eq_false_iff.2 fun hwell => ?_) id
    exact absurd ((cycleWellFormed_iff _).1 hwell).2.2 (not_le.2 hshort)
  rw [request_idle _ _ _ _ hb]
  simp only [microProgram, runSeqMicros, runSeqMicro, open1, open2, andThen_next, andThen_fault, mapNext_fault]

/-- READBYTE from any lines that are not both low (R213, last sentence). -/
theorem request_readByte_recovers (a : U16) (x : Byte) {s : State} (hb : s.seq.busy = false)
    (hlow : ¬ (s.reN = false ∧ s.weN = false)) (hmode : ¬ (s.weN = false ∧ s.mode = .read)) :
    (∃ t, request .readByte a x s = .next t ∧ LinesIdle t ∧ t.seq.busy = false)
      ∨ (s.weN = false ∧ request .readByte a x s = .fault (.chipUndefined (.uop (.setWe false)) s.now)) := by
  cases hw : s.weN with
  | true => exact .inl (request_readByte_idle a x hb hw)
  | false =>
    have hr : s.reN = true := by simpa [hw] using hlow
    have hm : s.mode = .write := by
      cases h : s.mode with
      | write => rfl
      | read => exact absurd ⟨hw, h⟩ hmode
    by_cases h : s.now < s.chip.tWe + s.cfg.tWp ∨ s.now < s.chip.busyUntil
    · exact .inr ⟨rfl, request_readByte_refused hb hw hm h a x⟩
    · obtain ⟨hwide, hfree⟩ := not_or.1 h
      have hopen : CycleOpen s := ⟨hw, hr, hm, not_lt.1 hwide, not_lt.1 hfree⟩
      have hidle : s.cycleEnded.seq.busy = false := by rw [s.cycleEnded_frame.1.2.1]; exact hb
      rw [request_readByte_openCycle hopen hb]
      exact .inl (request_readByte_idle a x hidle s.cycleEnded_weN)

/-- Settles O39: the micro-programs keep idle lines, and READBYTE recovers from any others. -/
theorem deviceOperationsRaiseNoBusHazard : Obligations.DeviceOperationsRaiseNoBusHazard := by
  unfold Obligations.DeviceOperationsRaiseNoBusHazard
  refine ⟨fun op a b s hs => ?_, fun a x s hb hlow hmode => request_readByte_recovers a x hb hlow hmode⟩
  rw [exec_opInstr]
  exact request_quiescent op a b hs

/-- Settles O60: READBYTE from the open cycle is READBYTE from the ended one, where O33's account holds. -/
theorem readByteFromLowWriteEnableEndsTheCycle : Obligations.ReadByteFromLowWriteEnableEndsTheCycle := by
  unfold Obligations.ReadByteFromLowWriteEnableEndsTheCycle
  refine fun a x s hb hw hr hm => ⟨fun hwide hfree => ?ends, fun h => request_readByte_refused hb hw hm h a x⟩
  have hopen : CycleOpen s := ⟨hw, hr, hm, hwide, hfree⟩
  obtain ⟨⟨hcfg, hseq, hfe, hissue⟩, ⟨htimer, hnow, -⟩, htAddr, -, -⟩ := s.cycleEnded_frame
  obtain ⟨hmem, hcmd, hbusy⟩ := afterCycle_chip s
  obtain ⟨t, ht, hd⟩ := request_readByte_done a x s.cycleEnded (by rw [hseq]; exact hb) s.cycleEnded_weN
  refine ⟨t, _, (request_readByte_openCycle hopen hb a x).trans ht, exec_payload_next _ _ s hfree, hd.mem.trans hmem,
    hd.cmd.trans hcmd, hd.busyUntil.trans hbusy, hd.mode, hd.addrPins, hd.reN, hd.weN, hd.dout.trans s.cycleEnded_dout,
    hd.unrelC.trans s.cycleEnded_unrelC, ?clock, hd.seq, hd.cfg.trans hcfg, hd.fe.trans hfe, hd.issue.trans hissue, ?timer,
    ?rdata⟩
  case clock => rw [← hcfg, ← hnow]; exact hd.now
  case timer => rw [← htimer]; exact hd.timer
  case rdata =>
    intro hacc haddr hpending
    refine (hd.rdata ?_ ?_ ?_).trans (congrArg (fun m => FlashMem.read m a) hmem)
    · rw [hcfg]; exact hacc
    · rw [htAddr, hnow]; exact haddr
    · rw [hcfg, hnow]; exact hbusy.trans_le hpending

end Sys2Proof.Machine
end

section
/-! PROOF. Reset (R200), and what a step runs: the oldest issued word, or the front end's next token (R80, R150, R151). -/

namespace Sys2Proof.Machine

/-! ### Reset -/

/-- Settles O1: `State.powerOn` field by field; an array that lists nothing reads as `MEM0`. -/
theorem resetLeavesTheTableOfResetValues : Obligations.ResetLeavesTheTableOfResetValues := by
  unfold Obligations.ResetLeavesTheTableOfResetValues
  refine ⟨fun cfg mem => ⟨powerOn_reN cfg mem, powerOn_weN cfg mem, powerOn_ah cfg mem, powerOn_al cfg mem,
    powerOn_dout cfg mem, rfl, rfl, rfl, rfl, rfl, rfl, rfl, rfl, rfl, rfl, rfl, rfl, rfl⟩, _, rfl, fun a => ?_⟩
  show Config.mem0 (BitVec.ofNat 16 a.toNat) = Config.mem0 a
  rw [BitVec.ofNat_toNat, BitVec.setWidth_eq]

theorem powerOn_inv (cfg : Config) {mem : FlashMem} (h : mem.wf = true) : Inv (State.powerOn cfg mem) where
  memory := h
  notBothLow := fun hlow => by rw [powerOn_reN] at hlow; exact absurd hlow.1 (by decide)
  noContention := fun hcont => absurd (show BusMode.read = .write from hcont.1) (by decide)
  cycleInWriteMode := fun hcycle => by rw [powerOn_weN] at hcycle; exact absurd hcycle.1 (by decide)
  timerAtRest := rfl
  clock := le_refl 0
  addrStamp := le_refl 0
  reStamp := le_refl 0
  weStamp := le_refl 0
  upc := fun hbusy => absurd hbusy Bool.false_ne_true
  writ := fun hpending => absurd hpending Bool.false_ne_true

/-- Settles O2: an array that lists nothing is canonical. -/
theorem powerOnMeetsTheInvariant : Obligations.PowerOnMeetsTheInvariant := by
  unfold Obligations.PowerOnMeetsTheInvariant
  exact ⟨fun cfg mem h => powerOn_inv cfg h, powerOn_inv _ rfl⟩

/-! ### What a step runs -/

theorem step_issued {s : State} {w : IssueWord} {rest : List IssueWord} (hd : s.fe.dsp ≠ .halted)
    (hb : s.seq.busy = false) (hi : s.issue = w :: rest) :
    step s = execDecoded (decodeIssue (decide (s.chip.cmd = .pgm)) w) { s with issue := rest } := by
  rw [step, machineStep, if_neg hd, if_neg (by simp [hb]), hi]
  rfl

/-- Settles O3: the step is `execDecoded` of the word. -/
theorem stepRunsTheOldestIssuedWord : Obligations.StepRunsTheOldestIssuedWord := by
  unfold Obligations.StepRunsTheOldestIssuedWord
  intro s w rest hd hb hi
  rw [step_issued hd hb hi]
  exact ⟨fun i h => by rw [h, execDecoded], fun e h => by rw [h, execDecoded]⟩

theorem step_waiting {s : State} (hd : s.fe.dsp = .command) (hp : s.fe.writPending = true) (hb : s.seq.busy = false)
    (hi : s.issue = []) : step s = writOperand s := by
  rw [step_frontEnd (by simp [hd]) hb hi, frontEndStep, hd]
  exact if_pos hp

theorem step_handshake {s : State} (hd : s.fe.dsp = .handshake) (hp : s.fe.writPending = false) (hb : s.seq.busy = false)
    (hi : s.issue = []) : step s = tokenStep 8 s := by
  rw [step_frontEnd (by simp [hd]) hb hi, frontEndStep, hd]
  exact if_neg (by simp [hp])

theorem step_command {s : State} (hd : s.fe.dsp = .command) (hp : s.fe.writPending = false) (hb : s.seq.busy = false)
    (hi : s.issue = []) : step s = tokenStep 4 s := by
  rw [step_frontEnd (by simp [hd]) hb hi, frontEndStep, hd]
  exact if_neg (by simp [hp])

/-- Token bytes of either length decode (R80). -/
theorem decodeBytes_of_length {bs : List Byte} (h : bs.length = 8 ∨ bs.length = 4) : ∃ i, decodeBytes bs = .ok i :=
  h.elim (fun h => ⟨_, decodeBytes_token8 bs h⟩) (fun h => ⟨_, decodeBytes_token4 bs h⟩)

/-- Settles O4: the step is `tokenStep` with the length of the front end's state. -/
theorem stepRunsTheNextToken : Obligations.StepRunsTheNextToken := by
  unfold Obligations.StepRunsTheNextToken
  intro s k hb hi hp hk
  have hstep : step s = tokenStep k s := by
    rcases hk with ⟨hd, rfl⟩ | ⟨hd, rfl⟩
    · exact step_handshake hd hp hb hi
    · exact step_command hd hp hb hi
  rw [hstep]
  refine ⟨tokenStep_blocked, fun hlen => ?_⟩
  have hlength : (s.fe.rx.take k).length = k := List.length_take_of_le hlen
  obtain ⟨i, hdec⟩ := decodeBytes_of_length (bs := s.fe.rx.take k) (by omega)
  exact ⟨i, hdec, tokenStep_decoded hlen hdec⟩

end Sys2Proof.Machine
end

section
/-! PROOF. The forms of the serial commands (R83, R85) and the front end's procedures (R150 to R160, R202). -/

namespace Sys2Proof.Machine

/-! ### HEXBUF and the operand (R85, R83) -/

theorem hexDigit_toNat (n : BitVec 4) :
    (hexDigit n).toNat = if n.toNat < 10 then 0x30 + n.toNat else 0x57 + n.toNat := by
  have hn := n.isLt
  unfold hexDigit
  split <;> (rw [BitVec.toNat_ofNat]; omega)

theorem hexbuf_length (len : Nat) (v : Byte) : (hexbuf len v).length = len := by
  simp [hexbuf]
  omega

theorem hexbuf_eq {len : Nat} (h : 2 ≤ len) (v : Byte) :
    hexbuf len v = hexDigit (v.extractLsb' 4 4) :: hexDigit (v.extractLsb' 0 4) :: List.replicate (len - 2) 0x00 :=
  List.take_of_length_le (by simp; omega)

theorem high_nibble_toNat (v : Byte) : (v.extractLsb' 4 4).toNat = v.toNat / 16 := by
  have hv := v.isLt
  rw [BitVec.extractLsb'_toNat, Nat.shiftRight_eq_div_pow]
  omega

theorem low_nibble_toNat (v : Byte) : (v.extractLsb' 0 4).toNat = v.toNat % 16 := by
  rw [BitVec.extractLsb'_toNat, Nat.shiftRight_zero]

/-- Settles O45: the two digits are those of the nibbles, the rest fills the buffer. -/
theorem hexbufIsTwoLowercaseDigitsThenZeros : Obligations.HexbufIsTwoLowercaseDigitsThenZeros := by
  unfold Obligations.HexbufIsTwoLowercaseDigitsThenZeros
  refine ⟨rfl, fun len v => ⟨hexbuf_length len v, fun h => ⟨_, _, hexbuf_eq h v, ?_, ?_⟩⟩⟩
  · rw [hexDigit_toNat, high_nibble_toNat]
  · rw [hexDigit_toNat, low_nibble_toNat]

theorem digitValue_eq_some {b : Byte} {n : Nat} :
    digitValue b = some n ↔ (0x30 ≤ b.toNat ∧ b.toNat ≤ 0x39) ∧ n = b.toNat - 0x30 := by
  unfold digitValue
  split
  · next h => simp [h, eq_comm]
  · next h => simp [h]

/-- A value that fits a byte is kept exactly (R90). -/
theorem byte_of_value_iff {n : Nat} {v : Byte} : n ≤ 255 ∧ BitVec.ofNat 8 n = v ↔ v.toNat = n := by
  have hv := v.isLt
  constructor
  · rintro ⟨hn, rfl⟩
    rw [BitVec.toNat_ofNat]
    omega
  · rintro rfl
    exact ⟨by omega, BitVec.ofNat_toNat 8 v⟩

/-- What three operand bytes parse to (R83). -/
theorem parseD3_three {b0 b1 b2 v : Byte} :
    parseD3 [b0, b1, b2] = some v ↔ ∃ d2 d1 d0, digitValue b0 = some d2 ∧ digitValue b1 = some d1
      ∧ digitValue b2 = some d0 ∧ v.toNat = 100 * d2 + 10 * d1 + d0 := by
  simp only [parseD3]
  cases digitValue b0 with
  | none => simp
  | some d2 =>
    cases digitValue b1 with
    | none => simp
    | some d1 =>
      cases digitValue b2 with
      | none => simp
      | some d0 => simp [byte_of_value_iff]

theorem parseD3_length {bytes : List Byte} {v : Byte} (h : parseD3 bytes = some v) : ∃ b0 b1 b2, bytes = [b0, b1, b2] := by
  unfold parseD3 at h
  split at h
  · exact ⟨_, _, _, rfl⟩
  · exact absurd h (by simp)

/-- Settles O46: three digits, each with its value, and a total that fits. -/
theorem operandIsThreeDigitsUpTo255 : Obligations.OperandIsThreeDigitsUpTo255 := by
  unfold Obligations.OperandIsThreeDigitsUpTo255
  intro bytes v
  constructor
  · intro h
    obtain ⟨b0, b1, b2, rfl⟩ := parseD3_length h
    obtain ⟨d2, d1, d0, h0, h1, h2, hv⟩ := parseD3_three.1 h
    obtain ⟨r0, rfl⟩ := digitValue_eq_some.1 h0
    obtain ⟨r1, rfl⟩ := digitValue_eq_some.1 h1
    obtain ⟨r2, rfl⟩ := digitValue_eq_some.1 h2
    exact ⟨b0, b1, b2, rfl, r0, r1, r2, hv⟩
  · rintro ⟨b0, b1, b2, rfl, r0, r1, r2, hv⟩
    exact parseD3_three.2 ⟨_, _, _, digitValue_eq_some.2 ⟨r0, rfl⟩, digitValue_eq_some.2 ⟨r1, rfl⟩,
      digitValue_eq_some.2 ⟨r2, rfl⟩, hv⟩

/-! ### The handshake (R152) -/

/-- Settles O42: both procedures send and enter the command loop. -/
theorem handshakeAnswersAndEntersTheLoop : Obligations.HandshakeAnswersAndEntersTheLoop := by
  unfold Obligations.HandshakeAnswersAndEntersTheLoop
  intro i reply s h
  have hexec : exec i s = .next (s.send reply).toCommand := by
    rcases h with ⟨rfl, rfl⟩ | ⟨⟨p, rfl⟩, rfl⟩
    · rfl
    · rfl
  exact ⟨_, hexec, rfl, rfl, ⟨rfl, rfl, rfl⟩, rfl, ⟨rfl, rfl, rfl⟩, rfl, rfl, rfl⟩

/-- Eight bytes are the probe exactly when their integer is (R42, R81). -/
theorem probe_bytes {p : List Byte} (h : p.length = 8) :
    BitVec.ofNat 64 (beNat p) = probeToken ↔ p = [0x55, 0x41, 0x52, 0x54, 0x5F, 0x4F, 0x4B, 0x3F] := by
  obtain ⟨hbytes, hlt⟩ := beBytes_beNat 8 p h
  constructor
  · intro hp
    have hnat : beNat p = probeToken.toNat := by
      rw [← hp, BitVec.toNat_ofNat, Nat.mod_eq_of_lt (by simpa using hlt)]
    rw [← hbytes, hnat]
    decide
  · rintro rfl
    decide

theorem exec_decodeH8 (w : BitVec 64) (s : State) :
    exec (decodeH8 w) s = .next (s.send (if w = probeToken then uartOkBytes else unrecogBytes)).toCommand := by
  unfold decodeH8
  split <;> rfl

/-- Settles O43: the eight bytes decode to the probe they are, and either probe is answered. -/
theorem firstEightBytesAreTheProbe : Obligations.FirstEightBytesAreTheProbe := by
  unfold Obligations.FirstEightBytesAreTheProbe
  intro s p rest hlen hd hp hrx hb hi
  have htake : s.fe.rx.take 8 = p := by rw [hrx, List.take_left' hlen]
  have hdrop : s.fe.rx.drop 8 = rest := by rw [hrx, List.drop_left' hlen]
  have hdec : decodeBytes (s.fe.rx.take 8) = .ok (decodeH8 (BitVec.ofNat 64 (beNat p))) := by
    rw [htake]; exact decodeBytes_token8 p hlen
  have hstep : step s = exec (decodeH8 (BitVec.ofNat 64 (beNat p))) (s.recv 8) := by
    rw [step_handshake hd hp hb hi, tokenStep_decoded (by simp [hrx]; omega) hdec]
  refine ⟨_, hstep.trans (exec_decodeH8 _ _), rfl, hdrop, ?_, ⟨rfl, rfl, rfl⟩, rfl⟩
  simp only [probe_bytes hlen]
  rfl

/-! ### READ and ERAS (R154, R156) -/

/-- Settles O44: READBYTE at the fixed address, then two sends. -/
theorem readSendsTheHexbufAndOk : Obligations.ReadSendsTheHexbufAndOk := by
  unfold Obligations.ReadSendsTheHexbufAndOk
  intro s hb hw
  obtain ⟨t, ht, hd⟩ := execRead_done s hb hw
  refine ⟨_, ht, ?sent, hd.addrPins, hd.mode, hd.reN, hd.weN, hd.dout, hd.unrelC,
    ⟨fun c => congrArg (fun m => FlashMem.read m c) hd.mem, hd.cmd, hd.busyUntil⟩, hd.now, hd.cfg, hd.issue, hd.timer,
    hd.rdata⟩
  case sent =>
    rw [State.send_fe, State.send_fe, hd.fe, hd.cfg]
    rfl

/-- Settles O51: ERASECHIP, then one send. -/
theorem erasErasesAndAnswersOk : Obligations.ErasErasesAndAnswersOk := by
  unfold Obligations.ErasErasesAndAnswersOk
  intro s h
  obtain ⟨t, ht, hd⟩ := execEras_done s h.2.1 h.pulseReady h.2.2
  refine ⟨_, ht, ?sent, fun c => ?cells, hd.cmd, hd.busyUntil, hd.now, hd.mode, hd.addrPins, hd.dout, hd.reN, hd.weN,
    hd.unrelC, hd.cfg, hd.issue, (congrArg Sequencer.rdata hd.seq :), hd.timer⟩
  case sent => rw [State.send_fe, hd.fe]; rfl
  case cells => rw [State.send_chip, hd.mem, FlashMem.eraseAll_read]

/-! ### WRIT (R155, R159) -/

theorem exec_writ (s : State) : exec .writ s = writOperand (s.send gotWriteBytes) := rfl

/-- WRIT with a valid operand there, from a state ready for WRITEBYTE. -/
theorem exec_writ_done {s : State} {operand rest : List Byte} {b : Byte} (h : OperationReady s)
    (hlen : operand.length = 3) (hv : parseD3 operand = some b) (hrx : s.fe.rx = operand ++ rest) :
    ∃ t, exec .writ s = .next (t.send okBytes)
      ∧ WriteDone s.cfg.fixedAddr b (s.send gotWriteBytes).takeOperand t := by
  have hready := h.pulseReady
  have htake : (s.send gotWriteBytes).fe.rx.take 3 = operand := by
    rw [State.send_fe, hrx, List.take_left' hlen]
  exact writOperand_done (s.send gotWriteBytes) b h.2.1 ⟨hready.re, hready.we, hready.wp, hready.free⟩ h.2.2
    (by simp [hrx]; omega) (by rw [htake]; exact hv)

/-- The front end once WRIT has its operand: `got write` sent, three bytes taken. -/
theorem takeOperand_fe {s : State} {operand rest : List Byte} (hlen : operand.length = 3)
    (hrx : s.fe.rx = operand ++ rest) :
    (s.send gotWriteBytes).takeOperand.fe = { s.fe with writPending := false, rx := rest, tx := s.fe.tx ++ gotWriteBytes } := by
  have hdrop : s.fe.rx.drop 3 = rest := by rw [hrx, List.drop_left' hlen]
  rw [← hdrop]
  rfl

/-- Settles O47: `WriteDone` at the fixed address, between two sends. -/
theorem writProgramsTheFixedAddress : Obligations.WritProgramsTheFixedAddress := by
  unfold Obligations.WritProgramsTheFixedAddress
  intro s operand rest b h hwf hlen hv hrx
  obtain ⟨t, ht, hd⟩ := exec_writ_done h hlen hv hrx
  refine ⟨_, ht, ?sent, ?cell, fun c hc => ?others, hd.mode, hd.addrPins, hd.dout, hd.reN, hd.weN, hd.unrelC, hd.cmd,
    hd.cfg, hd.issue, (congrArg Sequencer.rdata hd.seq :), hd.timer⟩
  case sent => rw [State.send_fe, hd.fe, takeOperand_fe hlen hrx]; rfl
  case cell => rw [State.send_chip, hd.mem]; exact FlashMem.read_write_same hwf _ _
  case others => rw [State.send_chip, hd.mem]; exact FlashMem.read_write_other hwf _ hc

/-- Where WRIT stands does not matter to it once its operand is there. -/
theorem writOperand_pending {s : State} (p : Bool) (h : 3 ≤ s.fe.rx.length) :
    writOperand { s with fe.writPending := p } = writOperand s := by
  unfold writOperand
  rw [if_neg (Nat.not_lt.2 h), if_neg (show ¬ s.fe.rx.length < 3 by omega)]
  rfl

/-- Settles O48: the wait is `writPending`, which the completed operand clears. -/
theorem writHoldsUntilItsOperandArrives : Obligations.WritHoldsUntilItsOperandArrives := by
  unfold Obligations.WritHoldsUntilItsOperandArrives
  refine ⟨fun s h => ?waits, fun s hd hp hb hi h => ?blocked, fun s t bytes hd hp hb hi h h3 ht => ?resumes⟩
  case waits =>
    exact ⟨_, writOperand_waits (s.send gotWriteBytes) h, rfl, ⟨rfl, rfl, rfl⟩, rfl, ⟨rfl, rfl, rfl⟩, rfl, rfl, rfl⟩
  case blocked =>
    have hsame : { s with fe.writPending := true } = s := by rw [← hp]
    rw [step_waiting hd hp hb hi, writOperand_waits s h, hsame]
  case resumes =>
    obtain rfl := Host.Outcome.next.inj ((writOperand_waits (s.send gotWriteBytes) h).symm.trans ht)
    rw [exec_writ, ← writOperand_pending true (s := (s.hostSend bytes).send gotWriteBytes) h3]
    exact step_waiting hd rfl hb hi

/-- The front end and the trace are all that changes. -/
def OnlyFrontEnd (s t : State) : Prop :=
  SamePorts s t ∧ t.chip = s.chip ∧ SameTime s t ∧ t.cfg = s.cfg ∧ t.seq = s.seq ∧ t.issue = s.issue

theorem OnlyFrontEnd.trans {s t u : State} (h : OnlyFrontEnd s t) (h' : OnlyFrontEnd t u) : OnlyFrontEnd s u := by
  obtain ⟨⟨hC, hS, hmode⟩, hchip, ⟨htimer, hnow, hdraws⟩, hcfg, hseq, hissue⟩ := h
  obtain ⟨⟨hC', hS', hmode'⟩, hchip', ⟨htimer', hnow', hdraws'⟩, hcfg', hseq', hissue'⟩ := h'
  exact ⟨⟨hC'.trans hC, hS'.trans hS, hmode'.trans hmode⟩, hchip'.trans hchip,
    ⟨htimer'.trans htimer, hnow'.trans hnow, hdraws'.trans hdraws⟩, hcfg'.trans hcfg, hseq'.trans hseq,
    hissue'.trans hissue⟩

theorem takeOperand_onlyFrontEnd (s : State) (bytes : List Byte) : OnlyFrontEnd s (s.send bytes).takeOperand :=
  ⟨⟨rfl, rfl, rfl⟩, rfl, ⟨rfl, rfl, rfl⟩, rfl, rfl, rfl⟩

theorem takeDecodeFail_onlyFrontEnd (s : State) : OnlyFrontEnd s (takeDecodeFail s) := by
  rcases takeDecodeFail_cases s with ⟨-, he⟩ | ⟨-, he⟩
  · rw [he]; exact ⟨⟨rfl, rfl, rfl⟩, rfl, ⟨rfl, rfl, rfl⟩, rfl, rfl, rfl⟩
  · rw [he]; exact ⟨⟨rfl, rfl, rfl⟩, rfl, ⟨rfl, rfl, rfl⟩, rfl, rfl, rfl⟩

theorem takeDecodeFail_fe_halt {s : State} (h : s.cfg.decodeFailPolicy = .halt) :
    (takeDecodeFail s).fe = { s.fe with dsp := .halted } := by
  rw [takeDecodeFail, h]

theorem takeDecodeFail_fe_resume {s : State} (h : s.cfg.decodeFailPolicy = .replyAndResume) :
    (takeDecodeFail s).fe = { s.fe with tx := s.fe.tx ++ unrecogBytes } := by
  rw [takeDecodeFail, h]
  rfl

/-- Settles O49: the operand is taken, and the failure's two policies are those of `takeDecodeFail`. -/
theorem malformedOperandFailsBeforeTheBus : Obligations.MalformedOperandFailsBeforeTheBus := by
  unfold Obligations.MalformedOperandFailsBeforeTheBus
  intro s operand rest hlen hbad hrx
  have htake : (s.send gotWriteBytes).fe.rx.take 3 = operand := by
    rw [State.send_fe, hrx, List.take_left' hlen]
  have hexec : exec .writ s = .next (takeDecodeFail (s.send gotWriteBytes).takeOperand) :=
    writOperand_malformed (s.send gotWriteBytes) (by simp [hrx]; omega) (by rw [htake]; exact hbad)
  have hfe := takeOperand_fe hlen hrx
  refine ⟨_, hexec, fun h => ?halt, fun h => ?resume,
    (takeOperand_onlyFrontEnd s gotWriteBytes).trans (takeDecodeFail_onlyFrontEnd _)⟩
  case halt => rw [takeDecodeFail_fe_halt (s := (s.send gotWriteBytes).takeOperand) h, hfe]; rfl
  case resume => rw [takeDecodeFail_fe_resume (s := (s.send gotWriteBytes).takeOperand) h, hfe]; rfl

/-! ### Unknown tokens, and the way out of `Halted` (R158, R160, R192, R202) -/

/-- Settles O52, one policy at a time. -/
theorem unknownTokenIsIgnoredOrAnswered : Obligations.UnknownTokenIsIgnoredOrAnswered := by
  unfold Obligations.UnknownTokenIsIgnoredOrAnswered
  refine fun tok s => ⟨fun h => ?ignore, fun h => ⟨s.send unrecogBytes, ?reply, rfl, rfl, ⟨rfl, rfl, rfl⟩, rfl,
    ⟨rfl, rfl, rfl⟩, rfl, rfl, rfl⟩⟩
  case ignore => rw [exec, execCmdUnrecog, h]
  case reply => rw [exec, execCmdUnrecog, h]

/-- Settles O50: a halted device is stuck, and a reset is refused or a power-on. -/
theorem onlyResetLeavesHalted : Obligations.OnlyResetLeavesHalted := by
  unfold Obligations.OnlyResetLeavesHalted
  refine ⟨fun s bytes h => step_halted h, fun s h => ?refused, fun s hb hc => ⟨?resets, rfl, fun a => rfl⟩⟩
  case refused => rw [controllerReset, if_pos h]
  case resets => rw [controllerReset, if_neg (by simp [hb, hc])]

/-! ### Sequences of commands (R216) -/

theorem WriteDone.ready {a : U16} {b : Byte} {s t : State} (hd : WriteDone a b s t)
    (hmeets : s.cfg.Meets) : OperationReady t := by
  have hcfg := hd.cfg
  refine ⟨⟨⟨hd.reN, hd.weN⟩, by rw [hcfg]; exact hmeets.weHold, ?_⟩, hd.busy, hd.cmd⟩
  rw [hd.busyUntil, hcfg]
  exact add_le_add_right hmeets.holdCoversProgram t.now

/-- A READBYTE right after a WRITEBYTE returns what the array holds then. -/
theorem WriteDone.read_back {a a' : U16} {b : Byte} {s t : State} (hd : WriteDone a' b s t) (hmeets : s.cfg.Meets)
    (hAddr : s.chip.tAddr ≤ s.now) (x : Byte) :
    ∃ u, exec (.readByte a x) t = .next u ∧ u.seq.rdata = t.chip.mem.read a := by
  obtain ⟨u, hu, hr⟩ := request_readByte_done a x t hd.busy hd.weN
  refine ⟨u, hu, hr.rdata ?_ (hd.tAddr hAddr) ?_⟩
  · rw [hd.cfg]; exact hmeets.readSettle
  · rw [hd.busyUntil, hd.cfg]
    exact add_le_add_right hmeets.settleCoversProgram t.now

/-- Settles O58: each WRITEBYTE leaves a state ready for the next operation; only its own cell has changed. -/
theorem writeThenReadReturnsOldAndNew : Obligations.WriteThenReadReturnsOldAndNew := by
  unfold Obligations.WriteThenReadReturnsOldAndNew
  intro a a' b b' x s h hwf hmeets hAddr ha
  obtain ⟨t, ht, hd⟩ := request_writeByte_done a b s h.2.1 h.pulseReady h.2.2
  have hready := hd.ready hmeets
  have hmeets' : t.cfg.Meets := by rw [hd.cfg]; exact hmeets
  have hwf' : t.chip.mem.wf = true := by rw [hd.mem]; exact FlashMem.write_wf hwf _ _
  have hcell : t.chip.mem.read a = s.chip.mem.read a &&& b := by rw [hd.mem, FlashMem.read_write_same hwf]
  have hexec : exec (.writeByte b a) s = .next t := ht
  constructor
  · obtain ⟨u, hu, hr⟩ := hd.read_back (a := a) hmeets hAddr x
    refine ⟨u, ?_, hr.trans hcell⟩
    rw [execAll_cons, hexec, andThen_next, execAll_cons, hu, andThen_next, execAll_nil]
  · obtain ⟨t', ht', hd'⟩ := request_writeByte_done a' b' t hready.2.1 hready.pulseReady hready.2.2
    obtain ⟨u, hu, hr⟩ := hd'.read_back (a := a) hmeets' (hd.tAddr hAddr) x
    have hexec' : exec (.writeByte b' a') t = .next t' := ht'
    have hkept : t'.chip.mem.read a = t.chip.mem.read a := by rw [hd'.mem, FlashMem.read_write_other hwf' _ ha.symm]
    refine ⟨u, ?_, hr.trans (hkept.trans hcell)⟩
    rw [execAll_cons, hexec, andThen_next, execAll_cons, hexec', andThen_next, execAll_cons, hu, andThen_next, execAll_nil]

/-- ERAS in a session: the array is erased, `OK!` is sent. -/
theorem Session.eras {s : State} (h : Session s) :
    ∃ t, exec .eras s = .next t ∧ Session t ∧ t.cfg = s.cfg ∧ t.chip.mem = FlashMem.eraseAll
      ∧ t.fe = { s.fe with tx := s.fe.tx ++ okBytes } := by
  obtain ⟨t, ht, hd⟩ := execEras_done s h.quiescent.2 h.pulseReady h.recogniser
  exact ⟨_, ht, (hd.session h).send _, hd.cfg, hd.mem, by rw [State.send_fe, hd.fe]⟩

/-- WRIT in a session, its operand there: the fixed cell is programmed, both replies are sent. -/
theorem Session.writ {s : State} (h : Session s) {operand : List Byte} {b : Byte} (hlen : operand.length = 3)
    (hv : parseD3 operand = some b) (hrx : s.fe.rx = operand) :
    ∃ t, exec .writ s = .next t ∧ Session t ∧ t.cfg = s.cfg
      ∧ t.chip.mem = s.chip.mem.write s.cfg.fixedAddr (s.chip.mem.read s.cfg.fixedAddr &&& b)
      ∧ t.fe.rx = [] ∧ t.fe.tx = s.fe.tx ++ gotWriteBytes ++ okBytes := by
  have hrx : s.fe.rx = operand ++ [] := by rw [hrx, List.append_nil]
  obtain ⟨t, ht, hd⟩ := exec_writ_done h.ready hlen hv hrx
  have hfe := hd.fe.trans (takeOperand_fe hlen hrx)
  refine ⟨_, ht, (hd.session (h.send _).takeOperand).send _, hd.cfg, hd.mem, ?_, ?_⟩
  · rw [State.send_fe, hfe]
  · rw [State.send_fe, hfe]

/-- READ in a session: the byte at the fixed address is sent, then `OK!`. -/
theorem Session.read {s : State} (h : Session s) :
    ∃ t, exec .read s = .next t ∧ Session t ∧ t.chip.mem = s.chip.mem ∧ t.fe.rx = s.fe.rx
      ∧ t.fe.tx = s.fe.tx ++ hexbuf s.cfg.hexbufLen (s.chip.mem.read s.cfg.fixedAddr) ++ okBytes := by
  obtain ⟨t, ht, hd⟩ := execRead_done s h.quiescent.2 h.quiescent.1.2
  have hrdata := hd.rdata h.params.readSettle h.addrStamp
    (h.pending.trans (add_le_add_right h.params.settleCoversProgram s.now))
  refine ⟨_, ht, ((hd.session h).send _).send _, hd.mem, ?_, ?_⟩
  · rw [State.send_fe, State.send_fe, hd.fe]
  · rw [State.send_fe, State.send_fe, hd.fe, hd.cfg, hrdata]

/-- Settles O59: the three commands in a row, the byte ANDed into an erased cell. -/
theorem eraseWriteReadAnswersTheByteWritten : Obligations.EraseWriteReadAnswersTheByteWritten := by
  unfold Obligations.EraseWriteReadAnswersTheByteWritten
  intro s operand b h _ hlen hv hrx
  obtain ⟨t1, he1, hs1, hcfg1, hmem1, hfe1⟩ := h.eras
  obtain ⟨t2, he2, hs2, hcfg2, hmem2, hrx2, htx2⟩ := hs1.writ hlen hv (by rw [hfe1]; exact hrx)
  obtain ⟨t3, he3, hs3, hmem3, hrx3, htx3⟩ := hs2.read
  have hall : (0xFF : Byte) &&& b = b := BitVec.allOnes_and
  rw [hcfg1, hmem1, FlashMem.eraseAll_read, hall] at hmem2
  have hread : t2.chip.mem.read s.cfg.fixedAddr = b := by rw [hmem2, FlashMem.read_write_same FlashMem.eraseAll_wf]
  rw [hcfg2, hcfg1, hread, htx2, hfe1] at htx3
  refine ⟨t3, ?run, htx3, hrx3.trans hrx2, fun c hc => ?others, hs3⟩
  case run =>
    rw [execAll_cons, he1, andThen_next, execAll_cons, he2, andThen_next, execAll_cons, he3, andThen_next, execAll_nil]
  case others => rw [hmem3, hmem2, FlashMem.read_write_other FlashMem.eraseAll_wf _ hc, FlashMem.eraseAll_read]

end Sys2Proof.Machine
end
